-- ==== Sys2Proof/Word.lean ====
section
/-! DEFINITION. The plainest types of the spec's notation (00_scope.md R8): bytes, operand patterns, bits and the
numeric values of rule R10. -/

namespace Sys2Proof

/-- A byte of an operation record (30_encoding.md R70). -/
abbrev Byte := BitVec 8

/-- The 64-bit pattern of a Num operand as its record carries it (R51, R73). -/
abbrev Pattern := BitVec 64

/-- The spec's `Bit` (R8): `false` is 0 and `true` is 1. -/
abbrev Bit := Bool

/-- The spec's `Num` (R8, R10): a binary floating-point value.
`fin neg mant exp` is the number `(-1)^neg * mant * 2^exp`, so `fin false 0 0` is `+0.0` and `fin true 0 0` is `-0.0`.
The arithmetic of Machine/Number.lean always answers the one form with an odd `mant`, or `mant = 0` and `exp = 0`,
whatever the format, so equal results are equal data.
`nan` stands for every NaN: no rule reads a NaN's payload, and an operand's own bits stay in its record (DEDUCED, log
entry 10). -/
inductive Number where
  | fin (neg : Bool) (mant : Nat) (exp : Int)
  | inf (neg : Bool)
  | nan
  deriving DecidableEq, Repr

end Sys2Proof
end

