-- ==== Sys2Proof/Config.lean ====
section
/-! DEFINITION. The configuration (00_scope.md R6, 10_state.md R41): what is fixed for the block's lifetime.
It is a field of State, so every statement ranges over every configuration; the constraints of R6 are
`Config.valid` in Machine/Configuration.lean. -/

namespace Sys2Proof

/-- The formats the parameter `NUM` may name (R10): IEEE 754's binary interchange formats.
DESIGN CHOICE (log entry 4): the spec gives binary64 as the default and does not list the others.
Safe. -/
inductive NumFormat where
  | binary16
  | binary32
  | binary64
  | binary128
  deriving DecidableEq, Repr

/-- The parameters of rule R6, one field each, in the rule's order. -/
structure Config where
  /-- `CPR`, counts per revolution of the encoder disk, pre-gearbox. -/
  cpr : Number
  /-- `GEAR_RATIO`, motor to wheel. -/
  gearRatio : Number
  /-- `P`, the velocity-estimation period in seconds. -/
  period : Number
  /-- `WHEEL_RADIUS`, metres. -/
  wheelRadius : Number
  /-- `KP`, proportional gain. -/
  kp : Number
  /-- `KI`, integral gain. -/
  ki : Number
  /-- `KD`, derivative gain. -/
  kd : Number
  /-- `REG_VEL_FREQ`, the regulation rate in Hz and the cycle-count ceiling (R140). -/
  regVelFreq : Nat
  /-- `WHEEL_SEP`, wheel separation in metres. -/
  wheelSep : Number
  /-- `LIMIT`, the stepper's half-step limit. -/
  limit : Nat
  /-- `PULSE_WIDTH_US`, the stepper pulse width in microseconds. -/
  pulseWidthUs : Number
  /-- `TELEMETRY_FREQ`, the host side's telemetry rate in Hz. -/
  telemetryFreq : Number
  /-- `TICK_BITS`, the width of the tick counter's range. -/
  tickBits : Nat
  /-- `DIR_LEVEL_FWD`, the stepper direction line's level for forward. -/
  dirLevelFwd : Bit
  /-- `NUM`, the numeric format of Num. -/
  num : NumFormat
  deriving DecidableEq, Repr

/-- CFG-A of 95_test_vectors.md, the configuration State.reset is instantiated with.
DESIGN CHOICE (log entry 1): the spec gives no parameter a default. Unsafe where a claim rests on these values. -/
def Config.cfgA : Config where
  cpr := .fin false 1 6                               -- 64.0
  gearRatio := .fin false 25 1                        -- 50.0
  period := .fin false 5764607523034235 (-58)         -- 0.02
  wheelRadius := .fin false 5404319552844595 (-57)    -- 0.0375
  kp := .fin false 1 (-1)                             -- 0.5
  ki := .fin false 3602879701896397 (-55)             -- 0.1
  kd := .fin false 3602879701896397 (-56)             -- 0.05
  regVelFreq := 2
  wheelSep := .fin false 3440750115311059 (-53)       -- 0.382
  limit := 2
  pulseWidthUs := .fin false 125 2                    -- 500.0
  telemetryFreq := .fin false 25 2                    -- 100.0
  tickBits := 32
  dirLevelFwd := true
  num := .binary64

end Sys2Proof
end

