-- ==== Sys2Proof/Syntax.lean ====
section
/-! DEFINITION. The operations of 30_encoding.md R74 as syntax: one constructor per row of spec/opcode_table.json,
its fields already pulled out of the record (R70, R73). -/

namespace Sys2Proof

/-- The two wheels (R5): `left` is the spec's `L` (code bit 0), `right` its `R` (code bit 1). -/
inductive Wheel where
  | left
  | right
  deriving DecidableEq, Repr

/-- The two channels of a quadrature decoder (R5): the spec's `A` and `B`. -/
inductive Chan where
  | chanA
  | chanB
  deriving DecidableEq, Repr

/-- The operations (R74). A Num operand is the record's 64-bit pattern (R73): its meaning is read by
Machine/Operands.lean, and the fault register needs the bits themselves (R230). -/
inductive Instr where
  /-- QD.EDGEA, 40_quadrature_decoder.md R102: `a` is the new level of channel A. -/
  | qdEdgeA (w : Wheel) (a : Bit)
  /-- QD.EDGEB, 40_quadrature_decoder.md R103: `b` is the new level of channel B. -/
  | qdEdgeB (w : Wheel) (b : Bit)
  /-- VE.TICK, 41_velocity_estimator.md R121. -/
  | veTick (w : Wheel)
  /-- PID.SET, 42_pid_velocity_regulator.md R141: `t` is the target in m/s. -/
  | pidSet (w : Wheel) (t : Pattern)
  /-- PID.TICK, 42_pid_velocity_regulator.md R143. -/
  | pidTick (w : Wheel)
  /-- KIN.SET, 43_differential_drive_kinematics.md R171: `v` in m/s and `om` in rad/s. -/
  | kinSet (v om : Pattern)
  /-- KIN.GET, 43_differential_drive_kinematics.md R172. -/
  | kinGet
  /-- ST.TICK, 44_oscillating_stepper_sequencer.md R191. -/
  | stTick
  /-- ST.SETDIR, 44_oscillating_stepper_sequencer.md R195: `d` is the sign-extended payload byte. -/
  | stSetDir (d : Int)
  /-- ACT.FWD, 45_actuator_interface.md R211. -/
  | actFwd (w : Wheel) (duty : Pattern)
  /-- ACT.BWD, 45_actuator_interface.md R212. -/
  | actBwd (w : Wheel) (duty : Pattern)
  /-- ACT.STOP, 45_actuator_interface.md R213. -/
  | actStop (w : Wheel)
  /-- ACT.HALT, 45_actuator_interface.md R214. -/
  | actHalt (w : Wheel)
  deriving DecidableEq, Repr

end Sys2Proof
end

