-- ==== Sys2Proof/WellFormed.lean ====
section
/-! DEFINITION. Which terms of Instr stand for a record (30_encoding.md R73): every operand but the direction fills
its field by its type. -/

namespace Sys2Proof

/-- The values of an I8 operand: "an Int in [-128, 127]" (R73, R195). -/
def Instr.inI8 (d : Int) : Bool := decide (-128 ≤ d) && decide (d ≤ 127)

/-- A term that some record decodes to (R73). -/
def Instr.wellFormed : Instr → Bool
  | .qdEdgeA _ _ => true
  | .qdEdgeB _ _ => true
  | .veTick _ => true
  | .pidSet _ _ => true
  | .pidTick _ => true
  | .kinSet _ _ => true
  | .kinGet => true
  | .stTick => true
  | .stSetDir d => Instr.inI8 d
  | .actFwd _ _ => true
  | .actBwd _ _ => true
  | .actStop _ => true
  | .actHalt _ => true

end Sys2Proof
end

