-- ==== Sys2Proof/Decode.lean ====
section
/-! DEFINITION. From bytes to operations and back (30_encoding.md R70 to R79, 20_memory.md R51): the opcode table of
R74, the decoder, the encoder, and `decodeTableWord` for the host. -/

namespace Sys2Proof

/-! ## The table -/

/-- The rows of the opcode map (R74), by mnemonic. -/
inductive Mnemonic where
  | qdEdgeA | qdEdgeB | veTick | pidSet | pidTick | kinSet | kinGet
  | stTick | stSetDir | actFwd | actBwd | actStop | actHalt
  deriving DecidableEq, Repr

/-- The payload classes (R72). -/
inductive PayloadClass where
  | none | num | num2 | i8
  deriving DecidableEq, Repr

/-- A row of the opcode map: a code byte belongs to it when it equals `pattern` in the bits of `mask` (R75). -/
structure OpcodeRow where
  mnemonic : Mnemonic
  pattern : Byte
  mask : Byte
  payload : PayloadClass
  deriving DecidableEq, Repr

/-- The opcode map (R74), in the rule's order. The mask leaves out the wheel bit `w` and the level bit `l`. -/
def opcodeTable : List OpcodeRow :=
  [ ⟨.qdEdgeA,  0b00000000#8, 0b11101110#8, .none⟩,
    ⟨.qdEdgeB,  0b00000010#8, 0b11101110#8, .none⟩,
    ⟨.veTick,   0b00100000#8, 0b11101111#8, .none⟩,
    ⟨.pidSet,   0b01000000#8, 0b11101111#8, .num⟩,
    ⟨.pidTick,  0b01000001#8, 0b11101111#8, .none⟩,
    ⟨.kinSet,   0b01100000#8, 0b11111111#8, .num2⟩,
    ⟨.kinGet,   0b01100001#8, 0b11111111#8, .none⟩,
    ⟨.stTick,   0b10000000#8, 0b11111111#8, .none⟩,
    ⟨.stSetDir, 0b10000001#8, 0b11111111#8, .i8⟩,
    ⟨.actFwd,   0b10100000#8, 0b11101111#8, .num⟩,
    ⟨.actBwd,   0b10100001#8, 0b11101111#8, .num⟩,
    ⟨.actStop,  0b10100010#8, 0b11101111#8, .none⟩,
    ⟨.actHalt,  0b10100011#8, 0b11101111#8, .none⟩ ]

/-- Whether a code byte belongs to a row (R75). -/
def OpcodeRow.accepts (r : OpcodeRow) (op : Byte) : Bool := op &&& r.mask == r.pattern

/-- `decode(op)` of R75: the row whose pattern matches, or none for `ILLEGAL`. -/
def decodeOp (op : Byte) : Option OpcodeRow := opcodeTable.find? (OpcodeRow.accepts · op)

/-- Payload lengths in bytes (R72). -/
def PayloadClass.length : PayloadClass → Nat
  | .none => 0
  | .num => 8
  | .num2 => 16
  | .i8 => 1

/-- The length of a record by its code byte; an `ILLEGAL` code is 1 byte long (R76, R78). -/
def recordLength (op : Byte) : Nat :=
  match decodeOp op with
  | some r => 1 + r.payload.length
  | none => 1

/-! ## Fields -/

/-- `op[4]` (R70). -/
def Wheel.ofBit (b : Bool) : Wheel := if b then .right else .left

/-- The wheel selector's bit: 0 for `L`, 1 for `R` (R70). -/
def Wheel.toBit : Wheel → Bool
  | .left => false
  | .right => true

/-- The number a list of bytes spells, the first byte the least significant (R51). -/
def ofLeBytes : List Byte → Nat
  | [] => 0
  | b :: bs => b.toNat + 256 * ofLeBytes bs

/-- The `k` low bytes of a number, least significant first (R51). -/
def toLeBytes : Nat → Nat → List Byte
  | 0, _ => []
  | k + 1, n => BitVec.ofNat 8 (n % 256) :: toLeBytes k (n / 256)

/-- A Num operand's pattern from its 8 payload bytes (R73). -/
def patternOf (bs : List Byte) : Pattern := BitVec.ofNat 64 (ofLeBytes bs)

/-- The 8 payload bytes of a Num operand (R51). -/
def patternBytes (p : Pattern) : List Byte := toLeBytes 8 p.toNat

/-- `sext_8` (R8, R73). -/
def sext8 (b : Byte) : Int := if b.toNat < 128 then (b.toNat : Int) else (b.toNat : Int) - 256

/-- The byte of an I8 operand, in two's complement (R8, R73). -/
def i8Byte (d : Int) : Byte := BitVec.ofNat 8 (d % 256).toNat

/-! ## Decoding -/

/-- What the front of a byte stream is (R75, R79). -/
inductive Decoded where
  /-- A whole record and the bytes after it. -/
  | record (i : Instr) (rest : List Byte)
  /-- A reserved code byte, 1 byte long (R76), and the bytes after it. -/
  | illegal (op : Byte) (rest : List Byte)
  /-- No code byte, or fewer bytes than the record's length. -/
  | incomplete
  deriving DecidableEq, Repr

/-- The operation of a row, from its code byte and payload bytes (R70, R73, R74). -/
def OpcodeRow.operation (r : OpcodeRow) (op : Byte) (payload : List Byte) : Instr :=
  let w := Wheel.ofBit (op.getLsbD 4)
  let l := op.getLsbD 0
  match r.mnemonic with
  | .qdEdgeA => .qdEdgeA w l
  | .qdEdgeB => .qdEdgeB w l
  | .veTick => .veTick w
  | .pidSet => .pidSet w (patternOf payload)
  | .pidTick => .pidTick w
  | .kinSet => .kinSet (patternOf (payload.take 8)) (patternOf (payload.drop 8))
  | .kinGet => .kinGet
  | .stTick => .stTick
  | .stSetDir => .stSetDir (sext8 (payload.headD 0#8))
  | .actFwd => .actFwd w (patternOf payload)
  | .actBwd => .actBwd w (patternOf payload)
  | .actStop => .actStop w
  | .actHalt => .actHalt w

/-- The record at the front of a byte stream (R75 to R79). -/
def decode : List Byte → Decoded
  | [] => .incomplete
  | op :: bytes =>
    match decodeOp op with
    | none => .illegal op bytes
    | some r =>
      if bytes.length < r.payload.length then .incomplete
      else .record (r.operation op (bytes.take r.payload.length)) (bytes.drop r.payload.length)

/-! ## Encoding -/

/-- The code byte of an operation: unit, wheel, function, and for an edge its level (R70, R74). -/
def Instr.codeByte : Instr → Byte
  | .qdEdgeA w a => 0x00#8 ||| wheelField w ||| levelField a
  | .qdEdgeB w b => 0x02#8 ||| wheelField w ||| levelField b
  | .veTick w => 0x20#8 ||| wheelField w
  | .pidSet w _ => 0x40#8 ||| wheelField w
  | .pidTick w => 0x41#8 ||| wheelField w
  | .kinSet _ _ => 0x60#8
  | .kinGet => 0x61#8
  | .stTick => 0x80#8
  | .stSetDir _ => 0x81#8
  | .actFwd w _ => 0xA0#8 ||| wheelField w
  | .actBwd w _ => 0xA1#8 ||| wheelField w
  | .actStop w => 0xA2#8 ||| wheelField w
  | .actHalt w => 0xA3#8 ||| wheelField w
where
  /-- `op[4]`. -/
  wheelField (w : Wheel) : Byte := if w.toBit then 0x10#8 else 0x00#8
  /-- `op[0]` of the quadrature-decoder unit. -/
  levelField (l : Bit) : Byte := if l then 0x01#8 else 0x00#8

/-- The operand payload of an operation (R72, R73). -/
def Instr.payloadBytes : Instr → List Byte
  | .qdEdgeA _ _ => []
  | .qdEdgeB _ _ => []
  | .veTick _ => []
  | .pidSet _ t => patternBytes t
  | .pidTick _ => []
  | .kinSet v om => patternBytes v ++ patternBytes om
  | .kinGet => []
  | .stTick => []
  | .stSetDir d => [i8Byte d]
  | .actFwd _ duty => patternBytes duty
  | .actBwd _ duty => patternBytes duty
  | .actStop _ => []
  | .actHalt _ => []

/-- The record of an operation: its code byte, then its payload (R70). -/
def encode (i : Instr) : List Byte := i.codeByte :: i.payloadBytes

/-- The wheel operand of an operation, if it has one (R70, R71). -/
def Instr.wheel : Instr → Option Wheel
  | .qdEdgeA w _ => some w
  | .qdEdgeB w _ => some w
  | .veTick w => some w
  | .pidSet w _ => some w
  | .pidTick w => some w
  | .kinSet _ _ => none
  | .kinGet => none
  | .stTick => none
  | .stSetDir _ => none
  | .actFwd w _ => some w
  | .actBwd w _ => some w
  | .actStop w => some w
  | .actHalt w => some w

/-! ## For the host -/

/-- The bytes of an operation whose bits are `w`, numbered as spec/opcode_table.json numbers them (byte `k` is bits
`8k+7..8k`): bits from `nbits` up are 0, to the longest record's 17 bytes, cut to the record's length. -/
def tableWordBytes (nbits w : Nat) : List Byte :=
  let bytes := toLeBytes 17 (w % 2 ^ nbits)
  bytes.take (recordLength (bytes.headD 0#8))

/-- The operation the decoder reads from those bytes. -/
def decodeTableWord (nbits w : Nat) : Option Instr :=
  match decode (tableWordBytes nbits w) with
  | .record i _ => some i
  | .illegal _ _ => none
  | .incomplete => none

end Sys2Proof
end

