-- ==== Sys2Proof/Machine/Number.lean ====
section
/-! DEFINITION. The arithmetic of Num (00_scope.md R10): every operator is the exact operation on its operands followed
by ONE correct rounding (to nearest, ties to even) into the format the configuration's `NUM` names. -/

namespace Sys2Proof

/-! ## Formats -/

/-- Significand digits of a format (IEEE 754 table 3.5: PRESUMED, log entry 11; R73 gives binary64's 52 fraction bits). -/
def NumFormat.precision : NumFormat → Nat
  | .binary16 => 11
  | .binary32 => 24
  | .binary64 => 53
  | .binary128 => 113

/-- The largest exponent of a format: its finite numbers are below `2 ^ (maxExp + 1)`. -/
def NumFormat.maxExp : NumFormat → Nat
  | .binary16 => 15
  | .binary32 => 127
  | .binary64 => 1023
  | .binary128 => 16383

/-- The exponent of the format's smallest spacing: every finite number is a multiple of `2 ^ minQuantum`. -/
def NumFormat.minQuantum (f : NumFormat) : Int := 2 - (f.maxExp : Int) - (f.precision : Int)

/-! ## Rounding -/

/-- Take factors of 2 out of a significand, at most `fuel` of them. -/
def stripTwos : Nat → Nat → Int → Nat × Int
  | 0, m, e => (m, e)
  | fuel + 1, m, e => if m % 2 = 0 then stripTwos fuel (m / 2) (e + 1) else (m, e)

/-- The number `(-1)^neg * m * 2^e` in the one form the arithmetic uses: an odd significand, or `0 * 2^0`. -/
def Number.ofScaled (neg : Bool) (m : Nat) (e : Int) : Number :=
  if m = 0 then .fin neg 0 0
  else .fin neg (stripTwos m.log2 m e).1 (stripTwos m.log2 m e).2

/-- The exponent of `n / d`, for positive `n` and `d`: the `k` with `2^k ≤ n / d < 2^(k+1)`. -/
def ratioExponent (n d : Nat) : Int :=
  let k : Int := (n.log2 : Int) - (d.log2 : Int)
  if n * 2 ^ (-k).toNat < d * 2 ^ k.toNat then k - 1 else k

/-- The integer nearest to `n / d`, ties to the even one. -/
def roundTiesEven (n d : Nat) : Nat :=
  if 2 * (n % d) < d then n / d
  else if d < 2 * (n % d) then n / d + 1
  else if (n / d) % 2 = 0 then n / d
  else n / d + 1

/-- The exponent of the spacing of the format's numbers at a value of exponent `k`: the significand has `precision`
digits, fewer for subnormal numbers. -/
def NumFormat.quantum (f : NumFormat) (k : Int) : Int := max (k - ((f.precision : Int) - 1)) f.minQuantum

/-- The correctly rounded `(-1)^neg * n / d` (R10): the nearest number of the format, ties to even; a value that
rounds to an exponent above `maxExp` is infinite. -/
def Number.round (f : NumFormat) (neg : Bool) (n d : Nat) : Number :=
  if n = 0 then .fin neg 0 0
  else
    let q := f.quantum (ratioExponent n d)
    let m := roundTiesEven (n * 2 ^ (-q).toNat) (d * 2 ^ q.toNat)
    if m ≠ 0 ∧ (f.maxExp : Int) < (m.log2 : Int) + q then .inf neg
    else .ofScaled neg m q

/-- The correctly rounded `(-1)^neg * m * 2^e`. -/
def Number.roundScaled (f : NumFormat) (neg : Bool) (m : Nat) (e : Int) : Number :=
  .round f neg (m * 2 ^ e.toNat) (2 ^ (-e).toNat)

/-! ## Predicates and comparisons -/

/-- `isFinite(x)` (R10). -/
def Number.isFinite : Number → Bool
  | .fin _ _ _ => true
  | .inf _ => false
  | .nan => false

/-- `+0.0`. -/
def Number.zero : Number := .fin false 0 0
/-- `0.5`. -/
def Number.half : Number := .fin false 1 (-1)
/-- `1.0`. -/
def Number.one : Number := .fin false 1 0
/-- `-1.0`. -/
def Number.negOne : Number := .fin true 1 0

/-- `(-1)^neg * m` as an integer. -/
def signed (neg : Bool) (m : Nat) : Int := if neg then -(m : Int) else m

/-- `(-1)^neg * m * 2^e` counted in units of `2 ^ min e f`. -/
def signedAt (neg : Bool) (m : Nat) (e f : Int) : Int := signed neg (m * 2 ^ (e - f).toNat)

/-- IEEE `<` (R10): false with a NaN. -/
def Number.lt : Number → Number → Bool
  | .fin a m e, .fin b n f => decide (signedAt a m e f < signedAt b n f e)
  | .fin _ _ _, .inf b => !b
  | .inf a, .fin _ _ _ => a
  | .inf a, .inf b => a && !b
  | .nan, _ => false
  | .fin _ _ _, .nan => false
  | .inf _, .nan => false

/-- IEEE `==` (R10): `-0.0 == 0.0`; false with a NaN. -/
def Number.eq : Number → Number → Bool
  | .fin a m e, .fin b n f => decide (signedAt a m e f = signedAt b n f e)
  | .inf a, .inf b => a == b
  | .fin _ _ _, .inf _ => false
  | .inf _, .fin _ _ _ => false
  | .nan, _ => false
  | .fin _ _ _, .nan => false
  | .inf _, .nan => false

/-- IEEE `<=` (R10). -/
def Number.le (x y : Number) : Bool := x.lt y || x.eq y

/-- IEEE `!=` (R10): true with a NaN. -/
def Number.ne (x y : Number) : Bool := !x.eq y

/-! ## Operators -/

/-- Negation, exact. -/
def Number.neg : Number → Number
  | .fin a m e => .fin (!a) m e
  | .inf a => .inf (!a)
  | .nan => .nan

/-- `x + y` (R10). An exact zero sum is `+0.0`, but `-0.0` for two negative zeros (IEEE 754 6.3: PRESUMED,
log entry 11). -/
def Number.add (f : NumFormat) : Number → Number → Number
  | .fin a m e, .fin b n g =>
    let s := signedAt a m e g + signedAt b n g e
    if s = 0 then .fin (a && b) 0 0 else .roundScaled f (decide (s < 0)) s.natAbs (min e g)
  | .fin _ _ _, .inf b => .inf b
  | .inf a, .fin _ _ _ => .inf a
  | .inf a, .inf b => if a = b then .inf a else .nan
  | .nan, _ => .nan
  | .fin _ _ _, .nan => .nan
  | .inf _, .nan => .nan

/-- `x - y` (R10). -/
def Number.sub (f : NumFormat) (x y : Number) : Number := Number.add f x y.neg

/-- `x × y` (R10). Zero times an infinity is a NaN. -/
def Number.mul (f : NumFormat) : Number → Number → Number
  | .fin a m e, .fin b n g => .roundScaled f (a ^^ b) (m * n) (e + g)
  | .fin a m _, .inf b => if m = 0 then .nan else .inf (a ^^ b)
  | .inf a, .fin b n _ => if n = 0 then .nan else .inf (a ^^ b)
  | .inf a, .inf b => .inf (a ^^ b)
  | .nan, _ => .nan
  | .fin _ _ _, .nan => .nan
  | .inf _, .nan => .nan

/-- `x / y` (R10). A nonzero number by zero is an infinity, zero by zero a NaN. -/
def Number.div (f : NumFormat) : Number → Number → Number
  | .fin a m e, .fin b n g =>
    if n = 0 then (if m = 0 then .nan else .inf (a ^^ b))
    else .round f (a ^^ b) (m * 2 ^ (e - g).toNat) (n * 2 ^ (g - e).toNat)
  | .fin a _ _, .inf b => .fin (a ^^ b) 0 0
  | .inf a, .fin b _ _ => .inf (a ^^ b)
  | .inf _, .inf _ => .nan
  | .nan, _ => .nan
  | .fin _ _ _, .nan => .nan
  | .inf _, .nan => .nan

/-- `toNum(i)` (R10): the Num nearest to an integer. -/
def Number.ofInt (f : NumFormat) (i : Int) : Number := .round f (decide (i < 0)) i.natAbs 1

/-- `TWO_PI` (R10): the number of the format nearest to 2π, rounded from the first 259 binary digits of 2π
(their value is PRESUMED, log entry 11; binary64's is the rule's `0x1.921fb54442d18p+2`). -/
def Number.twoPi (f : NumFormat) : Number :=
  .round f false 0x6487ed5110b4611a62633145c06e0e68948127044533e63a0105df531d89cd912 (2 ^ 256)

/-- The same number in the format `f`: what reading a Num of a wider format gives (log entry 5). -/
def Number.convert (f : NumFormat) : Number → Number
  | .fin a m e => .roundScaled f a m e
  | .inf a => .inf a
  | .nan => .nan

/-! ## The binary64 pattern of an operand -/

/-- A 64-bit pattern read as IEEE 754 binary64 (R73): bit 63 the sign, bits 62..52 the biased exponent, bits 51..0
the fraction. Every pattern has a value. -/
def Number.ofPattern (p : BitVec 64) : Number :=
  let neg := p.getLsbD 63
  let ex : Nat := p.toNat / 2 ^ 52 % 2 ^ 11
  let frac : Nat := p.toNat % 2 ^ 52
  if ex = 2047 then (if frac = 0 then .inf neg else .nan)
  else if ex = 0 then .ofScaled neg frac (-1074)
  else .ofScaled neg (2 ^ 52 + frac) ((ex : Int) - 1075)

/-- The binary64 pattern of a number of that format, the inverse reading (R73). A NaN's pattern is the quiet NaN of
95_test_vectors.md. -/
def Number.toPattern : Number → BitVec 64
  | .fin neg m e =>
    let sign : Nat := if neg then 2 ^ 63 else 0
    let k : Int := (m.log2 : Int) + e
    if m = 0 then BitVec.ofNat 64 sign
    else if k < -1022 then BitVec.ofNat 64 (sign + m * 2 ^ (e + 1074).toNat)
    else BitVec.ofNat 64 (sign + (k + 1023).toNat * 2 ^ 52 + (m * 2 ^ (52 - m.log2) - 2 ^ 52))
  | .inf neg => if neg then 0xfff0000000000000#64 else 0x7ff0000000000000#64
  | .nan => 0x7ff8000000000000#64

/-! ## Membership of a format, and the exact value -/

/-- Whether a number is one of the format's, written in the one form the arithmetic uses. -/
def Number.inFormat (f : NumFormat) : Number → Bool
  | .fin _ m e =>
    (decide (m = 0) && decide (e = 0)) ||
    (decide (m % 2 = 1) && decide (m < 2 ^ f.precision) && decide (f.minQuantum ≤ e) &&
      decide ((m.log2 : Int) + e ≤ f.maxExp))
  | .inf _ => true
  | .nan => true

/-- The exact value of a finite number. -/
def Number.toRat : Number → ℚ
  | .fin neg m e => (if neg then -1 else 1) * (m : ℚ) * (2 : ℚ) ^ e
  | .inf _ => 0
  | .nan => 0

/-- The exponent of a finite number's last digit in the one form the arithmetic uses: of two neighbours in a format,
the even one's is the larger. -/
def Number.lastExponent : Number → Int
  | .fin _ _ e => e
  | .inf _ => 0
  | .nan => 0

end Sys2Proof
end

