-- ==== Sys2Proof/Machine/Configuration.lean ====
section
/-! DEFINITION. The constraints on a configuration (00_scope.md R6, R7) and the constants derived from it
(10_state.md R41). -/

namespace Sys2Proof

/-- A parameter "finite, > 0" (R6), of the type Num. -/
def Config.positive (c : Config) (x : Number) : Bool := x.inFormat c.num && x.isFinite && Number.zero.lt x

/-- A parameter "finite" (R6), of the type Num. -/
def Config.finite (c : Config) (x : Number) : Bool := x.inFormat c.num && x.isFinite

/-- The constraints of R6, in the table's order; a configuration that violates one is refused (R7).
That a Num parameter is a number of the format `NUM` names is its type (DEDUCED, log entry 4). -/
def Config.valid (c : Config) : Bool :=
  c.positive c.cpr && c.positive c.gearRatio && c.positive c.period && c.positive c.wheelRadius &&
  c.finite c.kp && c.finite c.ki && c.finite c.kd && decide (1 ≤ c.regVelFreq) &&
  c.positive c.wheelSep && c.positive c.pulseWidthUs && c.positive c.telemetryFreq && decide (2 ≤ c.tickBits)

/-- `TICK_MIN` (R22, R41). -/
def Config.tickMin (c : Config) : Int := -((2 ^ (c.tickBits - 1) : Nat) : Int)

/-- `TICK_MAX` (R22, R41). -/
def Config.tickMax (c : Config) : Int := ((2 ^ (c.tickBits - 1) : Nat) : Int) - 1

/-- Whether a count would leave the tick counter's range (R22). -/
def Config.outOfTickRange (c : Config) (n : Int) : Bool := decide (n < c.tickMin) || decide (c.tickMax < n)

/-- `REG_PERIOD`, seconds (R41); no rule reads it (R269). -/
def Config.regPeriod (c : Config) : ℚ := 1 / (c.regVelFreq : ℚ)

/-- `STEP_FREQ`, Hz, a real quotient (R41, R190); no rule reads it (R269). -/
def Config.stepFreq (c : Config) : ℚ := 1000000 / (2 * c.pulseWidthUs.toRat)

/-- `VEL_PROBE_FREQ`, Hz (R41); no rule reads it (R269). -/
def Config.velProbeFreq (c : Config) : ℚ := 1 / c.period.toRat

end Sys2Proof
end

