-- ==== Sys2Proof/Machine/State.lean ====
section
/-! DEFINITION. The state of the block (10_state.md R21), the reasons a step can stop, and the state after reset
(70_reset_and_hazards.md R260). The block has no register file, program counter or memory (R20, R50). -/

namespace Sys2Proof.Machine

/-! ## The units -/

/-- Two identical, independent banks, one per wheel (R42). -/
structure PerWheel (α : Type) where
  left : α
  right : α
  deriving DecidableEq, Repr

/-- `QD[w]`, a quadrature decoder (R22, R23). -/
structure Qd where
  /-- The signed tick counter. -/
  ticks : Int
  /-- Channel A's last-known level. -/
  lastA : Bit
  /-- Channel B's last-known level. -/
  lastB : Bit
  deriving DecidableEq, Repr

/-- `VE[w]`, a velocity estimator (R24, R25). -/
structure Ve where
  /-- The tick counter at the last estimation. -/
  prev : Int
  /-- Angular velocity, rad/s. -/
  ang : Number
  /-- Linear velocity, m/s. -/
  lin : Number
  deriving DecidableEq, Repr

/-- `PID[w]`, a velocity regulator (R26 to R30). -/
structure Pid where
  /-- Target linear velocity, m/s. -/
  target : Number
  /-- The previous error. -/
  prevErr : Number
  /-- The cumulative error. -/
  integral : Number
  /-- The accumulated output duty. -/
  duty : Number
  /-- REGULATING cycles since the target changed. -/
  cycles : Nat
  deriving DecidableEq, Repr

/-- `ACT[w]`, an Actuator's outputs (R34). -/
structure Act where
  /-- The forward-direction output, `true` asserted. -/
  dirF : Bit
  /-- The backward-direction output, `true` asserted. -/
  dirB : Bit
  /-- The PWM channel's duty. -/
  pwm : Number
  deriving DecidableEq, Repr

/-- `KIN`, the kinematics unit's cache (R35). -/
structure Kin where
  /-- Left measured linear velocity. -/
  lm : Number
  /-- Right measured linear velocity. -/
  rm : Number
  /-- Robot-frame linear velocity. -/
  v : Number
  /-- Robot-frame angular velocity. -/
  om : Number
  deriving DecidableEq, Repr

/-- The stepper's direction, the spec's `Dir` (R8, R36). -/
inductive Dir where
  | rev
  | idle
  | fwd
  deriving DecidableEq, Repr

/-- `ST`, the stepper sequencer (R36 to R39). -/
structure St where
  dir : Dir
  enabled : Bool
  /-- The half-step position. -/
  pos : Int
  /-- The step output's level. -/
  stepOut : Bit
  /-- The direction line's level. -/
  dirLine : Bit
  /-- The enable line, `true` asserted. -/
  enLine : Bit
  deriving DecidableEq, Repr

/-- The causes `FAULT.cause` holds (R40, R230). -/
inductive Cause where
  | none
  /-- `CV_DUTY` (1), raised by ACT.FWD and ACT.BWD (R231). -/
  | cvDuty
  /-- `CV_DIRECTION` (2), raised by ST.SETDIR (R232). -/
  | cvDirection
  /-- `TICK_RANGE` (3), raised by QD.EDGEA and QD.EDGEB (R235). -/
  | tickRange
  /-- `NON_FINITE` (4), raised by PID.SET, PID.TICK, KIN.SET, KIN.GET and VE.TICK (R233). -/
  | nonFinite
  /-- `ILLEGAL_OP` (5), raised by a reserved code byte (R234). -/
  | illegalOp
  deriving DecidableEq, Repr

/-- The fault register `FAULT` (R40). -/
structure FaultReg where
  cause : Cause
  /-- The faulting record's code byte and operand bytes; empty when there is no fault. -/
  info : List Byte
  deriving DecidableEq, Repr

/-! ## The agents, which act from outside the block (00_scope.md R14) -/

/-- The agents of R14. -/
inductive Agent where
  /-- The edge interrupt of a wheel's channel. -/
  | edge (w : Wheel) (ch : Chan)
  /-- A wheel's estimation timer. -/
  | estimation (w : Wheel)
  /-- A wheel's regulation timer. -/
  | regulation (w : Wheel)
  /-- The stepper timer. -/
  | stepper
  /-- The command path. -/
  | command
  /-- The telemetry sampler. -/
  | telemetry
  deriving DecidableEq, Repr

/-- What comes next (R56): an agent's turn to issue its next record, or a reset (R260). DESIGN CHOICE, log entries 2
and 9. -/
inductive Event where
  | turn (a : Agent)
  | reset
  deriving DecidableEq, Repr

/-- What arrives from outside during a run (R14, R56, R260): an agent issues more of its record stream and gets a turn,
or a reset comes. DESIGN CHOICE, log entry 2. -/
inductive Input where
  | issue (a : Agent) (bytes : List Byte)
  | reset
  deriving DecidableEq, Repr

/-- Each agent's record stream, as far as the block has not performed it (30_encoding.md R79). -/
structure Streams where
  edgeA : PerWheel (List Byte)
  edgeB : PerWheel (List Byte)
  estimation : PerWheel (List Byte)
  regulation : PerWheel (List Byte)
  stepper : List Byte
  command : List Byte
  telemetry : List Byte
  deriving DecidableEq, Repr

/-! ## The state -/

/-- The state: the record of R21, and the model's own account of what is outside the block. -/
structure State where
  qd : PerWheel Qd
  ve : PerWheel Ve
  pid : PerWheel Pid
  act : PerWheel Act
  kin : Kin
  st : St
  fault : FaultReg
  /-- The configuration (R41), which nothing writes. -/
  cfg : Config
  /-- The model's own: the records the agents have yet to issue (R79). -/
  streams : Streams
  /-- The model's own: who moves next, and when a reset arrives (R56, R260). -/
  schedule : List Event
  /-- The model's own: the values KIN.GET has returned to its issuers, oldest first (R12, R15). -/
  returned : List (Number × Number)
  deriving DecidableEq, Repr

/-! ## Why a step can stop -/

/-- The reasons the machine stops with a fault. -/
inductive Fault where
  /-- `FAULT.cause` is not `NONE`, so no operation has a step until a reset (60_exceptions.md R236).
  Raised by every meaning through `perform`, and by `fetch`.
  Safe: the spec gives no step here. -/
  | stuck
  deriving DecidableEq, Repr

/-- The reasons the model refuses. -/
inductive Refusal where
  /-- The instruction has no meaning in the model yet; only exec's arms say so.
  Safe: the model stops where the hardware goes on. -/
  | notModelled (mnemonic : String)
  /-- The configuration violates a constraint of R6, and "the model has no machine for it" (00_scope.md R7).
  Raised by every meaning through `perform`, and by `fetch`.
  Safe: the spec refuses such a configuration. -/
  | badConfiguration
  deriving DecidableEq, Repr

/-! ## Reset -/

/-- `+0.0`, the reset value of every Num field. -/
def numReset : Number := .fin false 0 0

/-- QD's reset value (R22, R23). -/
def Qd.reset : Qd := { ticks := 0, lastA := false, lastB := false }

/-- VE's reset value (R24, R25). -/
def Ve.reset : Ve := { prev := 0, ang := numReset, lin := numReset }

/-- PID's reset value (R26 to R30). -/
def Pid.reset : Pid :=
  { target := numReset, prevErr := numReset, integral := numReset, duty := numReset, cycles := 0 }

/-- ACT's reset value (R34). -/
def Act.reset : Act := { dirF := false, dirB := false, pwm := numReset }

/-- KIN's reset value (R35). -/
def Kin.reset : Kin := { lm := numReset, rm := numReset, v := numReset, om := numReset }

/-- ST's reset value (R36 to R39). -/
def St.reset : St :=
  { dir := .idle, enabled := false, pos := 0, stepOut := false, dirLine := false, enLine := false }

/-- FAULT's reset value (R40). -/
def FaultReg.reset : FaultReg := { cause := .none, info := [] }

/-- No agent has a record to issue. -/
def Streams.empty : Streams :=
  { edgeA := ⟨[], []⟩, edgeB := ⟨[], []⟩, estimation := ⟨[], []⟩, regulation := ⟨[], []⟩,
    stepper := [], command := [], telemetry := [] }

/-- The block with configuration `cfg` right after reset (R260), with nothing scheduled. -/
def State.resetWith (cfg : Config) : State :=
  { qd := ⟨.reset, .reset⟩, ve := ⟨.reset, .reset⟩, pid := ⟨.reset, .reset⟩, act := ⟨.reset, .reset⟩,
    kin := .reset, st := .reset, fault := .reset, cfg := cfg,
    streams := .empty, schedule := [], returned := [] }

/-- The machine right after reset: instantiated with CFG-A (DESIGN CHOICE, log entry 1) and with no agent's record
or turn placed (DESIGN CHOICE, log entry 2). -/
def State.reset : State := .resetWith .cfgA

end Sys2Proof.Machine
end

