-- ==== Sys2Proof/Machine/Ops.lean ====
section
/-! DEFINITION. The named operations over the state: reading and writing a unit's fields, raising a fault, performing
an operation, and reset. -/

namespace Sys2Proof.Machine

/-! ## Reading and writing the banks -/

/-- The bank of a wheel (R42). -/
def PerWheel.get {α : Type} (p : PerWheel α) : Wheel → α
  | .left => p.left
  | .right => p.right

/-- Write the bank of a wheel; the other wheel's stays (R42). -/
def PerWheel.set {α : Type} (p : PerWheel α) (w : Wheel) (x : α) : PerWheel α :=
  match w with
  | .left => { p with left := x }
  | .right => { p with right := x }

/-- Write `QD[w]`. -/
def State.setQd (s : State) (w : Wheel) (x : Qd) : State := { s with qd := s.qd.set w x }

/-- Write `VE[w]`. -/
def State.setVe (s : State) (w : Wheel) (x : Ve) : State := { s with ve := s.ve.set w x }

/-- Write `PID[w]`. -/
def State.setPid (s : State) (w : Wheel) (x : Pid) : State := { s with pid := s.pid.set w x }

/-- Write `ACT[w]`. -/
def State.setAct (s : State) (w : Wheel) (x : Act) : State := { s with act := s.act.set w x }

/-- Write `KIN`. -/
def State.setKin (s : State) (x : Kin) : State := { s with kin := x }

/-- Write `ST`. -/
def State.setSt (s : State) (x : St) : State := { s with st := x }

/-- Write `FAULT`. -/
def State.setFault (s : State) (x : FaultReg) : State := { s with fault := x }

/-- `return (v, om)` (R12): give a result to the agent that issued the operation. -/
def State.giveResult (s : State) (v om : Number) : State := { s with returned := s.returned ++ [(v, om)] }

/-! ## Raising a fault, which is the block's only exception entry -/

/-- `raise F(info)` (R12, R230): record the cause with the record's code byte and operand bytes, and change nothing
else. -/
def State.raise (s : State) (c : Cause) (record : List Byte) : State := s.setFault { cause := c, info := record }

/-- The number of a cause (R40, R230). -/
def Cause.code : Cause → Nat
  | .none => 0
  | .cvDuty => 1
  | .cvDirection => 2
  | .tickRange => 3
  | .nonFinite => 4
  | .illegalOp => 5

/-! ## Performing an operation -/

/-- What must hold before any operation has a step: a configuration the model has a machine for (R7), and no fault
in the fault register (R13 point 1, R236). -/
def guarded (s : State) (o : Host.Outcome State Fault Refusal) : Host.Outcome State Fault Refusal :=
  if s.cfg.valid then (if s.fault.cause = .none then o else .fault .stuck)
  else .refused .badConfiguration

/-- Perform an operation (R13): its pseudocode answers the state with all its writes, or the cause it raises, and
then every write it made is discarded (R12, R54). -/
def perform (i : Instr) (body : Except Cause State) (s : State) : Host.Outcome State Fault Refusal :=
  guarded s (match body with
    | .ok t => .next t
    | .error c => .next (s.raise c (encode i)))

/-- Perform a record whose code byte is reserved (R77, R234). -/
def performIllegal (op : Byte) (s : State) : Host.Outcome State Fault Refusal :=
  guarded s (.next (s.raise .illegalOp [op]))

/-! ## Reset, which is the only way out of a fault -/

/-- A reset while the block runs (R260): every field of R21 takes its reset value, the fault register is cleared and
`cfg` stays. The agents' records and turns and the values already returned lie outside the block and stay (DESIGN
CHOICE, log entry 9). -/
def State.resetEvent (s : State) : State :=
  { State.resetWith s.cfg with streams := s.streams, schedule := s.schedule, returned := s.returned }

end Sys2Proof.Machine
end

