-- ==== Sys2Proof/Machine/Operands.lean ====
section
/-! DEFINITION. The operand forms (30_encoding.md R72, R73): wheel and level are fields of the code byte and stand in
Instr already; here are the Num operand and the direction operand. -/

namespace Sys2Proof.Machine

/-- A Num operand (R73): the binary64 value of its pattern, as a number of the format `NUM` names.
Under `NUM = binary64` the conversion changes nothing.
DESIGN CHOICE (log entry 5): under another format the value is rounded into it. Unsafe for such a `NUM`. -/
def State.numOperand (s : State) (p : Pattern) : Number := Number.convert s.cfg.num (Number.ofPattern p)

/-- A direction operand (R195): 0 is IDLE, 1 FWD, -1 REV, and every other value has no direction. -/
def directionOperand (d : Int) : Option Dir :=
  if d = 0 then some .idle
  else if d = 1 then some .fwd
  else if d = -1 then some .rev
  else none

end Sys2Proof.Machine
end

