-- ==== Sys2Proof/Machine/Flags.lean ====
section
/-! DEFINITION. The block has no condition codes (10_state.md R32, R33): its status is these predicates of the state.
No operation writes a flag as a side effect. -/

namespace Sys2Proof.Machine

/-- `STOPPED(w)` (R32): the target is zero, or the loop has run more than REG_VEL_FREQ cycles since it changed. -/
def State.stopped (s : State) (w : Wheel) : Bool :=
  (s.pid.get w).target.eq .zero || decide (s.cfg.regVelFreq < (s.pid.get w).cycles)

/-- `REGULATING(w)` (R32). -/
def State.regulating (s : State) (w : Wheel) : Bool := !s.stopped w

/-- The fault-present predicate (R33, R40). -/
def State.faultPresent (s : State) : Bool := s.fault.cause != .none

end Sys2Proof.Machine
end

