-- ==== Sys2Proof/Machine/Actuator.lean ====
section
/-! DEFINITION. The Actuator interface (45_actuator_interface.md): ACT.FWD, ACT.BWD, ACT.STOP, ACT.HALT, and the
operations the regulator performs inside its own step. -/

namespace Sys2Proof.Machine

/-- The duty contract (R210): `0.0 <= duty and duty <= 1.0`. -/
def dutyInRange (duty : Number) : Bool := Number.zero.le duty && duty.le .one

/-- `forward(duty)` on wheel `w` (R211). -/
def actForward (w : Wheel) (duty : Number) (s : State) : Except Cause State :=
  if dutyInRange duty then .ok (s.setAct w { dirF := true, dirB := false, pwm := duty })
  else .error .cvDuty

/-- `backward(duty)` on wheel `w` (R212). -/
def actBackward (w : Wheel) (duty : Number) (s : State) : Except Cause State :=
  if dutyInRange duty then .ok (s.setAct w { dirF := false, dirB := true, pwm := duty })
  else .error .cvDuty

/-- `stop()` on wheel `w` (R213): the direction pair is not written. -/
def actStop (w : Wheel) (s : State) : State := s.setAct w { s.act.get w with pwm := .zero }

/-- `halt()` on wheel `w` (R214): the duty is not written. -/
def actHalt (w : Wheel) (s : State) : State := s.setAct w { s.act.get w with dirF := false, dirB := false }

/-- ACT.FWD (R211). -/
def execActFwd (w : Wheel) (duty : Pattern) (s : State) : Host.Outcome State Fault Refusal :=
  perform (.actFwd w duty) (actForward w (s.numOperand duty) s) s

/-- ACT.BWD (R212). -/
def execActBwd (w : Wheel) (duty : Pattern) (s : State) : Host.Outcome State Fault Refusal :=
  perform (.actBwd w duty) (actBackward w (s.numOperand duty) s) s

/-- ACT.STOP (R213). -/
def execActStop (w : Wheel) (s : State) : Host.Outcome State Fault Refusal :=
  perform (.actStop w) (.ok (actStop w s)) s

/-- ACT.HALT (R214). -/
def execActHalt (w : Wheel) (s : State) : Host.Outcome State Fault Refusal :=
  perform (.actHalt w) (.ok (actHalt w s)) s

end Sys2Proof.Machine
end

