-- ==== Sys2Proof/Machine/Regulator.lean ====
section
/-! DEFINITION. The PID velocity regulator unit (42_pid_velocity_regulator.md): PID.SET and PID.TICK. -/

namespace Sys2Proof.Machine

/-! ## PID.SET -/

/-- The pseudocode of R141. -/
def setTarget (w : Wheel) (t : Number) (s : State) : Except Cause State :=
  if !t.isFinite then .error .nonFinite
  else if t.ne (s.pid.get w).target then
    .ok (s.setPid w { s.pid.get w with target := t, integral := .zero, cycles := 0 })
  else .ok s

/-- PID.SET (R141). -/
def execPidSet (w : Wheel) (t : Pattern) (s : State) : Host.Outcome State Fault Refusal :=
  perform (.pidSet w t) (setTarget w (s.numOperand t) s) s

/-! ## The REGULATING cycle (R145), one definition per line of its pseudocode -/

/-- `e <- PID[w].target - m`, with `m` the latest measured linear velocity. -/
def pidError (s : State) (w : Wheel) : Number := .sub s.cfg.num (s.pid.get w).target (s.ve.get w).lin

/-- `I <- PID[w].integral + e`. -/
def pidIntegral (s : State) (w : Wheel) : Number := .add s.cfg.num (s.pid.get w).integral (pidError s w)

/-- `der <- e - PID[w].prevErr`. -/
def pidDerivative (s : State) (w : Wheel) : Number := .sub s.cfg.num (pidError s w) (s.pid.get w).prevErr

/-- `inc <- ((KP × e) + (KI × I)) + (KD × der)`. -/
def pidIncrement (s : State) (w : Wheel) : Number :=
  .add s.cfg.num
    (.add s.cfg.num (.mul s.cfg.num s.cfg.kp (pidError s w)) (.mul s.cfg.num s.cfg.ki (pidIntegral s w)))
    (.mul s.cfg.num s.cfg.kd (pidDerivative s w))

/-- `u <- PID[w].duty + inc`, before saturation. -/
def pidRawDuty (s : State) (w : Wheel) : Number := .add s.cfg.num (s.pid.get w).duty (pidIncrement s w)

/-- "saturate duty to [-1, +1]". -/
def saturate (u : Number) : Number :=
  if Number.one.lt u then .one
  else if u.lt .negOne then .negOne
  else u

/-- The finiteness check: no intermediate is infinite or a NaN. -/
def pidAllFinite (s : State) (w : Wheel) : Bool :=
  (pidError s w).isFinite && (pidIntegral s w).isFinite && (pidDerivative s w).isFinite &&
  (pidIncrement s w).isFinite && (pidRawDuty s w).isFinite

/-- The Actuator call: "duty > 0 → forward(duty)", "duty < 0 → backward(-duty)", "duty == 0 → stop()". -/
def driveActuator (w : Wheel) (u : Number) (s : State) : Except Cause State :=
  if Number.zero.lt u then actForward w u s
  else if u.lt .zero then actBackward w u.neg s
  else .ok (actStop w s)

/-- A REGULATING cycle (R145). -/
def regulate (w : Wheel) (s : State) : Except Cause State :=
  if pidAllFinite s w then
    let u := saturate (pidRawDuty s w)
    driveActuator w u
      (s.setPid w { s.pid.get w with
        prevErr := pidError s w, integral := pidIntegral s w, duty := u, cycles := (s.pid.get w).cycles + 1 })
  else .error .nonFinite

/-! ## PID.TICK -/

/-- The pseudocode of R143; a STOPPED cycle performs `stop()` and writes no PID field (R144). -/
def pidCycle (w : Wheel) (s : State) : Except Cause State :=
  if s.stopped w then .ok (actStop w s) else regulate w s

/-- PID.TICK (R143). -/
def execPidTick (w : Wheel) (s : State) : Host.Outcome State Fault Refusal :=
  perform (.pidTick w) (pidCycle w s) s

end Sys2Proof.Machine
end

