-- ==== Sys2Proof/Machine/Kinematics.lean ====
section
/-! DEFINITION. The differential-drive kinematics unit (43_differential_drive_kinematics.md): KIN.SET and KIN.GET. -/

namespace Sys2Proof.Machine

/-- `(0.5 × om) × WHEEL_SEP` (R171, R11). -/
def halfSpin (c : Config) (om : Number) : Number := .mul c.num (.mul c.num .half om) c.wheelSep

/-- `left <- v - 0.5 × om × WHEEL_SEP` (R171). -/
def leftTarget (c : Config) (v om : Number) : Number := .sub c.num v (halfSpin c om)

/-- `right <- v + 0.5 × om × WHEEL_SEP` (R171). -/
def rightTarget (c : Config) (v om : Number) : Number := .add c.num v (halfSpin c om)

/-- The pseudocode of R171: both checks, then PID.SET's pseudocode for each wheel. -/
def setVelocities (v om : Number) (s : State) : Except Cause State :=
  if v.isFinite && om.isFinite then
    if (leftTarget s.cfg v om).isFinite && (rightTarget s.cfg v om).isFinite then
      match setTarget .left (leftTarget s.cfg v om) s with
      | .ok t => setTarget .right (rightTarget s.cfg v om) t
      | .error c => .error c
    else .error .nonFinite
  else .error .nonFinite

/-- KIN.SET (R171). -/
def execKinSet (v om : Pattern) (s : State) : Host.Outcome State Fault Refusal :=
  perform (.kinSet v om) (setVelocities (s.numOperand v) (s.numOperand om) s) s

/-- `v <- 0.5 × (lm + rm)` (R172). -/
def measuredLinear (c : Config) (lm rm : Number) : Number := .mul c.num .half (.add c.num lm rm)

/-- `om <- (rm - lm) / WHEEL_SEP` (R172). -/
def measuredAngular (c : Config) (lm rm : Number) : Number := .div c.num (.sub c.num rm lm) c.wheelSep

/-- The pseudocode of R172. -/
def getVelocities (s : State) : Except Cause State :=
  let lm := (s.ve.get .left).lin
  let rm := (s.ve.get .right).lin
  let v := measuredLinear s.cfg lm rm
  let om := measuredAngular s.cfg lm rm
  if v.isFinite && om.isFinite then .ok ((s.setKin { lm := lm, rm := rm, v := v, om := om }).giveResult v om)
  else .error .nonFinite

/-- KIN.GET (R172). -/
def execKinGet (s : State) : Host.Outcome State Fault Refusal :=
  perform .kinGet (getVelocities s) s

end Sys2Proof.Machine
end

