-- ==== Sys2Proof/Machine/Quadrature.lean ====
section
/-! DEFINITION. The quadrature decoder unit (40_quadrature_decoder.md): QD.EDGEA and QD.EDGEB. -/

namespace Sys2Proof.Machine

/-- The transition table (R100): the count delta of an edge, from its channel, the new level read from it, and the
other channel's last-known level. -/
def qdelta : Chan → Bit → Bit → Int
  | .chanA, true, false => 1
  | .chanA, true, true => -1
  | .chanA, false, false => -1
  | .chanA, false, true => 1
  | .chanB, true, false => -1
  | .chanB, true, true => 1
  | .chanB, false, false => 1
  | .chanB, false, true => -1

/-- The count after a channel-A edge to level `a` (R102). -/
def countA (q : Qd) (a : Bit) : Int := q.ticks + qdelta .chanA a q.lastB

/-- The count after a channel-B edge to level `b` (R103). -/
def countB (q : Qd) (b : Bit) : Int := q.ticks + qdelta .chanB b q.lastA

/-- The pseudocode of R102. -/
def edgeA (w : Wheel) (a : Bit) (s : State) : Except Cause State :=
  if s.cfg.outOfTickRange (countA (s.qd.get w) a) then .error .tickRange
  else .ok (s.setQd w { s.qd.get w with ticks := countA (s.qd.get w) a, lastA := a })

/-- The pseudocode of R103. -/
def edgeB (w : Wheel) (b : Bit) (s : State) : Except Cause State :=
  if s.cfg.outOfTickRange (countB (s.qd.get w) b) then .error .tickRange
  else .ok (s.setQd w { s.qd.get w with ticks := countB (s.qd.get w) b, lastB := b })

/-- QD.EDGEA (R102). -/
def execQdEdgeA (w : Wheel) (a : Bit) (s : State) : Host.Outcome State Fault Refusal :=
  perform (.qdEdgeA w a) (edgeA w a s) s

/-- QD.EDGEB (R103). -/
def execQdEdgeB (w : Wheel) (b : Bit) (s : State) : Host.Outcome State Fault Refusal :=
  perform (.qdEdgeB w b) (edgeB w b s) s

end Sys2Proof.Machine
end

