-- ==== Sys2Proof/Machine/Stepper.lean ====
section
/-! DEFINITION. The oscillating stepper sequencer unit (44_oscillating_stepper_sequencer.md): ST.TICK and ST.SETDIR. -/

namespace Sys2Proof.Machine

/-- Toggle the step output and move the position by one half-step (R191). -/
def halfStep (t : St) (d : Int) : St := { t with stepOut := !t.stepOut, pos := t.pos + d }

/-- The pseudocode of R191: IDLE counts as not-reverse (R193), and the bound is tested before the move (R192). -/
def stepperTick (c : Config) (t : St) : St :=
  if t.dir = .rev ∧ -(c.limit : Int) ≤ t.pos then halfStep t (-1)
  else if t.dir ≠ .rev ∧ t.pos ≤ (c.limit : Int) then halfStep t 1
  else t

/-- ST.TICK (R191). -/
def execStTick (s : State) : Host.Outcome State Fault Refusal :=
  perform .stTick (.ok (s.setSt (stepperTick s.cfg s.st))) s

/-- The writes of R195 for a direction: IDLE powers the driver down and leaves the direction line. -/
def setDirection (c : Config) (d : Dir) (t : St) : St :=
  match d with
  | .idle => { t with dir := .idle, enabled := false, enLine := false }
  | .fwd => { t with dir := .fwd, enabled := true, enLine := true, dirLine := c.dirLevelFwd }
  | .rev => { t with dir := .rev, enabled := true, enLine := true, dirLine := !c.dirLevelFwd }

/-- The pseudocode of R195. -/
def setStepper (d : Int) (s : State) : Except Cause State :=
  match directionOperand d with
  | some dir => .ok (s.setSt (setDirection s.cfg dir s.st))
  | none => .error .cvDirection

/-- ST.SETDIR (R195). -/
def execStSetDir (d : Int) (s : State) : Host.Outcome State Fault Refusal :=
  perform (.stSetDir d) (setStepper d s) s

end Sys2Proof.Machine
end

