-- ==== Sys2Proof/Machine/Velocity.lean ====
section
/-! DEFINITION. The velocity estimator unit (41_velocity_estimator.md): VE.TICK. -/

namespace Sys2Proof.Machine

/-- `CPR × GEAR_RATIO`, one rounded product (R121). -/
def ticksPerRevolution (c : Config) : Number := .mul c.num c.cpr c.gearRatio

/-- `((toNum(delta) / (CPR × GEAR_RATIO)) × TWO_PI) / P` (R121). -/
def angularVelocity (c : Config) (delta : Int) : Number :=
  .div c.num
    (.mul c.num (.div c.num (.ofInt c.num delta) (ticksPerRevolution c)) (.twoPi c.num))
    c.period

/-- `ang × WHEEL_RADIUS` (R121). -/
def linearVelocity (c : Config) (ang : Number) : Number := .mul c.num ang c.wheelRadius

/-- The ticks since the last estimation, exactly (R121, R9). -/
def tickDelta (s : State) (w : Wheel) : Int := (s.qd.get w).ticks - (s.ve.get w).prev

/-- The finiteness check: no intermediate is infinite or a NaN (60_exceptions.md R233).
Log entry 16 (DEDUCED, unsafe): R121's pseudocode tests ang and lin only. Every other intermediate that is not finite
makes ang not finite, except an infinite `CPR × GEAR_RATIO`, which would make it a zero; R233 raises there too. -/
def estimateAllFinite (c : Config) (delta : Int) : Bool :=
  (ticksPerRevolution c).isFinite && (angularVelocity c delta).isFinite &&
  (linearVelocity c (angularVelocity c delta)).isFinite

/-- The pseudocode of R121, with the check of R233. -/
def estimate (w : Wheel) (s : State) : Except Cause State :=
  let ang := angularVelocity s.cfg (tickDelta s w)
  let lin := linearVelocity s.cfg ang
  if estimateAllFinite s.cfg (tickDelta s w) then .ok (s.setVe w { prev := (s.qd.get w).ticks, ang := ang, lin := lin })
  else .error .nonFinite

/-- VE.TICK (R121). -/
def execVeTick (w : Wheel) (s : State) : Host.Outcome State Fault Refusal :=
  perform (.veTick w) (estimate w s) s

end Sys2Proof.Machine
end

