-- ==== Sys2Proof/Machine/Dispatch.lean ====
section
/-! DEFINITION. One arm per operation of the opcode map (30_encoding.md R74). -/

namespace Sys2Proof.Machine

/-- Perform an operation. -/
def exec (i : Instr) (s : State) : Host.Outcome State Fault Refusal :=
  match i with
  | .qdEdgeA w a => Sys2Proof.Machine.execQdEdgeA w a s
  | .qdEdgeB w b => Sys2Proof.Machine.execQdEdgeB w b s
  | .veTick w => Sys2Proof.Machine.execVeTick w s
  | .pidSet w t => Sys2Proof.Machine.execPidSet w t s
  | .pidTick w => Sys2Proof.Machine.execPidTick w s
  | .kinSet v om => Sys2Proof.Machine.execKinSet v om s
  | .kinGet => Sys2Proof.Machine.execKinGet s
  | .stTick => Sys2Proof.Machine.execStTick s
  | .stSetDir d => Sys2Proof.Machine.execStSetDir d s
  | .actFwd w duty => Sys2Proof.Machine.execActFwd w duty s
  | .actBwd w duty => Sys2Proof.Machine.execActBwd w duty s
  | .actStop w => Sys2Proof.Machine.execActStop w s
  | .actHalt w => Sys2Proof.Machine.execActHalt w s

end Sys2Proof.Machine
end

