-- ==== Sys2Proof/Machine/Fetch.lean ====
section
/-! DEFINITION. Which operation comes next (20_memory.md R56, 30_encoding.md R79): the schedule says whose turn it is,
and that agent's stream says what it issues. -/

namespace Sys2Proof.Machine

/-- The bytes an agent has yet to issue. -/
def Streams.get (st : Streams) : Agent → List Byte
  | .edge w .chanA => st.edgeA.get w
  | .edge w .chanB => st.edgeB.get w
  | .estimation w => st.estimation.get w
  | .regulation w => st.regulation.get w
  | .stepper => st.stepper
  | .command => st.command
  | .telemetry => st.telemetry

/-- Replace an agent's bytes; no other agent's change. -/
def Streams.set (st : Streams) (a : Agent) (bytes : List Byte) : Streams :=
  match a with
  | .edge w .chanA => { st with edgeA := st.edgeA.set w bytes }
  | .edge w .chanB => { st with edgeB := st.edgeB.set w bytes }
  | .estimation w => { st with estimation := st.estimation.set w bytes }
  | .regulation w => { st with regulation := st.regulation.set w bytes }
  | .stepper => { st with stepper := bytes }
  | .command => { st with command := bytes }
  | .telemetry => { st with telemetry := bytes }

/-- The state with the turn of agent `a` taken: the events after it remain scheduled, and `bytes` remain of the
agent's stream. -/
def State.taken (s : State) (events : List Event) (a : Agent) (bytes : List Byte) : State :=
  { s with schedule := events, streams := s.streams.set a bytes }

/-- The operations an agent issues: only those R14 lists for it. The block does not check this (R244): it is a property of
the agents. -/
def Agent.issues : Agent → Instr → Bool
  | .edge w .chanA, .qdEdgeA w' _ => w == w'
  | .edge w .chanB, .qdEdgeB w' _ => w == w'
  | .estimation w, .veTick w' => w == w'
  | .regulation w, .pidTick w' => w == w'
  | .stepper, .stTick => true
  | .command, .kinSet _ _ => true
  | .command, .pidSet _ _ => true
  | .command, .stSetDir _ => true
  | .command, .actFwd _ _ => true
  | .command, .actBwd _ _ => true
  | .command, .actStop _ => true
  | .command, .actHalt _ => true
  | .telemetry, .kinGet => true
  | _, _ => false

/-- What R172 of 43_differential_drive_kinematics.md adds to R14's lists: KIN.GET is also issued by "any other agent of the
command path" (log entry 13). -/
def Agent.mayIssue (a : Agent) (i : Instr) : Bool := a.issues i || (a == .command && i == .kinGet)

/-- What a step has to do. -/
inductive Fetched where
  /-- The step is over with this outcome. -/
  | done (o : Host.Outcome State Fault Refusal)
  /-- Perform an operation in this state. -/
  | run (i : Instr) (s : State)
  deriving Repr

/-- The front of agent `a`'s stream, at its turn (R79).
Log entry 6 (DEDUCED, safe): an agent that has no whole record issues nothing, and its turn passes. -/
def fetchRecord (s : State) (events : List Event) (a : Agent) : Fetched :=
  match decode (s.streams.get a) with
  | .record i rest => .run i (s.taken events a rest)
  | .illegal op rest => .done (performIllegal op (s.taken events a rest))
  | .incomplete => .done (.next { s with schedule := events })

/-- What comes next. A configuration that violates R6 has no machine (R7).
With nothing scheduled no agent issues anything and nothing changes (log entry 2; R56 bounds no gap between steps).
A reset that is next happens whatever the fault register holds (R260); an agent's turn has no step while it holds a fault
(R236). The schedule is an order: a reset placed in it behind turns comes only after them (log entry 9). -/
def fetch (s : State) : Fetched :=
  if s.cfg.valid then
    match s.schedule with
    | [] => .done (.next s)
    | .reset :: events => .done (.next { s with schedule := events }.resetEvent)
    | .turn a :: events => if s.fault.cause = .none then fetchRecord s events a else .done (.fault .stuck)
  else .done (.refused .badConfiguration)

/-! ## What arrives from outside -/

/-- An input arrives (log entry 2): an agent's bytes join its stream and its turn comes after what is scheduled already;
a reset comes before it, so that it is the very next step, also in a faulted block with turns scheduled, which have no
step (R236, R260; log entry 9). No field of R21 changes. -/
def State.receive (s : State) : Input → State
  | .issue a bytes =>
    { s with schedule := s.schedule ++ [.turn a], streams := s.streams.set a (s.streams.get a ++ bytes) }
  | .reset => { s with schedule := .reset :: s.schedule }

/-- Inputs arrive one after the other. -/
def State.receiveAll (s : State) (inputs : List Input) : State := inputs.foldl State.receive s

/-- The operation the next turn performs, with the agent that issues it; none where no operation is next. -/
def State.nextOperation (s : State) : Option (Agent × Instr) :=
  match s.schedule with
  | .turn a :: _ =>
    match decode (s.streams.get a) with
    | .record i _ => some (a, i)
    | .illegal _ _ => none
    | .incomplete => none
  | .reset :: _ => none
  | [] => none

/-- Whether the next turn keeps to R14: what its agent issues, if it issues anything, is an operation R14 lists for it. -/
def State.ownershipKept (s : State) : Bool :=
  match s.schedule with
  | .turn a :: _ =>
    match decode (s.streams.get a) with
    | .record i _ => a.issues i
    | .illegal _ _ => false
    | .incomplete => true
  | .reset :: _ => true
  | [] => true

/-- The operation a periodic agent issues at each of its firings (R14, R245); none for an agent without a period. -/
def Agent.periodicOperation : Agent → Option Instr
  | .estimation w => some (.veTick w)
  | .regulation w => some (.pidTick w)
  | .stepper => some .stTick
  | .telemetry => some .kinGet
  | .edge _ _ => none
  | .command => none

/-- The state in which `bytes` are the next thing the command path issues, and its turn is next. Any agent may issue
any operation (R244). -/
def State.withRecord (s : State) (bytes : List Byte) : State :=
  { s with
    schedule := .turn .command :: s.schedule
    streams := s.streams.set .command (bytes ++ s.streams.command) }

end Sys2Proof.Machine
end

