-- ==== Sys2Proof/Machine/Step.lean ====
section
/-! DEFINITION. One step of the block: one event of the schedule (20_memory.md R54 to R56). -/

namespace Sys2Proof.Machine

/-- One step. -/
def step (s : State) : Host.Outcome State Fault Refusal :=
  match fetch s with
  | .done o => o
  | .run i t => exec i t

/-- The state with an operation placed where the next step fetches it (for the host); its bits are numbered as
spec/opcode_table.json numbers them. -/
def State.withFetchWord (s : State) (nbits w : Nat) : State := s.withRecord (tableWordBytes nbits w)

end Sys2Proof.Machine
end

