-- ==== Sys2Proof/Machine/Assembler.lean ====
section
/-! DEFINITION. Pseudo-operations and the text form of operations (30_encoding.md R80, R81): how an agent's record
stream is written. The block itself sees only the records. What R80 leaves open of the text is log entry 14 (DESIGN
CHOICE). -/

namespace Sys2Proof.Machine

/-! ## Pseudo-operations (R81) -/

/-- The pseudo-operations of R81. -/
inductive PseudoOp where
  | cmdDrive (v om : Pattern)
  | cmdDrive3 (v om : Pattern) (d : Int)
  | telemetry
  | qdCycleFwd (w : Wheel)
  | qdCycleRev (w : Wheel)
  deriving DecidableEq, Repr

/-- What each expands to, in order; each operation is a step of its own (R81). -/
def PseudoOp.expand : PseudoOp → List Instr
  | .cmdDrive v om => [.kinSet v om]
  | .cmdDrive3 v om d => [.kinSet v om, .stSetDir d]
  | .telemetry => [.kinGet]
  | .qdCycleFwd w => [.qdEdgeA w true, .qdEdgeB w true, .qdEdgeA w false, .qdEdgeB w false]
  | .qdCycleRev w => [.qdEdgeB w true, .qdEdgeA w true, .qdEdgeB w false, .qdEdgeA w false]

/-- A record stream: the records one after the other, with nothing between (R79). -/
def recordStream (ops : List Instr) : List Byte := (ops.map encode).flatten

/-! ## Literals (R80) -/

/-- The value of a digit character in a base of at most 16. -/
def digitValue (base : Nat) (c : Char) : Option Nat :=
  let v : Nat :=
    if '0' ≤ c ∧ c ≤ '9' then c.toNat - '0'.toNat
    else if 'a' ≤ c ∧ c ≤ 'f' then c.toNat - 'a'.toNat + 10
    else if 'A' ≤ c ∧ c ≤ 'F' then c.toNat - 'A'.toNat + 10
    else base
  if v < base then some v else none

/-- Read digits onto a value, counting them; what is left begins with no digit. -/
def readDigits (base : Nat) : List Char → Nat → Nat → Nat × Nat × List Char
  | [], v, k => (v, k, [])
  | c :: cs, v, k =>
    match digitValue base c with
    | some d => readDigits base cs (base * v + d) (k + 1)
    | none => (v, k, c :: cs)

/-- Read a sign; `true` is minus. -/
def readSign : List Char → Bool × List Char
  | '-' :: cs => (true, cs)
  | '+' :: cs => (false, cs)
  | cs => (false, cs)

/-- A decimal integer and nothing after it. -/
def readInt (cs : List Char) : Option Int :=
  match readDigits 10 (readSign cs).2 0 0 with
  | (v, _ + 1, []) => some (signed (readSign cs).1 v)
  | _ => none

/-- Digits with an optional fraction: the digits as one integer, how many there are, how many stand after the point,
and what is left. -/
def readMantissa (base : Nat) (cs : List Char) : Nat × Nat × Nat × List Char :=
  match readDigits base cs 0 0 with
  | (v, k, '.' :: rest) =>
    match readDigits base rest v 0 with
    | (v', k', rest') => (v', k + k', k', rest')
  | (v, k, rest) => (v, k, 0, rest)

/-- A decimal literal: digits, an optional fraction, an optional decimal exponent; the nearest binary64. -/
def readDecimal (neg : Bool) (cs : List Char) : Option Number :=
  match readMantissa 10 cs with
  | (v, k, fraction, rest) =>
    let exponent : Option Int :=
      match rest with
      | [] => some 0
      | 'e' :: ds => readInt ds
      | 'E' :: ds => readInt ds
      | _ => none
    match exponent with
    | some e => if k = 0 then none else some (.round .binary64 neg (v * 10 ^ e.toNat) (10 ^ fraction * 10 ^ (-e).toNat))
    | none => none

/-- A C99 hexadecimal floating literal after its `0x`: its binary exponent is a decimal integer; the nearest
binary64. -/
def readHex (neg : Bool) (cs : List Char) : Option Number :=
  match readMantissa 16 cs with
  | (v, k, fraction, rest) =>
    let exponent : Option Int :=
      match rest with
      | 'p' :: ds => readInt ds
      | 'P' :: ds => readInt ds
      | _ => none
    match exponent with
    | some e => if k = 0 then none else some (.round .binary64 neg (v * 2 ^ e.toNat) (16 ^ fraction * 2 ^ (-e).toNat))
    | none => none

/-- A Num literal as the pattern its record carries. -/
def readNumLiteral (cs : List Char) : Option Pattern :=
  match readSign cs with
  | (neg, '0' :: 'x' :: hs) => (readHex neg hs).map Number.toPattern
  | (neg, '0' :: 'X' :: hs) => (readHex neg hs).map Number.toPattern
  | (neg, ds) => (readDecimal neg ds).map Number.toPattern

/-- A wheel operand. -/
def readWheel : List Char → Option Wheel
  | ['L'] => some .left
  | ['R'] => some .right
  | _ => none

/-- A level operand. -/
def readLevel : List Char → Option Bit
  | ['0'] => some false
  | ['1'] => some true
  | _ => none

/-- A direction operand: a decimal integer in `[-128, 127]`. -/
def readDirection (cs : List Char) : Option Int := (readInt cs).filter Instr.inI8

/-! ## Lines (R80) -/

/-- The line before its comment. -/
def stripComment (cs : List Char) : List Char := cs.takeWhile (· != '#')

/-- A text without the blanks around it. -/
def trimBlanks (cs : List Char) : List Char :=
  ((cs.dropWhile (· == ' ')).reverse.dropWhile (· == ' ')).reverse

/-- The operands of a line, at its commas. -/
def splitCommas : List Char → List (List Char)
  | [] => [[]]
  | c :: cs =>
    match splitCommas cs with
    | [] => [[c]]
    | field :: fields => if c = ',' then [] :: field :: fields else (c :: field) :: fields

/-- A line's mnemonic and its operands. -/
def splitLine (line : List Char) : List Char × List (List Char) :=
  let body := trimBlanks (stripComment line)
  let mnemonic := body.takeWhile (· != ' ')
  let operands := trimBlanks (body.dropWhile (· != ' '))
  (mnemonic, if operands = [] then [] else (splitCommas operands).map trimBlanks)

/-- An operation of one wheel. -/
def wheelForm (make : Wheel → Instr) : List (List Char) → Option (List Instr)
  | [w] => (readWheel w).map (fun w => [make w])
  | _ => none

/-- An operation of one wheel and a level. -/
def levelForm (make : Wheel → Bit → Instr) : List (List Char) → Option (List Instr)
  | [w, l] => (readWheel w).bind (fun w => (readLevel l).map (fun l => [make w l]))
  | _ => none

/-- An operation of one wheel and a Num. -/
def numForm (make : Wheel → Pattern → Instr) : List (List Char) → Option (List Instr)
  | [w, x] => (readWheel w).bind (fun w => (readNumLiteral x).map (fun x => [make w x]))
  | _ => none

/-- A form with no operand. -/
def bareForm (ops : List Instr) : List (List Char) → Option (List Instr)
  | [] => some ops
  | _ => none

/-- A form of two Nums. -/
def pairForm (make : Pattern → Pattern → List Instr) : List (List Char) → Option (List Instr)
  | [v, om] => (readNumLiteral v).bind (fun v => (readNumLiteral om).map (fun om => make v om))
  | _ => none

/-- `cmd.drive3 V, OM, D`. -/
def tripleForm : List (List Char) → Option (List Instr)
  | [v, om, d] =>
    (readNumLiteral v).bind (fun v => (readNumLiteral om).bind (fun om =>
      (readDirection d).map (fun d => (PseudoOp.cmdDrive3 v om d).expand)))
  | _ => none

/-- `st.setdir INT`. -/
def directionForm : List (List Char) → Option (List Instr)
  | [d] => (readDirection d).map (fun d => [.stSetDir d])
  | _ => none

/-- A pseudo-operation of one wheel. -/
def cycleForm (make : Wheel → PseudoOp) : List (List Char) → Option (List Instr)
  | [w] => (readWheel w).map (fun w => (make w).expand)
  | _ => none

/-- The operations a line of text stands for (R80, R81); none where it is of no form the rules give. A line of blanks
or of a comment alone stands for no operation. -/
def assembleLine (line : List Char) : Option (List Instr) :=
  let m := (splitLine line).1
  let ops := (splitLine line).2
  if m = [] then some []
  else if m = "qd.edgea".toList then levelForm .qdEdgeA ops
  else if m = "qd.edgeb".toList then levelForm .qdEdgeB ops
  else if m = "ve.tick".toList then wheelForm .veTick ops
  else if m = "pid.set".toList then numForm .pidSet ops
  else if m = "pid.tick".toList then wheelForm .pidTick ops
  else if m = "kin.set".toList then pairForm (fun v om => [.kinSet v om]) ops
  else if m = "kin.get".toList then bareForm [.kinGet] ops
  else if m = "st.tick".toList then bareForm [.stTick] ops
  else if m = "st.setdir".toList then directionForm ops
  else if m = "act.fwd".toList then numForm .actFwd ops
  else if m = "act.bwd".toList then numForm .actBwd ops
  else if m = "act.stop".toList then wheelForm .actStop ops
  else if m = "act.halt".toList then wheelForm .actHalt ops
  else if m = "cmd.drive".toList then pairForm (fun v om => (PseudoOp.cmdDrive v om).expand) ops
  else if m = "cmd.drive3".toList then tripleForm ops
  else if m = "telemetry".toList then bareForm PseudoOp.telemetry.expand ops
  else if m = "qd.cycle_fwd".toList then cycleForm .qdCycleFwd ops
  else if m = "qd.cycle_rev".toList then cycleForm .qdCycleRev ops
  else none

/-- The operations of a program, one line after the other (R80). -/
def assemble : List (List Char) → Option (List Instr)
  | [] => some []
  | line :: lines => (assembleLine line).bind (fun ops => (assemble lines).map (ops ++ ·))

end Sys2Proof.Machine
end

