-- ==== Sys2Proof/Machine/Run.lean ====
section
/-! DEFINITION. Runs, finite and infinite (20_memory.md R55), with what arrives from outside between two steps, the
fairness that liveness rests on (70_reset_and_hazards.md R269), and the agents' discipline (00_scope.md R14). -/

namespace Sys2Proof.Machine

/-- One step of a run: what arrives before it, then the block's step. -/
def advance (inputs : List Input) (s : State) : Host.Outcome State Fault Refusal := step (s.receiveAll inputs)

/-- The first `n` steps of a run: `states k` is the state before step `k`, and `inputs k` arrives before that step. -/
def IsRun (inputs : Nat → List Input) (states : Nat → State) (n : Nat) : Prop :=
  ∀ k, k < n → advance (inputs k) (states k) = .next (states (k + 1))

/-- An infinite run. -/
def IsInfiniteRun (inputs : Nat → List Input) (states : Nat → State) : Prop := ∀ n, IsRun inputs states n

/-- Fairness (R269): each periodic agent issues its operation infinitely often. -/
def IsFair (inputs : Nat → List Input) (states : Nat → State) : Prop :=
  ∀ a i, a.periodicOperation = some i →
    ∀ n, ∃ k, n ≤ k ∧ ((states k).receiveAll (inputs k)).nextOperation = some (a, i)

/-- A run driven by the agents of R14, each of which issues only the operations listed for it. -/
def KeepsOwnership (inputs : Nat → List Input) (states : Nat → State) : Prop :=
  ∀ k, ((states k).receiveAll (inputs k)).ownershipKept = true

end Sys2Proof.Machine
end

