-- ==== Sys2Proof/Safety.lean ====
section
/-! DEFINITION. The terms claims are stated in: when the block can take a step, runs of several operations, what an
observer sees, and the invariants the spec states. -/

namespace Sys2Proof.Machine

/-! ## Ready -/

/-- The block can take a step: R7's constraints hold and the fault register is clear (R13 point 1). -/
structure State.Ready (s : State) : Prop where
  valid : s.cfg.valid = true
  clear : s.fault.cause = .none

/-! ## Runs -/

/-- The block after reset with a configuration, and the agents' records and turns to come (R56, R262 step 2). -/
def State.boot (c : Config) (streams : Streams) (schedule : List Event) : State :=
  { State.resetWith c with streams := streams, schedule := schedule }

/-- Perform operations one after the other, with no other agent's operation between (R79). -/
def performAll : List Instr → State → Host.Outcome State Fault Refusal
  | [], s => .next s
  | i :: is, s =>
    match exec i s with
    | .next t => performAll is t
    | .fault r => .fault r
    | .refused r => .refused r

/-- The target an operation gives a wheel, where it gives it one (R141, R171). -/
def State.givenTarget (s : State) (w : Wheel) : Instr → Option Number
  | .pidSet w' t => if w' = w then some (s.numOperand t) else none
  | .kinSet v om => some (match w with
    | .left => leftTarget s.cfg (s.numOperand v) (s.numOperand om)
    | .right => rightTarget s.cfg (s.numOperand v) (s.numOperand om))
  | .qdEdgeA _ _ => none
  | .qdEdgeB _ _ => none
  | .veTick _ => none
  | .pidTick _ => none
  | .kinGet => none
  | .stTick => none
  | .stSetDir _ => none
  | .actFwd _ _ => none
  | .actBwd _ _ => none
  | .actStop _ => none
  | .actHalt _ => none

/-- Apply a function to the state of a next outcome. -/
def mapNext (f : State → State) : Host.Outcome State Fault Refusal → Host.Outcome State Fault Refusal
  | .next s => .next (f s)
  | .fault r => .fault r
  | .refused r => .refused r

/-! ## What an observer sees (R15) -/

/-- The observation of a state: Actuator outputs, stepper lines, the values KIN.GET returned, the fault register. -/
structure Observation where
  act : PerWheel Act
  stepOut : Bit
  dirLine : Bit
  enLine : Bit
  returned : List (Number × Number)
  fault : FaultReg
  deriving DecidableEq, Repr

/-- The observation of a state (R15). -/
def State.observe (s : State) : Observation :=
  { act := s.act, stepOut := s.st.stepOut, dirLine := s.st.dirLine, enLine := s.st.enLine,
    returned := s.returned, fault := s.fault }

/-! ## Invariants -/

/-- The counter and its snapshot stay in the counter's range (R22, R25). -/
structure State.TicksInRange (s : State) : Prop where
  ticks : ∀ w, s.cfg.tickMin ≤ (s.qd.get w).ticks ∧ (s.qd.get w).ticks ≤ s.cfg.tickMax
  prev : ∀ w, s.cfg.tickMin ≤ (s.ve.get w).prev ∧ (s.ve.get w).prev ≤ s.cfg.tickMax

/-- The invariants of the PID state (R31). -/
structure State.PidBounds (s : State) : Prop where
  dutyLow : ∀ w, Number.negOne.le (s.pid.get w).duty = true
  dutyHigh : ∀ w, (s.pid.get w).duty.le .one = true
  cycles : ∀ w, (s.pid.get w).cycles ≤ s.cfg.regVelFreq + 1
  target : ∀ w, (s.pid.get w).target.isFinite = true
  prevErr : ∀ w, (s.pid.get w).prevErr.isFinite = true
  integral : ∀ w, (s.pid.get w).integral.isFinite = true
  duty : ∀ w, (s.pid.get w).duty.isFinite = true

/-- The Actuators' duty is in `[0.0, 1.0]` (R34). -/
def State.PwmInRange (s : State) : Prop :=
  ∀ w, Number.zero.le (s.act.get w).pwm = true ∧ (s.act.get w).pwm.le .one = true

/-- The invariants of the stepper (R36, R37, R39, R194). -/
structure State.StepperConsistent (s : State) : Prop where
  enabled : s.st.enabled = decide (s.st.dir ≠ .idle)
  enLine : s.st.enLine = s.st.enabled
  low : -(s.cfg.limit : Int) - 1 ≤ s.st.pos
  high : s.st.pos ≤ (s.cfg.limit : Int) + 1
  parity : s.st.stepOut = decide (s.st.pos % 2 = 1)

/-- Every Num field is a finite number of the format `NUM` names (R10, R233). -/
structure State.NumsInFormat (s : State) : Prop where
  ve : ∀ w, (s.cfg.finite (s.ve.get w).ang && s.cfg.finite (s.ve.get w).lin) = true
  pid : ∀ w, (s.cfg.finite (s.pid.get w).target && s.cfg.finite (s.pid.get w).prevErr &&
    s.cfg.finite (s.pid.get w).integral && s.cfg.finite (s.pid.get w).duty) = true
  act : ∀ w, s.cfg.finite (s.act.get w).pwm = true
  kin : (s.cfg.finite s.kin.lm && s.cfg.finite s.kin.rm && s.cfg.finite s.kin.v && s.cfg.finite s.kin.om) = true

/-- The fault register's information is empty exactly when it holds no fault (R40, R230). -/
def State.FaultInfoConsistent (s : State) : Prop := s.fault.cause = .none ↔ s.fault.info = []

/-! ## Correct rounding (R10) -/

/-- The least magnitude that rounds to an infinity: halfway between the largest finite number of the format and
`2 ^ (maxExp + 1)` (IEEE 754 4.3.1: PRESUMED, log entry 11). -/
def overflowBound (f : NumFormat) : ℚ := 2 ^ (f.maxExp + 1) - 2 ^ f.maxExp / 2 ^ f.precision

/-- `r` is the correctly rounded value of the exact result `x` in the format `f`, to nearest, ties to even (R10). -/
structure CorrectlyRounded (f : NumFormat) (x : ℚ) (r : Number) : Prop where
  member : r.inFormat f = true
  infinite : overflowBound f ≤ |x| → r = .inf (decide (x < 0))
  finite : |x| < overflowBound f → r.isFinite = true
  nearest : r.isFinite = true → ∀ v : Number, v.isFinite = true → v.inFormat f = true →
    |r.toRat - x| ≤ |v.toRat - x|
  tiesToEven : r.isFinite = true → ∀ v : Number, v.isFinite = true → v.inFormat f = true →
    |v.toRat - x| = |r.toRat - x| → v.toRat ≠ r.toRat → r.toRat = 0 ∨ v.lastExponent < r.lastExponent

end Sys2Proof.Machine
end

