-- ==== Sys2Proof/Certificates/Slice0/Obligations.lean ====
section
/-! DEFINITION. The statements about the block, each from the numbered rules of spec/ its docstring names. A state may
be any state: no statement is only about runs from reset, unless it says so. -/

open Sys2Proof Sys2Proof.Machine

/-! ## Encoding -/

/-- 30_encoding.md R70 to R79: the record of every well-formed operation, whatever follows it in the stream, decodes
to that operation and leaves what followed it. -/
def Obligations.DecodeOfEncode : Prop :=
  ∀ (i : Instr) (rest : List Byte), i.wellFormed = true → decode (encode i ++ rest) = .record i rest

/-- 30_encoding.md R73 to R79: each record has one meaning: bytes that decode to an operation are its record. -/
def Obligations.EncodeOfDecode : Prop :=
  ∀ (bytes rest : List Byte) (i : Instr), decode bytes = .record i rest →
    i.wellFormed = true ∧ bytes = encode i ++ rest

/-- 30_encoding.md R76: which code bytes are reserved, how many are not, and the length of every record. The unit is
`op / 32`, the wheel bit is bit 4, the function is `op % 16` (R70). -/
def Obligations.ReservedCodesAndRecordLengths : Prop :=
  (∀ op : Byte, decodeOp op = none ↔
    (op.toNat / 32 = 6 ∨ op.toNat / 32 = 7 ∨
     (op.toNat / 32 = 0 ∧ op.toNat % 16 / 4 ≠ 0) ∨
     (op.toNat / 32 = 1 ∧ op.toNat % 16 ≠ 0) ∨
     (op.toNat / 32 = 2 ∧ op.toNat % 16 ≠ 0 ∧ op.toNat % 16 ≠ 1) ∨
     (op.toNat / 32 = 3 ∧ (op.getLsbD 4 = true ∨ (op.toNat % 16 ≠ 0 ∧ op.toNat % 16 ≠ 1))) ∨
     (op.toNat / 32 = 4 ∧ (op.getLsbD 4 = true ∨ (op.toNat % 16 ≠ 0 ∧ op.toNat % 16 ≠ 1))) ∨
     (op.toNat / 32 = 5 ∧ op.toNat % 16 / 4 ≠ 0))) ∧
  ((List.range 256).filter (fun n => (decodeOp (BitVec.ofNat 8 n)).isSome)).length = 26 ∧
  (∀ op : Byte, decodeOp op = none → recordLength op = 1) ∧
  (∀ (op : Byte) (r : OpcodeRow), decodeOp op = some r →
    recordLength op = 1 + (match r.payload with | .none => 0 | .i8 => 1 | .num => 8 | .num2 => 16))

/-- 30_encoding.md R75: decoding a code byte answers the one row of the table that accepts it, and nothing when no row
does. -/
def Obligations.AtMostOneRowAcceptsACode : Prop :=
  ∀ op : Byte,
    (∀ r : OpcodeRow, decodeOp op = some r ↔ r ∈ opcodeTable ∧ op &&& r.mask = r.pattern) ∧
    (decodeOp op = none ↔ ∀ r ∈ opcodeTable, op &&& r.mask ≠ r.pattern)

/-- 30_encoding.md R74 and R77, 95_test_vectors.md L2: records written out from the spec's encodings, and a reserved
code byte. -/
def Obligations.SpecRecordsDecode : Prop :=
  decode [0x11#8] = .record (.qdEdgeA .right true) [] ∧
  decode [0x02#8] = .record (.qdEdgeB .left false) [] ∧
  decode [0x30#8, 0x20#8] = .record (.veTick .right) [0x20#8] ∧
  decode [0x50#8, 0x9a#8, 0x99#8, 0x99#8, 0x99#8, 0x99#8, 0x99#8, 0xc9#8, 0x3f#8] =
    .record (.pidSet .right 0x3fc999999999999a#64) [] ∧
  decode [0x81#8, 0xff#8, 0x80#8] = .record (.stSetDir (-1)) [0x80#8] ∧
  decode [0xa3#8] = .record (.actHalt .left) [] ∧
  decode [0x04#8, 0x00#8] = .illegal 0x04#8 [0x00#8]

/-- 30_encoding.md R73: every 64-bit pattern has a binary64 value: bit 63 the sign, bits 62..52 the biased exponent,
bits 51..0 the fraction; and with `NUM = binary64` that value is the operand. -/
def Obligations.PatternIsBinary64 : Prop :=
  ∀ p : Pattern,
    let ex : ℕ := p.toNat / 2 ^ 52 % 2 ^ 11
    let frac : ℕ := p.toNat % 2 ^ 52
    let sign : ℚ := if p.getLsbD 63 then -1 else 1
    (ex = 2047 → frac = 0 → Number.ofPattern p = .inf (p.getLsbD 63)) ∧
    (ex = 2047 → frac ≠ 0 → Number.ofPattern p = .nan) ∧
    (ex = 0 → (Number.ofPattern p).isFinite = true ∧
      (Number.ofPattern p).toRat = sign * frac * (2 : ℚ) ^ (-1074 : ℤ)) ∧
    (ex = 0 → frac = 0 → Number.ofPattern p = .fin (p.getLsbD 63) 0 0) ∧
    (0 < ex → ex < 2047 → (Number.ofPattern p).isFinite = true ∧
      (Number.ofPattern p).toRat = sign * (1 + frac / 2 ^ 52) * (2 : ℚ) ^ ((ex : ℤ) - 1023)) ∧
    (∀ s : State, s.cfg.num = .binary64 → s.numOperand p = Number.ofPattern p)

/-! ## Arithmetic -/

/-- 00_scope.md R10: every operator on finite operands, and `toNum`, answers the correctly rounded exact result, in
every format. The formats are the model's choice (log entry 4); where a result overflows to an infinity, and what a
division by zero answers (a NaN for zero by zero, else an infinity with the product of the signs), is taken from
IEEE 754 (log entry 11, PRESUMED). -/
def Obligations.ArithmeticIsCorrectlyRounded : Prop :=
  (∀ (f : NumFormat) (x y : Number), x.isFinite = true → y.isFinite = true →
    CorrectlyRounded f (x.toRat + y.toRat) (Number.add f x y) ∧
    CorrectlyRounded f (x.toRat - y.toRat) (Number.sub f x y) ∧
    CorrectlyRounded f (x.toRat * y.toRat) (Number.mul f x y) ∧
    (y.toRat ≠ 0 → CorrectlyRounded f (x.toRat / y.toRat) (Number.div f x y))) ∧
  (∀ (f : NumFormat) (a b : Bool) (m : ℕ) (e g : ℤ),
    Number.div f (.fin a m e) (.fin b 0 g) = if m = 0 then .nan else .inf (a ^^ b)) ∧
  (∀ (f : NumFormat) (i : ℤ), CorrectlyRounded f (i : ℚ) (Number.ofInt f i))

/-- 00_scope.md R10: the comparisons are the IEEE comparisons: the order of the real values on finite numbers (so
`-0.0 == 0.0`), every finite number strictly between the two infinities, each infinity equal to itself alone, and all
false with a NaN except `!=`. (`x > y` and `x >= y` are `y < x` and `y <= x`.) -/
def Obligations.ComparisonsAreIeee : Prop :=
  (∀ x y : Number, x.isFinite = true → y.isFinite = true →
    (x.lt y = true ↔ x.toRat < y.toRat) ∧ (x.le y = true ↔ x.toRat ≤ y.toRat) ∧
    (x.eq y = true ↔ x.toRat = y.toRat) ∧ (x.ne y = true ↔ x.toRat ≠ y.toRat)) ∧
  (∀ (x : Number) (a : Bool), x.isFinite = true →
    x.lt (.inf a) = !a ∧ x.le (.inf a) = !a ∧ x.eq (.inf a) = false ∧ x.ne (.inf a) = true ∧
    Number.lt (.inf a) x = a ∧ Number.le (.inf a) x = a ∧ Number.eq (.inf a) x = false ∧
    Number.ne (.inf a) x = true) ∧
  (∀ a b : Bool,
    Number.lt (.inf a) (.inf b) = (a && !b) ∧ Number.le (.inf a) (.inf b) = (a || !b) ∧
    Number.eq (.inf a) (.inf b) = (a == b) ∧ Number.ne (.inf a) (.inf b) = (a != b)) ∧
  (∀ x y : Number, x = .nan ∨ y = .nan →
    x.lt y = false ∧ x.le y = false ∧ x.eq y = false ∧ x.ne y = true)

/-- 00_scope.md R10: in binary64 `TWO_PI` is `0x1.921fb54442d18p+2`, and no number is nearer to 2π (its distance is
less than half the spacing there, `2^-51`). -/
def Obligations.TwoPiInBinary64 : Prop :=
  Number.twoPi .binary64 = Number.ofPattern 0x401921fb54442d18#64 ∧
  |((Number.twoPi .binary64).toRat : ℝ) - 2 * Real.pi| < 2 ^ (-51 : ℤ)

/-! ## Steps, reset and faults -/

/-- 00_scope.md R13, 20_memory.md R54 and R56, 30_encoding.md R79: at an agent's turn, a step performs the operation
the front of its stream decodes to, and around it only takes the turn and the record. -/
def Obligations.StepRunsDecodedOperation : Prop :=
  ∀ (s : State) (a : Agent) (events : List Event) (i : Instr) (rest : List Byte),
    s.Ready → s.schedule = .turn a :: events → decode (s.streams.get a) = .record i rest →
    step s = exec i { s with schedule := events, streams := s.streams.set a rest }

/-- The model's choice (log entries 2 and 6): with nothing scheduled nothing changes, and an agent at its turn without
a whole record (such as one byte of a PID.SET's operand) issues nothing. -/
def Obligations.StepWithNothingIssued : Prop :=
  (∀ s : State, s.cfg.valid = true → s.schedule = [] → step s = .next s) ∧
  (∀ (s : State) (a : Agent) (events : List Event), s.Ready → s.schedule = .turn a :: events →
    decode (s.streams.get a) = .incomplete → step s = .next { s with schedule := events }) ∧
  decode [0x40#8, 0x00#8] = .incomplete

/-- 30_encoding.md R77 and R79, 60_exceptions.md R230 and R234: a record whose code byte is reserved raises `ILLEGAL_OP`
with that byte. That the turn is taken is the form of the model's own schedule (log entry 2, DESIGN CHOICE), and that a
raise consumes the record is read from the rules (log entry 7, DEDUCED). -/
def Obligations.ReservedCodeRaisesIllegalOp : Prop :=
  ∀ (s : State) (a : Agent) (events : List Event) (op : Byte) (bytes : List Byte),
    s.Ready → s.schedule = .turn a :: events → s.streams.get a = op :: bytes → decodeOp op = none →
    step s = .next { s with
      schedule := events, streams := s.streams.set a bytes, fault := { cause := .illegalOp, info := [op] } }

/-- 70_reset_and_hazards.md R260: a reset sets every field to its reset value in one step, whatever the fault register
holds, and keeps `cfg`; and no other step clears a fault. -/
def Obligations.ResetRestoresEveryField : Prop :=
  (∀ (s : State) (events : List Event), s.cfg.valid = true → s.schedule = .reset :: events →
    ∃ t, step s = .next t ∧
      (∀ w, t.qd.get w = { ticks := 0, lastA := false, lastB := false } ∧
        t.ve.get w = { prev := 0, ang := .fin false 0 0, lin := .fin false 0 0 } ∧
        t.pid.get w = { target := .fin false 0 0, prevErr := .fin false 0 0, integral := .fin false 0 0,
                        duty := .fin false 0 0, cycles := 0 } ∧
        t.act.get w = { dirF := false, dirB := false, pwm := .fin false 0 0 }) ∧
      t.kin = { lm := .fin false 0 0, rm := .fin false 0 0, v := .fin false 0 0, om := .fin false 0 0 } ∧
      t.st = { dir := .idle, enabled := false, pos := 0, stepOut := false, dirLine := false, enLine := false } ∧
      t.fault = { cause := .none, info := [] } ∧ t.cfg = s.cfg) ∧
  (∀ s t : State, step s = .next t → s.fault.cause ≠ .none → t.fault.cause = .none →
    ∃ events, s.schedule = .reset :: events)

/-- 60_exceptions.md R236: while the fault register holds a fault no operation has a step, from any agent; what has a
step changes no output; and only a reset clears the register. -/
def Obligations.FaultIsStickyUntilReset : Prop :=
  ∀ s : State, s.cfg.valid = true → s.fault.cause ≠ .none →
    (∀ i, exec i s = .fault .stuck) ∧
    (∀ a events, s.schedule = .turn a :: events → step s = .fault .stuck) ∧
    (∀ t, step s = .next t →
      (t.observe = s.observe ∧ t.fault = s.fault) ∨ ∃ events, s.schedule = .reset :: events)

/-- 00_scope.md R7 with the constraints of R6: a configuration with a parameter that is not finite, or not positive
where R6 asks it, or too small where R6 bounds it, has no machine: every step and every operation is refused. -/
def Obligations.BadConfigurationIsRefused : Prop :=
  ∀ s : State,
    (¬ ((∀ x ∈ [s.cfg.cpr, s.cfg.gearRatio, s.cfg.period, s.cfg.wheelRadius, s.cfg.wheelSep, s.cfg.pulseWidthUs,
            s.cfg.telemetryFreq], x.isFinite = true ∧ 0 < x.toRat) ∧
        (∀ x ∈ [s.cfg.kp, s.cfg.ki, s.cfg.kd], x.isFinite = true) ∧
        1 ≤ s.cfg.regVelFreq ∧ 2 ≤ s.cfg.tickBits)) →
    step s = .refused .badConfiguration ∧ ∀ i, exec i s = .refused .badConfiguration

/-- 60_exceptions.md R230: an operation that changes the fault register raises one of the causes the table gives it,
records its own code byte and operand bytes, and changes no other field. -/
def Obligations.RaiseRecordsCauseAndRecord : Prop :=
  (∀ (i : Instr) (s t : State), exec i s = .next t → t.fault ≠ s.fault →
    t = { s with fault := { cause := t.fault.cause, info := encode i } } ∧
    (match i with
     | .qdEdgeA _ _ => t.fault.cause = .tickRange
     | .qdEdgeB _ _ => t.fault.cause = .tickRange
     | .veTick _ => t.fault.cause = .nonFinite
     | .pidSet _ _ => t.fault.cause = .nonFinite
     | .pidTick _ => t.fault.cause = .nonFinite
     | .kinSet _ _ => t.fault.cause = .nonFinite
     | .kinGet => t.fault.cause = .nonFinite
     | .stTick => False
     | .stSetDir _ => t.fault.cause = .cvDirection
     | .actFwd _ _ => t.fault.cause = .cvDuty
     | .actBwd _ _ => t.fault.cause = .cvDuty
     | .actStop _ => False
     | .actHalt _ => False)) ∧
  Cause.none.code = 0 ∧ Cause.cvDuty.code = 1 ∧ Cause.cvDirection.code = 2 ∧ Cause.tickRange.code = 3 ∧
  Cause.nonFinite.code = 4 ∧ Cause.illegalOp.code = 5

/-- 10_state.md R41: no step writes the configuration, and TICK_MIN and TICK_MAX are its derived constants. -/
def Obligations.ConfigurationIsNeverWritten : Prop :=
  (∀ s t : State, step s = .next t → t.cfg = s.cfg) ∧
  (∀ c : Config, c.tickMin = -(2 : ℤ) ^ (c.tickBits - 1) ∧ c.tickMax = (2 : ℤ) ^ (c.tickBits - 1) - 1)

/-! ## The quadrature decoder -/

/-- 40_quadrature_decoder.md R100 and R101: the table, entry by entry, and its closed form. -/
def Obligations.TransitionTable : Prop :=
  qdelta .chanA true false = 1 ∧ qdelta .chanA true true = -1 ∧
  qdelta .chanA false false = -1 ∧ qdelta .chanA false true = 1 ∧
  qdelta .chanB true false = -1 ∧ qdelta .chanB true true = 1 ∧
  qdelta .chanB false false = 1 ∧ qdelta .chanB false true = -1 ∧
  (∀ a b, qdelta .chanA a b = if a ≠ b then 1 else -1) ∧
  (∀ b a, qdelta .chanB b a = if b = a then 1 else -1)

/-- 40_quadrature_decoder.md R102: QD.EDGEA counts, keeps the level of A, and raises `TICK_RANGE` with its code byte
when the count would leave the range. -/
def Obligations.EdgeACountsOrRaises : Prop :=
  ∀ (w : Wheel) (a : Bit) (s : State), s.Ready →
    let n := (s.qd.get w).ticks + (if a ≠ (s.qd.get w).lastB then 1 else -1)
    let op : Byte := match w, a with
      | .left, false => 0x00#8 | .left, true => 0x01#8 | .right, false => 0x10#8 | .right, true => 0x11#8
    encode (.qdEdgeA w a) = [op] ∧
    (s.cfg.tickMin ≤ n ∧ n ≤ s.cfg.tickMax →
      exec (.qdEdgeA w a) s = .next (s.setQd w { ticks := n, lastA := a, lastB := (s.qd.get w).lastB })) ∧
    (n < s.cfg.tickMin ∨ s.cfg.tickMax < n →
      exec (.qdEdgeA w a) s = .next { s with fault := { cause := .tickRange, info := [op] } })

/-- 40_quadrature_decoder.md R103: QD.EDGEB, likewise. -/
def Obligations.EdgeBCountsOrRaises : Prop :=
  ∀ (w : Wheel) (b : Bit) (s : State), s.Ready →
    let n := (s.qd.get w).ticks + (if b = (s.qd.get w).lastA then 1 else -1)
    let op : Byte := match w, b with
      | .left, false => 0x02#8 | .left, true => 0x03#8 | .right, false => 0x12#8 | .right, true => 0x13#8
    encode (.qdEdgeB w b) = [op] ∧
    (s.cfg.tickMin ≤ n ∧ n ≤ s.cfg.tickMax →
      exec (.qdEdgeB w b) s = .next (s.setQd w { ticks := n, lastA := (s.qd.get w).lastA, lastB := b })) ∧
    (n < s.cfg.tickMin ∨ s.cfg.tickMax < n →
      exec (.qdEdgeB w b) s = .next { s with fault := { cause := .tickRange, info := [op] } })

/-- 40_quadrature_decoder.md R104: no edge is filtered: an edge of either channel that raises nothing moves its
wheel's counter by exactly 1 or -1, also when the channel's level is the one already known. -/
def Obligations.EveryEdgeCountsOne : Prop :=
  ∀ (i : Instr) (w : Wheel) (l : Bit) (s t : State), i = .qdEdgeA w l ∨ i = .qdEdgeB w l →
    exec i s = .next t → t.fault.cause = .none →
    (t.qd.get w).ticks = (s.qd.get w).ticks + 1 ∨ (t.qd.get w).ticks = (s.qd.get w).ticks - 1

/-- 40_quadrature_decoder.md R105 and R106: when the last-known levels are the actual ones, each transition of the forward
sequence 00, 10, 11, 01, 00 of (A, B) adds 1, each of the reverse sequence subtracts 1, and a full cycle changes the
count by 4 or -4. The order of two edges decides the count: from levels 0, 0, A before B adds 2 and B before A subtracts
2. -/
def Obligations.FullCycleCountsFour : Prop :=
  ∀ (w : Wheel) (s : State), s.Ready →
    (∀ (i : Instr) (a b a' b' : Bit),
      (i, a, b, a', b') ∈
        [(.qdEdgeA w true, false, false, true, false), (.qdEdgeB w true, true, false, true, true),
         (.qdEdgeA w false, true, true, false, true), (.qdEdgeB w false, false, true, false, false)] →
      (s.qd.get w).lastA = a → (s.qd.get w).lastB = b →
      s.cfg.tickMin ≤ (s.qd.get w).ticks → (s.qd.get w).ticks + 1 ≤ s.cfg.tickMax →
      exec i s = .next (s.setQd w { ticks := (s.qd.get w).ticks + 1, lastA := a', lastB := b' })) ∧
    (∀ (i : Instr) (a b a' b' : Bit),
      (i, a, b, a', b') ∈
        [(.qdEdgeB w true, false, false, false, true), (.qdEdgeA w true, false, true, true, true),
         (.qdEdgeB w false, true, true, true, false), (.qdEdgeA w false, true, false, false, false)] →
      (s.qd.get w).lastA = a → (s.qd.get w).lastB = b →
      s.cfg.tickMin ≤ (s.qd.get w).ticks - 1 → (s.qd.get w).ticks ≤ s.cfg.tickMax →
      exec i s = .next (s.setQd w { ticks := (s.qd.get w).ticks - 1, lastA := a', lastB := b' })) ∧
    ((s.qd.get w).lastA = false → (s.qd.get w).lastB = false →
      (s.cfg.tickMin ≤ (s.qd.get w).ticks → (s.qd.get w).ticks + 4 ≤ s.cfg.tickMax →
        performAll (PseudoOp.qdCycleFwd w).expand s =
          .next (s.setQd w { ticks := (s.qd.get w).ticks + 4, lastA := false, lastB := false })) ∧
      (s.cfg.tickMin ≤ (s.qd.get w).ticks - 4 → (s.qd.get w).ticks ≤ s.cfg.tickMax →
        performAll (PseudoOp.qdCycleRev w).expand s =
          .next (s.setQd w { ticks := (s.qd.get w).ticks - 4, lastA := false, lastB := false })) ∧
      (s.cfg.tickMin ≤ (s.qd.get w).ticks - 2 → (s.qd.get w).ticks + 2 ≤ s.cfg.tickMax →
        performAll [.qdEdgeA w true, .qdEdgeB w true] s =
          .next (s.setQd w { ticks := (s.qd.get w).ticks + 2, lastA := true, lastB := true }) ∧
        performAll [.qdEdgeB w true, .qdEdgeA w true] s =
          .next (s.setQd w { ticks := (s.qd.get w).ticks - 2, lastA := true, lastB := true })))

/-- Frame of QD.EDGEA and QD.EDGEB (R102, R103, R107): only the wheel's own counter and the edge's own level change,
or only the fault register. -/
def Obligations.FrameOfEdges : Prop :=
  ∀ (i : Instr) (w : Wheel) (l : Bit) (s t : State), i = .qdEdgeA w l ∨ i = .qdEdgeB w l → exec i s = .next t →
    t.ve = s.ve ∧ t.pid = s.pid ∧ t.act = s.act ∧ t.kin = s.kin ∧ t.st = s.st ∧ t.cfg = s.cfg ∧
    t.streams = s.streams ∧ t.schedule = s.schedule ∧ t.returned = s.returned ∧
    (∀ w', w' ≠ w → t.qd.get w' = s.qd.get w') ∧
    (i = .qdEdgeA w l → (t.qd.get w).lastB = (s.qd.get w).lastB) ∧
    (i = .qdEdgeB w l → (t.qd.get w).lastA = (s.qd.get w).lastA) ∧
    (t.fault = s.fault ∨ (t.fault.cause = .tickRange ∧ t.qd = s.qd))

/-! ## The velocity estimator -/

/-- 41_velocity_estimator.md R121 with 60_exceptions.md R233: VE.TICK computes both velocities as written, one rounding
per operator, keeps them and the counter it read; or it raises `NON_FINITE` with its code byte where an intermediate or
a result is not finite. (Where only `CPR × GEAR_RATIO` is infinite, R121's own test of the results passes and R233
raises; the model follows R233: log entry 16.) -/
def Obligations.EstimatorTick : Prop :=
  ∀ (w : Wheel) (s : State), s.Ready →
    let n := s.cfg.num
    let delta := (s.qd.get w).ticks - (s.ve.get w).prev
    let x := Number.ofInt n delta
    let revolution := Number.mul n s.cfg.cpr s.cfg.gearRatio
    let quotient := Number.div n x revolution
    let ang := Number.div n (Number.mul n quotient (Number.twoPi n)) s.cfg.period
    let lin := Number.mul n ang s.cfg.wheelRadius
    let op : Byte := match w with | .left => 0x20#8 | .right => 0x30#8
    encode (.veTick w) = [op] ∧
    (revolution.isFinite = true ∧ ang.isFinite = true ∧ lin.isFinite = true →
      exec (.veTick w) s = .next (s.setVe w { prev := (s.qd.get w).ticks, ang := ang, lin := lin })) ∧
    (x.isFinite = false ∨ revolution.isFinite = false ∨ quotient.isFinite = false ∨
        (Number.mul n quotient (Number.twoPi n)).isFinite = false ∨ ang.isFinite = false ∨ lin.isFinite = false →
      exec (.veTick w) s = .next { s with fault := { cause := .nonFinite, info := [op] } })

/-- 41_velocity_estimator.md R122: a delta of 0 gives `+0.0` twice, exactly. The premise that `CPR × GEAR_RATIO` does
not round to zero or to an infinity is the model's: with extreme parameters it can, and then R121's or R233's check raises
(log entry 16). -/
def Obligations.EstimatorZeroDelta : Prop :=
  ∀ (w : Wheel) (s : State), s.Ready → (s.qd.get w).ticks = (s.ve.get w).prev →
    Number.zero.lt (Number.mul s.cfg.num s.cfg.cpr s.cfg.gearRatio) = true →
    (Number.mul s.cfg.num s.cfg.cpr s.cfg.gearRatio).isFinite = true →
    exec (.veTick w) s =
      .next (s.setVe w { prev := (s.qd.get w).ticks, ang := .fin false 0 0, lin := .fin false 0 0 })

/-- 41_velocity_estimator.md R123: a delta of one revolution gives the one rounded division `TWO_PI / P`. -/
def Obligations.EstimatorOneRevolution : Prop :=
  ∀ (w : Wheel) (s : State), s.Ready →
    let n := s.cfg.num
    let delta := (s.qd.get w).ticks - (s.ve.get w).prev
    let revolution := Number.mul n s.cfg.cpr s.cfg.gearRatio
    let ang := Number.div n (Number.twoPi n) s.cfg.period
    delta ≠ 0 → revolution.isFinite = true → (Number.ofInt n delta).eq revolution = true →
    ang.isFinite = true → (Number.mul n ang s.cfg.wheelRadius).isFinite = true →
    exec (.veTick w) s =
      .next (s.setVe w { prev := (s.qd.get w).ticks, ang := ang, lin := Number.mul n ang s.cfg.wheelRadius })

/-- 41_velocity_estimator.md R124: the results are odd in the delta, exactly, and have its sign (a result that
underflows is a zero of that sign, so the sign is stated with `<=`). A delta of 0 is R122's. -/
def Obligations.EstimatorIsOdd : Prop :=
  ∀ (w : Wheel) (s s' t : State), s'.Ready → s'.cfg = s.cfg →
    (s'.qd.get w).ticks - (s'.ve.get w).prev = -((s.qd.get w).ticks - (s.ve.get w).prev) →
    (s.qd.get w).ticks - (s.ve.get w).prev ≠ 0 →
    exec (.veTick w) s = .next t → t.fault.cause = .none →
    (∃ t', exec (.veTick w) s' = .next t' ∧ t'.fault.cause = .none ∧
      (t'.ve.get w).ang = (t.ve.get w).ang.neg ∧ (t'.ve.get w).lin = (t.ve.get w).lin.neg) ∧
    (0 < (s.qd.get w).ticks - (s.ve.get w).prev →
      Number.zero.le (t.ve.get w).ang = true ∧ Number.zero.le (t.ve.get w).lin = true)

/-- 41_velocity_estimator.md R125: with the counter and its snapshot in range, the delta is at most
`2^TICK_BITS - 1` in size. -/
def Obligations.TickDeltaIsBounded : Prop :=
  ∀ (w : Wheel) (s : State), s.TicksInRange → 1 ≤ s.cfg.tickBits →
    |(s.qd.get w).ticks - (s.ve.get w).prev| ≤ (2 : ℤ) ^ s.cfg.tickBits - 1

/-- Frame of VE.TICK (R121): only the wheel's own VE changes, or only the fault register. -/
def Obligations.FrameOfEstimator : Prop :=
  ∀ (w : Wheel) (s t : State), exec (.veTick w) s = .next t →
    t.qd = s.qd ∧ t.pid = s.pid ∧ t.act = s.act ∧ t.kin = s.kin ∧ t.st = s.st ∧ t.cfg = s.cfg ∧
    t.streams = s.streams ∧ t.schedule = s.schedule ∧ t.returned = s.returned ∧
    (∀ w', w' ≠ w → t.ve.get w' = s.ve.get w') ∧
    (t.fault = s.fault ∨ (t.fault.cause = .nonFinite ∧ t.ve = s.ve))

/-! ## The regulator -/

/-- 42_pid_velocity_regulator.md R141 and R142: PID.SET with a finite, different target sets it and clears integral
and cycles, with the current target (by Num comparison) changes nothing in the whole state, and otherwise raises
`NON_FINITE` with its record. -/
def Obligations.PidSetWritesTarget : Prop :=
  ∀ (w : Wheel) (p : Pattern) (s : State), s.Ready →
    let t := s.numOperand p
    let op : Byte := match w with | .left => 0x40#8 | .right => 0x50#8
    encode (.pidSet w p) = op :: patternBytes p ∧
    (t.isFinite = true → t.eq (s.pid.get w).target = false →
      exec (.pidSet w p) s = .next (s.setPid w
        { target := t, prevErr := (s.pid.get w).prevErr, integral := .fin false 0 0, duty := (s.pid.get w).duty,
          cycles := 0 })) ∧
    (t.isFinite = true → t.eq (s.pid.get w).target = true → exec (.pidSet w p) s = .next s) ∧
    (t.isFinite = false →
      exec (.pidSet w p) s = .next { s with fault := { cause := .nonFinite, info := op :: patternBytes p } })

/-- 42_pid_velocity_regulator.md R144 with the mode of 10_state.md R32: a STOPPED PID.TICK performs `stop()` on its
wheel and writes no PID field. -/
def Obligations.StoppedTickOnlyStops : Prop :=
  ∀ (w : Wheel) (s : State), s.Ready →
    (s.pid.get w).target.eq (.fin false 0 0) = true ∨ s.cfg.regVelFreq < (s.pid.get w).cycles →
    exec (.pidTick w) s =
      .next (s.setAct w { dirF := (s.act.get w).dirF, dirB := (s.act.get w).dirB, pwm := .fin false 0 0 })

/-- 42_pid_velocity_regulator.md R145 with the mode of 10_state.md R32: a REGULATING PID.TICK computes as written, one
rounding per operator, saturates, writes PID, drives the Actuator and counts the cycle; or it raises `NON_FINITE`. It
never raises `CV_DUTY` (60_exceptions.md R231). -/
def Obligations.RegulatingTick : Prop :=
  ∀ (w : Wheel) (s : State), s.Ready →
    (s.pid.get w).target.eq (.fin false 0 0) = false → (s.pid.get w).cycles ≤ s.cfg.regVelFreq →
    let n := s.cfg.num
    let p := s.pid.get w
    let m := (s.ve.get w).lin
    let e := Number.sub n p.target m
    let I := Number.add n p.integral e
    let der := Number.sub n e p.prevErr
    let inc := Number.add n (Number.add n (Number.mul n s.cfg.kp e) (Number.mul n s.cfg.ki I))
      (Number.mul n s.cfg.kd der)
    let raw := Number.add n p.duty inc
    let u := if Number.one.lt raw then Number.one else if raw.lt Number.negOne then Number.negOne else raw
    let op : Byte := match w with | .left => 0x41#8 | .right => 0x51#8
    (e.isFinite = true ∧ I.isFinite = true ∧ der.isFinite = true ∧ inc.isFinite = true ∧ raw.isFinite = true →
      exec (.pidTick w) s = .next
        ((s.setPid w { target := p.target, prevErr := e, integral := I, duty := u, cycles := p.cycles + 1 }).setAct w
          (if Number.zero.lt u then { dirF := true, dirB := false, pwm := u }
           else if u.lt Number.zero then { dirF := false, dirB := true, pwm := u.neg }
           else { dirF := (s.act.get w).dirF, dirB := (s.act.get w).dirB, pwm := .fin false 0 0 }))) ∧
    (¬ (e.isFinite = true ∧ I.isFinite = true ∧ der.isFinite = true ∧ inc.isFinite = true ∧ raw.isFinite = true) →
      exec (.pidTick w) s = .next { s with fault := { cause := .nonFinite, info := [op] } })

/-- 42_pid_velocity_regulator.md R147 and R148: after a PID.SET that changes the target to a nonzero value, along any
operations of which none raises and none changes the wheel's target (a PID.SET or a KIN.SET that gives the wheel an equal
target may come at any place, any number of times), the regulator has counted the wheel's PID.TICKs up to
`REG_VEL_FREQ + 1`; so the first `REG_VEL_FREQ + 1` of them are REGULATING and every later one is STOPPED. -/
def Obligations.CommandExpires : Prop :=
  ∀ (w : Wheel) (p : Pattern) (s0 s t : State) (ops : List Instr),
    exec (.pidSet w p) s0 = .next s → s.fault.cause = .none →
    (s0.numOperand p).eq (s0.pid.get w).target = false → (s0.numOperand p).eq (.fin false 0 0) = false →
    (∀ i ∈ ops, ∀ x, s0.givenTarget w i = some x → x.eq (s0.numOperand p) = true) →
    performAll ops s = .next t → t.fault.cause = .none →
    (t.pid.get w).cycles = min (ops.count (.pidTick w)) (s0.cfg.regVelFreq + 1) ∧
    (t.stopped w = true ↔ s0.cfg.regVelFreq + 1 ≤ ops.count (.pidTick w))

/-- 42_pid_velocity_regulator.md R148: a KIN.SET that gives a wheel the target it already has leaves that wheel's
regulator, its cycle count included, unchanged. -/
def Obligations.RefreshDoesNotExtend : Prop :=
  ∀ (v om : Pattern) (s t : State), exec (.kinSet v om) s = .next t →
    let n := s.cfg.num
    let spin := Number.mul n (Number.mul n (.fin false 1 (-1)) (s.numOperand om)) s.cfg.wheelSep
    ((Number.sub n (s.numOperand v) spin).eq (s.pid.get .left).target = true →
      t.pid.get .left = s.pid.get .left) ∧
    ((Number.add n (s.numOperand v) spin).eq (s.pid.get .right).target = true →
      t.pid.get .right = s.pid.get .right)

/-- 42_pid_velocity_regulator.md R149 with 10_state.md R27 and R29: only a REGULATING PID.TICK of a wheel writes its
duty or its previous error; both survive every other operation, STOPPED cycles and target changes included. -/
def Obligations.DutyAndErrorCarryOver : Prop :=
  ∀ (i : Instr) (w : Wheel) (s t : State), exec i s = .next t → (i = .pidTick w → s.stopped w = true) →
    (t.pid.get w).duty = (s.pid.get w).duty ∧ (t.pid.get w).prevErr = (s.pid.get w).prevErr

/-- Frame of PID.SET and PID.TICK (R141, R143 to R145): PID.SET writes only its wheel's target, integral and cycles;
PID.TICK only its wheel's regulator, but not the target, and Actuator; or only the fault register. -/
def Obligations.FrameOfRegulator : Prop :=
  ∀ (i : Instr) (w : Wheel) (s t : State), (∃ p, i = .pidSet w p) ∨ i = .pidTick w → exec i s = .next t →
    t.qd = s.qd ∧ t.ve = s.ve ∧ t.kin = s.kin ∧ t.st = s.st ∧ t.cfg = s.cfg ∧
    t.streams = s.streams ∧ t.schedule = s.schedule ∧ t.returned = s.returned ∧
    (∀ w', w' ≠ w → t.pid.get w' = s.pid.get w' ∧ t.act.get w' = s.act.get w') ∧
    ((∃ p, i = .pidSet w p) → t.act = s.act ∧ (t.pid.get w).duty = (s.pid.get w).duty ∧
      (t.pid.get w).prevErr = (s.pid.get w).prevErr) ∧
    (i = .pidTick w → (t.pid.get w).target = (s.pid.get w).target) ∧
    (t.fault = s.fault ∨ (t.fault.cause = .nonFinite ∧ t.pid = s.pid ∧ t.act = s.act))

/-! ## The kinematics -/

/-- 43_differential_drive_kinematics.md R171: KIN.SET computes both wheel targets as written and performs PID.SET's
writes for each, in one step; any infinity or NaN raises `NON_FINITE` with its record before any write. -/
def Obligations.KinSetSetsBothTargets : Prop :=
  ∀ (pv pom : Pattern) (s : State), s.Ready →
    let n := s.cfg.num
    let v := s.numOperand pv
    let om := s.numOperand pom
    let left := Number.sub n v (Number.mul n (Number.mul n (.fin false 1 (-1)) om) s.cfg.wheelSep)
    let right := Number.add n v (Number.mul n (Number.mul n (.fin false 1 (-1)) om) s.cfg.wheelSep)
    let retarget : Pid → Number → Pid := fun p t =>
      if p.target.eq t then p
      else { target := t, prevErr := p.prevErr, integral := .fin false 0 0, duty := p.duty, cycles := 0 }
    encode (.kinSet pv pom) = 0x60#8 :: (patternBytes pv ++ patternBytes pom) ∧
    (v.isFinite = true ∧ om.isFinite = true ∧ left.isFinite = true ∧ right.isFinite = true →
      exec (.kinSet pv pom) s = .next
        ((s.setPid .left (retarget (s.pid.get .left) left)).setPid .right (retarget (s.pid.get .right) right))) ∧
    (¬ (v.isFinite = true ∧ om.isFinite = true ∧ left.isFinite = true ∧ right.isFinite = true) →
      exec (.kinSet pv pom) s =
        .next { s with
          fault := { cause := .nonFinite, info := 0x60#8 :: (patternBytes pv ++ patternBytes pom) } })

/-- 43_differential_drive_kinematics.md R172: KIN.GET computes both measured velocities as written, caches its inputs
and results, and returns the results; or it raises `NON_FINITE` with its code byte. -/
def Obligations.KinGetReturnsMeasured : Prop :=
  ∀ s : State, s.Ready →
    let n := s.cfg.num
    let lm := (s.ve.get .left).lin
    let rm := (s.ve.get .right).lin
    let v := Number.mul n (.fin false 1 (-1)) (Number.add n lm rm)
    let om := Number.div n (Number.sub n rm lm) s.cfg.wheelSep
    encode .kinGet = [0x61#8] ∧
    (v.isFinite = true ∧ om.isFinite = true →
      exec .kinGet s = .next { s with
        kin := { lm := lm, rm := rm, v := v, om := om }, returned := s.returned ++ [(v, om)] }) ∧
    (v.isFinite = false ∨ om.isFinite = false →
      exec .kinGet s = .next { s with fault := { cause := .nonFinite, info := [0x61#8] } })

/-- 43_differential_drive_kinematics.md R174 for `om = 0.0`: if both measured velocities equal the targets a KIN.SET
gave, a KIN.GET that raises nothing returns the command exactly. -/
def Obligations.KinematicsRoundTrip : Prop :=
  ∀ (pv pom : Pattern) (s t s' t' : State),
    exec (.kinSet pv pom) s = .next t → t.fault.cause = .none → (s.numOperand pom).eq (.fin false 0 0) = true →
    s'.cfg = s.cfg → (∀ w, (s'.ve.get w).lin = (t.pid.get w).target) →
    exec .kinGet s' = .next t' → t'.fault.cause = .none →
    (∀ w, (t.pid.get w).target.eq (s.numOperand pv) = true) ∧
    ∃ v om, t'.returned = s'.returned ++ [(v, om)] ∧
      v.eq (s.numOperand pv) = true ∧ om.eq (.fin false 0 0) = true

/-- 10_state.md R35, 43_differential_drive_kinematics.md R172: the kinematics cache and the values returned feed back
into nothing: with other values in them every operation does the same to every other field. -/
def Obligations.KinCacheIsReadByNothing : Prop :=
  ∀ (i : Instr) (s t : State) (k : Kin) (r : List (Number × Number)), exec i s = .next t →
    ∃ t', exec i { s with kin := k, returned := r } = .next t' ∧
      { t' with kin := t.kin, returned := t.returned } = t

/-- Frame of KIN.SET and KIN.GET (R171, R172, R42): KIN.SET writes only both wheels' target, integral and cycles;
KIN.GET only the cache and the values returned; or only the fault register. -/
def Obligations.FrameOfKinematics : Prop :=
  (∀ (v om : Pattern) (s t : State), exec (.kinSet v om) s = .next t →
    t.qd = s.qd ∧ t.ve = s.ve ∧ t.act = s.act ∧ t.kin = s.kin ∧ t.st = s.st ∧ t.cfg = s.cfg ∧
    t.streams = s.streams ∧ t.schedule = s.schedule ∧ t.returned = s.returned ∧
    (∀ w, (t.pid.get w).duty = (s.pid.get w).duty ∧ (t.pid.get w).prevErr = (s.pid.get w).prevErr) ∧
    (t.fault = s.fault ∨ (t.fault.cause = .nonFinite ∧ t.pid = s.pid))) ∧
  (∀ s t : State, exec .kinGet s = .next t →
    t.qd = s.qd ∧ t.ve = s.ve ∧ t.pid = s.pid ∧ t.act = s.act ∧ t.st = s.st ∧ t.cfg = s.cfg ∧
    t.streams = s.streams ∧ t.schedule = s.schedule ∧
    (t.fault = s.fault ∨ (t.fault.cause = .nonFinite ∧ t.kin = s.kin ∧ t.returned = s.returned)))

/-! ## The stepper -/

/-- 44_oscillating_stepper_sequencer.md R191: ST.TICK: in REV at `-LIMIT` or above it toggles the output and moves
back, not in REV at `LIMIT` or below it toggles and moves on, and otherwise it writes nothing. -/
def Obligations.StepperTick : Prop :=
  ∀ s : State, s.Ready →
    encode .stTick = [0x80#8] ∧
    (s.st.dir = .rev → -(s.cfg.limit : ℤ) ≤ s.st.pos →
      exec .stTick s = .next { s with st := { s.st with stepOut := !s.st.stepOut, pos := s.st.pos - 1 } }) ∧
    (s.st.dir ≠ .rev → s.st.pos ≤ (s.cfg.limit : ℤ) →
      exec .stTick s = .next { s with st := { s.st with stepOut := !s.st.stepOut, pos := s.st.pos + 1 } }) ∧
    (s.st.dir = .rev → s.st.pos < -(s.cfg.limit : ℤ) → exec .stTick s = .next s) ∧
    (s.st.dir ≠ .rev → (s.cfg.limit : ℤ) < s.st.pos → exec .stTick s = .next s)

/-- 44_oscillating_stepper_sequencer.md R192 and R193: ticks move the position one by one to `LIMIT + 1` while the
direction is FWD or IDLE, and to `-LIMIT - 1` while it is REV, where it stays; the output ends toggled once per
move. -/
def Obligations.StepperSweepsToBound : Prop :=
  ∀ (k : Nat) (s : State), s.Ready →
    (s.st.dir ≠ .rev → s.st.pos ≤ (s.cfg.limit : ℤ) + 1 →
      ∃ t, performAll (List.replicate k .stTick) s = .next t ∧
        t.st.pos = min (s.st.pos + k) ((s.cfg.limit : ℤ) + 1) ∧
        (t.st.stepOut = s.st.stepOut ↔ (t.st.pos - s.st.pos) % 2 = 0)) ∧
    (s.st.dir = .rev → -(s.cfg.limit : ℤ) - 1 ≤ s.st.pos →
      ∃ t, performAll (List.replicate k .stTick) s = .next t ∧
        t.st.pos = max (s.st.pos - k) (-(s.cfg.limit : ℤ) - 1) ∧
        (t.st.stepOut = s.st.stepOut ↔ (t.st.pos - s.st.pos) % 2 = 0))

/-- 44_oscillating_stepper_sequencer.md R195: ST.SETDIR for 0, 1, -1 and every other direction a record carries. -/
def Obligations.SetDirection : Prop :=
  ∀ (d : ℤ) (s : State), s.Ready → -128 ≤ d → d ≤ 127 →
    encode (.stSetDir d) = [0x81#8, BitVec.ofInt 8 d] ∧
    (d = 0 → exec (.stSetDir d) s =
      .next { s with st := { s.st with dir := .idle, enabled := false, enLine := false } }) ∧
    (d = 1 → exec (.stSetDir d) s =
      .next { s with st := { s.st with dir := .fwd, enabled := true, enLine := true, dirLine := s.cfg.dirLevelFwd } }) ∧
    (d = -1 → exec (.stSetDir d) s =
      .next { s with st := { s.st with dir := .rev, enabled := true, enLine := true, dirLine := !s.cfg.dirLevelFwd } }) ∧
    (d ≠ 0 → d ≠ 1 → d ≠ -1 → exec (.stSetDir d) s =
      .next { s with fault := { cause := .cvDirection, info := [0x81#8, BitVec.ofInt 8 d] } })

/-- Frame of ST.TICK and ST.SETDIR (R191, R195, R196): only the stepper changes, ST.TICK only its position and output,
ST.SETDIR everything but these; or only the fault register. -/
def Obligations.FrameOfStepper : Prop :=
  ∀ (i : Instr) (s t : State), i = .stTick ∨ (∃ d, i = .stSetDir d) → exec i s = .next t →
    t.qd = s.qd ∧ t.ve = s.ve ∧ t.pid = s.pid ∧ t.act = s.act ∧ t.kin = s.kin ∧ t.cfg = s.cfg ∧
    t.streams = s.streams ∧ t.schedule = s.schedule ∧ t.returned = s.returned ∧
    (i = .stTick → t.fault = s.fault ∧ t.st.dir = s.st.dir ∧ t.st.enabled = s.st.enabled ∧
      t.st.dirLine = s.st.dirLine ∧ t.st.enLine = s.st.enLine) ∧
    ((∃ d, i = .stSetDir d) → t.st.pos = s.st.pos ∧ t.st.stepOut = s.st.stepOut) ∧
    (i = .stSetDir 0 → t.st.dirLine = s.st.dirLine) ∧
    (t.fault = s.fault ∨ (t.fault.cause = .cvDirection ∧ t.st = s.st))

/-! ## The Actuators -/

/-- 45_actuator_interface.md R210, R211 and R212: ACT.FWD and ACT.BWD with a duty whose value is in `[0, 1]` (`-0.0`
included) set the direction pair and that duty; with any other duty, a NaN included, they raise `CV_DUTY` with their
record and write nothing. -/
def Obligations.DutyContract : Prop :=
  ∀ (w : Wheel) (p : Pattern) (s : State), s.Ready →
    let duty := s.numOperand p
    let fwd : Byte := match w with | .left => 0xA0#8 | .right => 0xB0#8
    let bwd : Byte := match w with | .left => 0xA1#8 | .right => 0xB1#8
    encode (.actFwd w p) = fwd :: patternBytes p ∧ encode (.actBwd w p) = bwd :: patternBytes p ∧
    (duty.isFinite = true ∧ 0 ≤ duty.toRat ∧ duty.toRat ≤ 1 →
      exec (.actFwd w p) s = .next (s.setAct w { dirF := true, dirB := false, pwm := duty }) ∧
      exec (.actBwd w p) s = .next (s.setAct w { dirF := false, dirB := true, pwm := duty })) ∧
    (¬ (duty.isFinite = true ∧ 0 ≤ duty.toRat ∧ duty.toRat ≤ 1) →
      exec (.actFwd w p) s = .next { s with fault := { cause := .cvDuty, info := fwd :: patternBytes p } } ∧
      exec (.actBwd w p) s = .next { s with fault := { cause := .cvDuty, info := bwd :: patternBytes p } })

/-- 45_actuator_interface.md R213 and R214: ACT.STOP zeroes the duty and keeps the direction pair; ACT.HALT de-asserts
the direction pair and keeps the duty. -/
def Obligations.StopAndHalt : Prop :=
  ∀ (w : Wheel) (s : State), s.Ready →
    encode (.actStop w) = [match w with | .left => 0xA2#8 | .right => 0xB2#8] ∧
    encode (.actHalt w) = [match w with | .left => 0xA3#8 | .right => 0xB3#8] ∧
    exec (.actStop w) s =
      .next (s.setAct w { dirF := (s.act.get w).dirF, dirB := (s.act.get w).dirB, pwm := .fin false 0 0 }) ∧
    exec (.actHalt w) s =
      .next (s.setAct w { dirF := false, dirB := false, pwm := (s.act.get w).pwm })

/-- Frame of the four Actuator operations (R211 to R214): only the wheel's own outputs change, or only the fault
register. -/
def Obligations.FrameOfActuators : Prop :=
  ∀ (i : Instr) (w : Wheel) (s t : State),
    (∃ p, i = .actFwd w p) ∨ (∃ p, i = .actBwd w p) ∨ i = .actStop w ∨ i = .actHalt w → exec i s = .next t →
    t.qd = s.qd ∧ t.ve = s.ve ∧ t.pid = s.pid ∧ t.kin = s.kin ∧ t.st = s.st ∧ t.cfg = s.cfg ∧
    t.streams = s.streams ∧ t.schedule = s.schedule ∧ t.returned = s.returned ∧
    (∀ w', w' ≠ w → t.act.get w' = s.act.get w') ∧
    (t.fault = s.fault ∨ (t.fault.cause = .cvDuty ∧ t.act = s.act))

/-! ## Wheels, agents and streams -/

/-- 10_state.md R42: an operation of one wheel leaves the other wheel's bank unchanged, and does not read it: two states
that agree on the wheel's own bank, the configuration and the fault register agree on them after it. -/
def Obligations.WheelsAreIndependent : Prop :=
  (∀ (i : Instr) (w w' : Wheel) (s t : State), i.wheel = some w → w' ≠ w → exec i s = .next t →
    t.qd.get w' = s.qd.get w' ∧ t.ve.get w' = s.ve.get w' ∧ t.pid.get w' = s.pid.get w' ∧
    t.act.get w' = s.act.get w') ∧
  (∀ (i : Instr) (w : Wheel) (s s' t : State), i.wheel = some w →
    s'.qd.get w = s.qd.get w → s'.ve.get w = s.ve.get w → s'.pid.get w = s.pid.get w →
    s'.act.get w = s.act.get w → s'.cfg = s.cfg → s'.fault = s.fault → exec i s = .next t →
    ∃ t', exec i s' = .next t' ∧
      t'.qd.get w = t.qd.get w ∧ t'.ve.get w = t.ve.get w ∧ t'.pid.get w = t.pid.get w ∧
      t'.act.get w = t.act.get w ∧ t'.fault = t.fault)

/-- 10_state.md R22 with the agents of 00_scope.md R14: where the agent at its turn issues only its own operations (those
R14 lists, and KIN.GET on the command path, as 43_differential_drive_kinematics.md R172 says: log entry 13), a
step that changes a wheel's tick counter is an edge interrupt's of that wheel. -/
def Obligations.OnlyEdgeInterruptsCount : Prop :=
  ∀ (s t : State) (a : Agent) (events : List Event) (w : Wheel), s.schedule = .turn a :: events →
    (∀ i rest, decode (s.streams.get a) = .record i rest → a.mayIssue i = true) → step s = .next t →
    (t.qd.get w).ticks ≠ (s.qd.get w).ticks → ∃ ch, a = .edge w ch

/-- 30_encoding.md R79: the steps of one agent's turns perform the records of its stream in stream order, each one
after the other: they do to the state what performing those operations does, and take the records. That they also take
the turns is the form of the model's own schedule (log entry 2, DESIGN CHOICE). -/
def Obligations.StreamRunsItsRecords : Prop :=
  ∀ (a : Agent) (ops : List Instr) (s : State) (rest : List Byte) (events : List Event),
    (∀ i ∈ ops, i.wellFormed = true) → s.streams.get a = recordStream ops ++ rest →
    s.schedule = List.replicate ops.length (.turn a) ++ events → s.Ready →
    core.run ops.length s =
      mapNext (fun t => { t with schedule := events, streams := s.streams.set a rest }) (performAll ops s)

/-- 20_memory.md R55 with 70_reset_and_hazards.md R269, in the form of log entry 2 (inputs that arrive between steps):
from a ready state with nothing pending, any infinite sequence of operations that any agents issue has its sequence of
states, each the one before it transformed by that operation alone, and is a run for as long as nothing has raised,
without end if nothing ever raises. From reset a fair infinite run exists in which nothing raises and each agent issues
only the operations 00_scope.md R14 lists for it (where `CPR × GEAR_RATIO` does not round to zero or to an infinity, as
in EstimatorZeroDelta). And a reset that arrives is the next step, whatever fault is held and whatever turns are scheduled (log entry 9, DESIGN CHOICE for the form). -/
def Obligations.RunsAreFiniteOrInfinite : Prop :=
  (∀ (s : State) (issued : ℕ → Agent × Instr), s.Ready → s.schedule = [] → s.streams = .empty →
    (∀ k, (issued k).2.wellFormed = true) →
    ∃ states : ℕ → State, states 0 = s ∧
      (∀ k, (states k).fault.cause = .none → exec (issued k).2 (states k) = .next (states (k + 1))) ∧
      (∀ n, (∀ k < n, (states k).fault.cause = .none) →
        IsRun (fun k => [.issue (issued k).1 (encode (issued k).2)]) states n)) ∧
  (∀ c : Config, c.valid = true → Number.zero.lt (Number.mul c.num c.cpr c.gearRatio) = true →
    (Number.mul c.num c.cpr c.gearRatio).isFinite = true →
    ∃ (inputs : ℕ → List Input) (states : ℕ → State), states 0 = State.boot c .empty [] ∧
      IsInfiniteRun inputs states ∧ IsFair inputs states ∧ KeepsOwnership inputs states ∧ ∀ k, (states k).fault.cause = .none) ∧
  (∀ s : State, s.cfg.valid = true → advance [.reset] s = .next s.resetEvent)

/-! ## Invariants -/

/-- 10_state.md R22 and R25: every step keeps the counters and their snapshots in the counter's range. -/
def Obligations.TicksStayInRange : Prop :=
  ∀ s t : State, s.TicksInRange → step s = .next t → t.TicksInRange

/-- 10_state.md R31, 42_pid_velocity_regulator.md R146: every step keeps the bounds of the PID state. -/
def Obligations.PidBoundsAreKept : Prop :=
  ∀ s t : State, s.PidBounds → step s = .next t → t.PidBounds

/-- 10_state.md R34: every step keeps the Actuators' duties in `[0.0, 1.0]`. -/
def Obligations.PwmStaysInRange : Prop :=
  ∀ s t : State, s.PwmInRange → step s = .next t → t.PwmInRange

/-- 10_state.md R36, R37 and R39, 44_oscillating_stepper_sequencer.md R194: every step keeps the stepper's invariants:
enabled unless IDLE, the enable line following, the position within `LIMIT + 1`, the output its parity. -/
def Obligations.StepperStaysConsistent : Prop :=
  ∀ s t : State, s.StepperConsistent → step s = .next t → t.StepperConsistent

/-- 00_scope.md R10, 60_exceptions.md R233: every step keeps every Num field a finite number of the format `NUM`
names. -/
def Obligations.NumsStayInFormat : Prop :=
  ∀ s t : State, s.NumsInFormat → step s = .next t → t.NumsInFormat

/-- 10_state.md R40, 60_exceptions.md R230: every step keeps the fault register's information empty exactly when it holds
no fault. -/
def Obligations.FaultInfoStaysConsistent : Prop :=
  ∀ s t : State, s.FaultInfoConsistent → step s = .next t → t.FaultInfoConsistent

/-- 10_state.md R22 to R40: whatever the configuration and whatever the agents have to issue, the block right after
reset meets every invariant. -/
def Obligations.ResetMeetsInvariants : Prop :=
  ∀ (c : Config) (streams : Streams) (schedule : List Event),
    c.valid = true →
    (State.boot c streams schedule).Ready ∧ (State.boot c streams schedule).TicksInRange ∧
    (State.boot c streams schedule).PidBounds ∧ (State.boot c streams schedule).PwmInRange ∧
    (State.boot c streams schedule).StepperConsistent ∧ (State.boot c streams schedule).NumsInFormat ∧
    (State.boot c streams schedule).FaultInfoConsistent ∧
    (∀ w, (State.boot c streams schedule).stopped w = true)

/-- 10_state.md R31: from reset, with any configuration, along any steps of any agents (and further resets), the bounds
of the PID state hold: along the steps of what is placed at boot, and along every run with whatever arrives between its
steps. -/
def Obligations.PidBoundsHoldFromReset : Prop :=
  ∀ (c : Config) (streams : Streams) (schedule : List Event),
    (∀ (k : Nat) (t : State), core.run k (State.boot c streams schedule) = .next t → t.PidBounds) ∧
    (∀ (inputs : ℕ → List Input) (states : ℕ → State) (n : ℕ), states 0 = State.boot c streams schedule →
      IsRun inputs states n → (states n).PidBounds)
end

