-- ==== Sys2Proof/Laws/Decode.lean ====
section
/-! SUPPORT. The byte order of operand payloads (20_memory.md R51): reading the bytes of a number gives the number, and
writing the number of some bytes gives the bytes. -/

namespace Sys2Proof

@[simp] theorem length_toLeBytes (k n : Nat) : (toLeBytes k n).length = k := by
  induction k generalizing n with
  | zero => rfl
  | succ k ih => simp [toLeBytes, ih]

theorem ofLeBytes_lt (bs : List Byte) : ofLeBytes bs < 256 ^ bs.length := by
  induction bs with
  | nil => simp [ofLeBytes]
  | cons b bs ih =>
    have hb : b.toNat < 256 := b.isLt
    simp only [ofLeBytes, List.length_cons, pow_succ]
    omega

theorem ofLeBytes_toLeBytes (k n : Nat) : ofLeBytes (toLeBytes k n) = n % 256 ^ k := by
  induction k generalizing n with
  | zero => simp [toLeBytes, ofLeBytes, Nat.mod_one]
  | succ k ih =>
    have h : (BitVec.ofNat 8 (n % 256)).toNat = n % 256 := by
      rw [BitVec.toNat_ofNat]; exact Nat.mod_mod_of_dvd _ (by norm_num)
    rw [toLeBytes, ofLeBytes, ih, h, pow_succ, mul_comm (256 ^ k) 256, Nat.mod_mul]

theorem toLeBytes_ofLeBytes (bs : List Byte) : toLeBytes bs.length (ofLeBytes bs) = bs := by
  induction bs with
  | nil => rfl
  | cons b bs ih =>
    have hb : b.toNat < 256 := b.isLt
    have h1 : (b.toNat + 256 * ofLeBytes bs) % 256 = b.toNat := by omega
    have h2 : (b.toNat + 256 * ofLeBytes bs) / 256 = ofLeBytes bs := by omega
    simp only [List.length_cons, toLeBytes, ofLeBytes, h1, h2, ih]
    rw [BitVec.ofNat_toNat, BitVec.setWidth_eq]

@[simp] theorem length_patternBytes (p : Pattern) : (patternBytes p).length = 8 := length_toLeBytes 8 _

@[simp] theorem patternOf_patternBytes (p : Pattern) : patternOf (patternBytes p) = p := by
  have h : p.toNat < 256 ^ 8 := p.isLt
  rw [patternOf, patternBytes, ofLeBytes_toLeBytes, Nat.mod_eq_of_lt h, BitVec.ofNat_toNat, BitVec.setWidth_eq]

theorem patternBytes_patternOf {bs : List Byte} (h : bs.length = 8) : patternBytes (patternOf bs) = bs := by
  have hlt : ofLeBytes bs < 2 ^ 64 := by
    have h1 := ofLeBytes_lt bs
    rw [h] at h1
    exact h1
  rw [patternBytes, patternOf, BitVec.toNat_ofNat, Nat.mod_eq_of_lt hlt, ← h, toLeBytes_ofLeBytes]

end Sys2Proof
end

