-- ==== Sys2Proof/Laws/Number.lean ====
section
/-! SUPPORT. The spec lemmas of the arithmetic: exact values, comparisons as the order of the reals, and correct
rounding (00_scope.md R10). -/

namespace Sys2Proof

/-! ## Exact values -/

theorem two_zpow_pos (e : ℤ) : (0 : ℚ) < 2 ^ e := zpow_pos (by norm_num) e

theorem two_zpow_ne (e : ℤ) : (2 : ℚ) ^ e ≠ 0 := (two_zpow_pos e).ne'

/-- A power of two as a ratio of two natural ones. -/
theorem two_zpow_eq_ratio (e : ℤ) : (2 : ℚ) ^ e = 2 ^ e.toNat / 2 ^ (-e).toNat := by
  rcases le_total 0 e with h | h
  · lift e to ℕ using h
    simp
  · obtain ⟨n, rfl⟩ : ∃ n : ℕ, e = -(n : ℤ) := ⟨(-e).toNat, by omega⟩
    simp [zpow_neg, one_div]

/-- A power of two above a smaller one. -/
theorem two_zpow_toNat {e f : ℤ} (h : f ≤ e) : ((2 ^ (e - f).toNat : ℕ) : ℚ) * 2 ^ f = 2 ^ e := by
  have h1 : ((2 ^ (e - f).toNat : ℕ) : ℚ) = (2 : ℚ) ^ (e - f) := by
    have h2 : ((e - f).toNat : ℤ) = e - f := Int.toNat_of_nonneg (by omega)
    push_cast
    rw [← zpow_natCast, h2]
  rw [h1, ← zpow_add₀ (by norm_num), sub_add_cancel]

theorem signed_cast (a : Bool) (m : Nat) : ((signed a m : ℤ) : ℚ) = (if a then -1 else 1) * (m : ℚ) := by
  cases a <;> simp [signed]

/-- The exact value in units of the smaller of two exponents. -/
theorem Number.toRat_fin (a : Bool) (m : Nat) (e f : ℤ) :
    (Number.fin a m e).toRat = (signedAt a m e f : ℚ) * 2 ^ min e f := by
  rw [signedAt, signed_cast, Number.toRat]
  rcases le_total f e with h | h
  · rw [min_eq_right h]
    push_cast
    rw [mul_assoc, mul_assoc, mul_assoc]
    have := two_zpow_toNat h
    push_cast at this
    rw [this]
  · rw [min_eq_left h, Int.toNat_of_nonpos (by omega)]
    simp

@[simp] theorem Number.toRat_zero : Number.zero.toRat = 0 := by simp [Number.zero, Number.toRat]
@[simp] theorem Number.toRat_one : Number.one.toRat = 1 := by simp [Number.one, Number.toRat]
@[simp] theorem Number.toRat_negOne : Number.negOne.toRat = -1 := by simp [Number.negOne, Number.toRat]

@[simp] theorem Number.toRat_neg (x : Number) : x.neg.toRat = -x.toRat := by
  cases x with
  | fin a m e => cases a <;> simp [Number.neg, Number.toRat]
  | inf a => simp [Number.neg, Number.toRat]
  | nan => simp [Number.neg, Number.toRat]

@[simp] theorem Number.isFinite_neg (x : Number) : x.neg.isFinite = x.isFinite := by cases x <;> rfl

@[simp] theorem Number.neg_of_neg (x : Number) : x.neg.neg = x := by cases x <;> simp [Number.neg]

theorem Number.exists_of_isFinite {x : Number} (h : x.isFinite = true) : ∃ a m e, x = .fin a m e := by
  cases x with
  | fin a m e => exact ⟨a, m, e, rfl⟩
  | inf a => cases h
  | nan => cases h

/-! ## Comparisons are the order of the reals -/

theorem Number.lt_iff {x y : Number} (hx : x.isFinite = true) (hy : y.isFinite = true) :
    x.lt y = true ↔ x.toRat < y.toRat := by
  obtain ⟨a, m, e, rfl⟩ := Number.exists_of_isFinite hx
  obtain ⟨b, n, f, rfl⟩ := Number.exists_of_isFinite hy
  rw [Number.toRat_fin a m e f, Number.toRat_fin b n f e, min_comm f e,
    mul_lt_mul_iff_left₀ (two_zpow_pos _), Int.cast_lt]
  simp [Number.lt]

theorem Number.eq_iff {x y : Number} (hx : x.isFinite = true) (hy : y.isFinite = true) :
    x.eq y = true ↔ x.toRat = y.toRat := by
  obtain ⟨a, m, e, rfl⟩ := Number.exists_of_isFinite hx
  obtain ⟨b, n, f, rfl⟩ := Number.exists_of_isFinite hy
  rw [Number.toRat_fin a m e f, Number.toRat_fin b n f e, min_comm f e,
    mul_left_inj' (two_zpow_ne _), Int.cast_inj]
  simp [Number.eq]

theorem Number.le_iff {x y : Number} (hx : x.isFinite = true) (hy : y.isFinite = true) :
    x.le y = true ↔ x.toRat ≤ y.toRat := by
  rw [Number.le, Bool.or_eq_true, Number.lt_iff hx hy, Number.eq_iff hx hy, le_iff_lt_or_eq]

/-- What lies between two finite numbers is finite. -/
theorem Number.isFinite_of_le {x y z : Number} (hx : x.isFinite = true) (hz : z.isFinite = true)
    (h1 : x.le y = true) (h2 : y.le z = true) : y.isFinite = true := by
  obtain ⟨a, m, e, rfl⟩ := Number.exists_of_isFinite hx
  obtain ⟨b, n, f, rfl⟩ := Number.exists_of_isFinite hz
  cases y with
  | fin c k g => rfl
  | inf c => cases c <;> simp [Number.le, Number.lt, Number.eq] at h1 h2
  | nan => simp [Number.le, Number.lt, Number.eq] at h1

/-! ## The one form of a significand -/

theorem stripTwos_spec (fuel m : Nat) (e : ℤ) :
    ∃ j : ℕ, m = (stripTwos fuel m e).1 * 2 ^ j ∧ (stripTwos fuel m e).2 = e + j := by
  induction fuel generalizing m e with
  | zero => exact ⟨0, by simp [stripTwos]⟩
  | succ fuel ih =>
    unfold stripTwos
    split
    · rename_i h
      obtain ⟨j, h1, h2⟩ := ih (m / 2) (e + 1)
      refine ⟨j + 1, ?_, by rw [h2]; push_cast; ring⟩
      rw [pow_succ, ← mul_assoc, ← h1]
      omega
    · exact ⟨0, by simp⟩

theorem stripTwos_odd (fuel m : Nat) (e : ℤ) (hm : m ≠ 0) (hf : m < 2 ^ (fuel + 1)) :
    (stripTwos fuel m e).1 % 2 = 1 := by
  induction fuel generalizing m e with
  | zero => simp only [stripTwos]; omega
  | succ fuel ih =>
    unfold stripTwos
    split
    · exact ih _ _ (by omega) (by rw [pow_succ] at hf; omega)
    · simp only; omega

theorem Number.ofScaled_zero (a : Bool) (e : ℤ) : Number.ofScaled a 0 e = .fin a 0 0 := by simp [Number.ofScaled]

/-- The form of a nonzero scaled significand: odd, with the exponent raised by the twos taken out. -/
theorem Number.ofScaled_spec (a : Bool) (m : Nat) (e : ℤ) (hm : m ≠ 0) :
    ∃ m' j : ℕ, Number.ofScaled a m e = .fin a m' (e + j) ∧ m = m' * 2 ^ j ∧ m' % 2 = 1 := by
  obtain ⟨j, h1, h2⟩ := stripTwos_spec m.log2 m e
  refine ⟨_, j, ?_, h1, stripTwos_odd _ _ _ hm ?_⟩
  · rw [Number.ofScaled, if_neg hm, h2]
  · exact Nat.lt_log2_self

@[simp] theorem Number.isFinite_ofScaled (a : Bool) (m : Nat) (e : ℤ) : (Number.ofScaled a m e).isFinite = true := by
  unfold Number.ofScaled; split <;> rfl

theorem Number.toRat_ofScaled (a : Bool) (m : Nat) (e : ℤ) :
    (Number.ofScaled a m e).toRat = (if a then -1 else 1) * (m : ℚ) * 2 ^ e := by
  by_cases hm : m = 0
  · subst hm; simp [Number.ofScaled, Number.toRat]
  · obtain ⟨m', j, h1, h2, -⟩ := Number.ofScaled_spec a m e hm
    rw [h1, Number.toRat, h2, zpow_add₀ (by norm_num)]
    push_cast
    rw [zpow_natCast]
    ring

theorem Number.neg_ofScaled (a : Bool) (m : Nat) (e : ℤ) : (Number.ofScaled a m e).neg = .ofScaled (!a) m e := by
  unfold Number.ofScaled; split <;> rfl

/-! ## The pieces of rounding -/

/-- The integer nearest to a ratio: no integer is nearer, and of two equally near it is the even one. -/
theorem roundTiesEven_spec {n d : Nat} (hd : 0 < d) (j : ℤ) :
    |((roundTiesEven n d : ℕ) : ℚ) - (n : ℚ) / d| ≤ |(j : ℚ) - (n : ℚ) / d| ∧
    (|(j : ℚ) - (n : ℚ) / d| = |((roundTiesEven n d : ℕ) : ℚ) - (n : ℚ) / d| → j ≠ (roundTiesEven n d : ℕ) →
      roundTiesEven n d % 2 = 0 ∧ j % 2 = 1) := by
  have hd' : (0 : ℚ) < d := by exact_mod_cast hd
  have key : ∀ z : ℤ, |(z : ℚ) - (n : ℚ) / d| = ((|z * d - n| : ℤ) : ℚ) / d := by
    intro z
    have h1 : (z : ℚ) - (n : ℚ) / d = (z * d - n) / d := by field_simp
    rw [h1, abs_div, abs_of_pos hd']
    push_cast
    rfl
  have hr := Nat.div_add_mod n d
  have hlt := Nat.mod_lt n hd
  generalize hq : n / d = q at *
  generalize hm : n % d = r at *
  have hn : (n : ℤ) = d * q + r := by exact_mod_cast hr.symm
  have cmp : ∀ z z' : ℤ, |z * d - n| ≤ |z' * d - n| → |(z : ℚ) - (n : ℚ) / d| ≤ |(z' : ℚ) - (n : ℚ) / d| := by
    intro z z' h
    rw [key, key]
    gcongr
  have hdz : (0 : ℤ) < d := by exact_mod_cast hd
  have hrz : (r : ℤ) < d := by exact_mod_cast hlt
  have hr0 : (0 : ℤ) ≤ r := by positivity
  have below : ∀ z : ℤ, z ≤ q → (r : ℤ) + (q - z) * d = |z * d - n| := by
    intro z hz
    rw [abs_of_nonpos (by nlinarith)]
    rw [hn]; ring
  have above : ∀ z : ℤ, (q : ℤ) + 1 ≤ z → (d - r : ℤ) + (z - q - 1) * d = |z * d - n| := by
    intro z hz
    rw [abs_of_nonneg (by nlinarith)]
    rw [hn]; ring
  have hcast : ∀ z : ℤ, |(j : ℚ) - (n : ℚ) / d| = |(z : ℚ) - (n : ℚ) / d| → |j * d - n| = |z * d - n| := by
    intro z h
    rw [key, key] at h
    have := (div_left_inj' hd'.ne').mp h
    exact_mod_cast this
  have hM : roundTiesEven n d = q ∧ (2 * r < d ∨ (2 * r = d ∧ q % 2 = 0)) ∨
      roundTiesEven n d = q + 1 ∧ (d < 2 * r ∨ (2 * r = d ∧ q % 2 = 1)) := by
    unfold roundTiesEven
    rw [hq, hm]
    split
    · exact .inl ⟨rfl, .inl ‹_›⟩
    · split
      · exact .inr ⟨rfl, .inl ‹_›⟩
      · split
        · exact .inl ⟨rfl, .inr ⟨by omega, ‹_›⟩⟩
        · exact .inr ⟨rfl, .inr ⟨by omega, by omega⟩⟩
  rcases hM with ⟨hM, hc⟩ | ⟨hM, hc⟩
  · rw [hM]
    have hb := below q le_rfl
    rw [sub_self, zero_mul, add_zero] at hb
    refine ⟨?_, ?_⟩
    · have := cmp q j (by
        rw [← hb]
        rcases le_or_gt j q with h | h
        · rw [← below j h]; nlinarith
        · rw [← above j h]
          have : (0 : ℤ) ≤ (j - q - 1) * d := by nlinarith
          omega)
      exact_mod_cast this
    · intro heq hne
      have h1 := hcast q (by exact_mod_cast heq)
      rw [← hb] at h1
      rcases le_or_gt j q with h | h
      · rw [← below j h] at h1
        have : (q - j : ℤ) * d = 0 := by omega
        rcases mul_eq_zero.mp this with h2 | h2
        · exact absurd (by omega) hne
        · omega
      · rw [← above j h] at h1
        have h2 : (0 : ℤ) ≤ (j - q - 1) * d := by nlinarith
        rcases hc with hc | ⟨hc, hev⟩
        · omega
        · have h3 : (j - q - 1 : ℤ) * d = 0 := by omega
          rcases mul_eq_zero.mp h3 with h4 | h4
          · exact ⟨hev, by omega⟩
          · omega
  · rw [hM]
    have hb := above (q + 1) le_rfl
    have hb' : (d - r : ℤ) = |((q : ℤ) + 1) * d - n| := by rw [← hb]; ring
    refine ⟨?_, ?_⟩
    · have := cmp (q + 1) j (by
        rw [← hb']
        rcases le_or_gt j q with h | h
        · rw [← below j h]
          have : (0 : ℤ) ≤ (q - j) * d := by nlinarith
          omega
        · rw [← above j h]; nlinarith)
      exact_mod_cast this
    · intro heq hne
      have h1 := hcast (q + 1) (by exact_mod_cast heq)
      rw [← hb'] at h1
      rcases le_or_gt j q with h | h
      · rw [← below j h] at h1
        have h2 : (0 : ℤ) ≤ (q - j) * d := by nlinarith
        rcases hc with hc | ⟨hc, hod⟩
        · omega
        · have h3 : (q - j : ℤ) * d = 0 := by omega
          rcases mul_eq_zero.mp h3 with h4 | h4
          · exact ⟨by omega, by omega⟩
          · omega
      · rw [← above j h] at h1
        have h2 : (j - q - 1 : ℤ) * d = 0 := by omega
        rcases mul_eq_zero.mp h2 with h4 | h4
        · exact absurd (by push_cast; omega) hne
        · omega

/-- The exponent of a positive ratio. -/
theorem ratioExponent_spec {n d : Nat} (hn : n ≠ 0) (hd : d ≠ 0) :
    (2 : ℚ) ^ ratioExponent n d ≤ (n : ℚ) / d ∧ (n : ℚ) / d < 2 ^ (ratioExponent n d + 1) := by
  have hd' : (0 : ℚ) < d := by positivity
  have cmp : ∀ k : ℤ, n * 2 ^ (-k).toNat < d * 2 ^ k.toNat ↔ (n : ℚ) / d < 2 ^ k := by
    intro k
    rw [two_zpow_eq_ratio k, div_lt_div_iff₀ hd' (by positivity)]
    rw [mul_comm (2 ^ k.toNat : ℚ)]
    exact_mod_cast Iff.rfl
  have h1 : (2 : ℚ) ^ (n.log2 : ℤ) ≤ n := by
    rw [zpow_natCast]; exact_mod_cast Nat.log2_self_le hn
  have h2 : (n : ℚ) < 2 ^ ((n.log2 : ℤ) + 1) := by
    have : (n : ℚ) < 2 ^ (n.log2 + 1) := by exact_mod_cast Nat.lt_log2_self
    exact_mod_cast this
  have h3 : (2 : ℚ) ^ (d.log2 : ℤ) ≤ d := by
    rw [zpow_natCast]; exact_mod_cast Nat.log2_self_le hd
  have h4 : (d : ℚ) < 2 ^ ((d.log2 : ℤ) + 1) := by
    have : (d : ℚ) < 2 ^ (d.log2 + 1) := by exact_mod_cast Nat.lt_log2_self
    exact_mod_cast this
  have upper : (n : ℚ) / d < 2 ^ ((n.log2 : ℤ) - d.log2 + 1) := by
    rw [div_lt_iff₀ hd']
    calc (n : ℚ) < 2 ^ ((n.log2 : ℤ) + 1) := h2
      _ = 2 ^ ((n.log2 : ℤ) - d.log2 + 1) * 2 ^ (d.log2 : ℤ) := by
          rw [← zpow_add₀ (by norm_num)]; congr 1; ring
      _ ≤ _ := by gcongr
  have lower : (2 : ℚ) ^ ((n.log2 : ℤ) - d.log2 - 1) ≤ (n : ℚ) / d := by
    rw [le_div_iff₀ hd']
    calc (2 : ℚ) ^ ((n.log2 : ℤ) - d.log2 - 1) * d ≤ 2 ^ ((n.log2 : ℤ) - d.log2 - 1) * 2 ^ ((d.log2 : ℤ) + 1) := by
          gcongr
      _ = 2 ^ (n.log2 : ℤ) := by rw [← zpow_add₀ (by norm_num)]; congr 1; ring
      _ ≤ n := h1
  unfold ratioExponent
  simp only
  split
  · rename_i h
    exact ⟨lower, by rw [sub_add_cancel]; exact (cmp _).mp h⟩
  · rename_i h
    exact ⟨not_lt.mp (fun h' => h ((cmp _).mpr h')), upper⟩

theorem NumFormat.one_le_precision (f : NumFormat) : 1 ≤ f.precision := by cases f <;> decide

/-! ## Rounding -/

/-- The significand `Number.round` gives a positive ratio. -/
def roundedSignificand (f : NumFormat) (n d : Nat) : Nat :=
  roundTiesEven (n * 2 ^ (-f.quantum (ratioExponent n d)).toNat) (d * 2 ^ (f.quantum (ratioExponent n d)).toNat)

theorem scaled_ratio (n d : Nat) (q : ℤ) :
    ((n * 2 ^ (-q).toNat : ℕ) : ℚ) / ((d * 2 ^ q.toNat : ℕ) : ℚ) = (n : ℚ) / d / 2 ^ q := by
  rw [two_zpow_eq_ratio q]
  push_cast
  rw [div_div_div_eq]

theorem Number.round_zero (f : NumFormat) (a : Bool) (d : Nat) : Number.round f a 0 d = .fin a 0 0 := by
  simp [Number.round]

/-- A nonzero ratio rounds to its significand, or to an infinity. -/
theorem Number.round_eq (f : NumFormat) (a : Bool) {n d : Nat} (hn : n ≠ 0) :
    Number.round f a n d =
      if (2 : ℚ) ^ (f.maxExp + 1) ≤ roundedSignificand f n d * 2 ^ f.quantum (ratioExponent n d) then .inf a
      else .ofScaled a (roundedSignificand f n d) (f.quantum (ratioExponent n d)) := by
  have overflow : ∀ (M : ℕ) (q : ℤ),
      (M ≠ 0 ∧ (f.maxExp : ℤ) < (M.log2 : ℤ) + q) ↔ (2 : ℚ) ^ (f.maxExp + 1) ≤ M * 2 ^ q := by
    intro M q
    have hE : (2 : ℚ) ^ (f.maxExp + 1) = 2 ^ ((f.maxExp : ℤ) + 1) := by exact_mod_cast rfl
    have hq := two_zpow_pos q
    rw [hE]
    constructor
    · rintro ⟨hM, h⟩
      have hlog : (2 : ℚ) ^ (M.log2 : ℤ) ≤ M := by rw [zpow_natCast]; exact_mod_cast Nat.log2_self_le hM
      calc (2 : ℚ) ^ ((f.maxExp : ℤ) + 1) ≤ 2 ^ ((M.log2 : ℤ) + q) := zpow_le_zpow_right₀ (by norm_num) (by omega)
        _ = 2 ^ (M.log2 : ℤ) * 2 ^ q := zpow_add₀ (by norm_num) _ _
        _ ≤ M * 2 ^ q := mul_le_mul_of_nonneg_right hlog hq.le
    · intro h
      have hM : M ≠ 0 := by
        rintro rfl
        have := two_zpow_pos ((f.maxExp : ℤ) + 1)
        rw [Nat.cast_zero, zero_mul] at h
        linarith
      have hlog : (M : ℚ) < 2 ^ ((M.log2 : ℤ) + 1) := by
        have : (M : ℚ) < 2 ^ (M.log2 + 1) := by exact_mod_cast Nat.lt_log2_self
        exact_mod_cast this
      have h2 : (2 : ℚ) ^ ((f.maxExp : ℤ) + 1) < 2 ^ ((M.log2 : ℤ) + 1 + q) := by
        rw [zpow_add₀ (by norm_num) _ q]
        exact h.trans_lt (mul_lt_mul_of_pos_right hlog hq)
      have := (zpow_lt_zpow_iff_right₀ (by norm_num : (1 : ℚ) < 2)).mp h2
      exact ⟨hM, by omega⟩
  simp only [Number.round, if_neg hn]
  exact if_congr (overflow _ _) rfl rfl

/-- Negating a rounded value is rounding the negated value: nearest-even is symmetric about zero (R124). -/
theorem Number.neg_round (f : NumFormat) (a : Bool) (n d : Nat) :
    (Number.round f a n d).neg = .round f (!a) n d := by
  by_cases hn : n = 0
  · subst hn; simp [Number.round_zero, Number.neg]
  · rw [Number.round_eq f a hn, Number.round_eq f (!a) hn]
    split
    · rfl
    · exact Number.neg_ofScaled _ _ _

/-- The significand a ratio rounds to: the nearest integer in units of the quantum, at most `2 ^ precision`. -/
theorem roundedSignificand_spec (f : NumFormat) {n d : Nat} (hd : d ≠ 0) (j : ℤ) :
    |(roundedSignificand f n d : ℚ) - (n : ℚ) / d / 2 ^ f.quantum (ratioExponent n d)| ≤
        |(j : ℚ) - (n : ℚ) / d / 2 ^ f.quantum (ratioExponent n d)| ∧
    (|(j : ℚ) - (n : ℚ) / d / 2 ^ f.quantum (ratioExponent n d)| =
        |(roundedSignificand f n d : ℚ) - (n : ℚ) / d / 2 ^ f.quantum (ratioExponent n d)| →
      j ≠ roundedSignificand f n d → roundedSignificand f n d % 2 = 0 ∧ j % 2 = 1) := by
  have h := roundTiesEven_spec (n := n * 2 ^ (-f.quantum (ratioExponent n d)).toNat)
    (d := d * 2 ^ (f.quantum (ratioExponent n d)).toNat) (by positivity) j
  rw [scaled_ratio] at h
  exact h

theorem roundedSignificand_le (f : NumFormat) {n d : Nat} (hn : n ≠ 0) (hd : d ≠ 0) :
    roundedSignificand f n d ≤ 2 ^ f.precision := by
  obtain ⟨-, hx⟩ := ratioExponent_spec hn hd
  have hp := f.one_le_precision
  have hq : ratioExponent n d + 1 ≤ f.precision + f.quantum (ratioExponent n d) := by
    unfold NumFormat.quantum; omega
  have hy : (n : ℚ) / d / 2 ^ f.quantum (ratioExponent n d) < 2 ^ f.precision := by
    rw [div_lt_iff₀ (two_zpow_pos _), ← zpow_natCast, ← zpow_add₀ (by norm_num)]
    exact hx.trans_le (zpow_le_zpow_right₀ (by norm_num) hq)
  have h := (roundedSignificand_spec (n := n) f hd (2 ^ f.precision : ℕ)).1
  by_contra hlt
  push Not at hlt
  have hlt' : ((2 ^ f.precision : ℕ) : ℚ) + 1 ≤ roundedSignificand f n d := by exact_mod_cast hlt
  push_cast at h hlt'
  rw [abs_of_nonneg (by linarith), abs_of_nonneg (by linarith)] at h
  linarith

/-- A rounded number is one of the format's. -/
theorem Number.inFormat_round (f : NumFormat) (a : Bool) {n d : Nat} (hd : d ≠ 0) :
    (Number.round f a n d).inFormat f = true := by
  by_cases hn : n = 0
  · subst hn; simp [Number.round_zero, Number.inFormat]
  · rw [Number.round_eq f a hn]
    split
    · rfl
    · rename_i hov
      push Not at hov
      have hle := roundedSignificand_le f hn hd
      have hq : f.minQuantum ≤ f.quantum (ratioExponent n d) := le_max_right _ _
      generalize f.quantum (ratioExponent n d) = q at *
      generalize roundedSignificand f n d = M at *
      by_cases hM : M = 0
      · subst hM; simp [Number.ofScaled_zero, Number.inFormat]
      · obtain ⟨m', j, h1, h2, h3⟩ := Number.ofScaled_spec a M q hM
        have hm0 : m' ≠ 0 := by rintro rfl; simp at h2; exact hM h2
        rw [h1]
        simp only [Number.inFormat, Bool.or_eq_true, Bool.and_eq_true, decide_eq_true_eq]
        refine .inr ⟨⟨⟨h3, ?_⟩, by omega⟩, ?_⟩
        · rcases Nat.eq_zero_or_pos j with hj | hj
          · subst hj
            simp only [pow_zero, mul_one] at h2
            subst h2
            rcases hle.lt_or_eq with h | h
            · exact h
            · have := f.one_le_precision
              obtain ⟨p, hp⟩ : ∃ p, f.precision = p + 1 := ⟨f.precision - 1, by omega⟩
              rw [hp, pow_succ] at h
              omega
          · have : m' * 2 ≤ M := by
              rw [h2]
              exact Nat.mul_le_mul_left _ (by
                calc 2 = 2 ^ 1 := rfl
                  _ ≤ 2 ^ j := Nat.pow_le_pow_right (by norm_num) hj)
            have := Nat.pos_of_ne_zero hm0
            omega
        · have h4 : (2 : ℚ) ^ ((m'.log2 : ℤ) + (q + j)) < 2 ^ ((f.maxExp : ℤ) + 1) := by
            calc (2 : ℚ) ^ ((m'.log2 : ℤ) + (q + j)) = 2 ^ m'.log2 * 2 ^ (q + j) := by
                  rw [zpow_add₀ (by norm_num), zpow_natCast]
              _ ≤ (m' : ℚ) * 2 ^ (q + j) := by
                  have : ((2 ^ m'.log2 : ℕ) : ℚ) ≤ m' := by exact_mod_cast Nat.log2_self_le hm0
                  push_cast at this
                  gcongr
              _ = (M : ℚ) * 2 ^ q := by
                  rw [h2, zpow_add₀ (by norm_num), zpow_natCast]; push_cast; ring
              _ < _ := by exact_mod_cast hov
          have := (zpow_lt_zpow_iff_right₀ (by norm_num : (1 : ℚ) < 2)).mp h4
          omega

/-- What a positive ratio rounds to, when that is finite: no number of the format is nearer, and of two numbers
equally near it is the one with the even last digit. -/
theorem Number.round_nearest_pos (f : NumFormat) {n d : Nat} (hn : n ≠ 0) (hd : d ≠ 0)
    (hfin : (Number.round f false n d).isFinite = true) {v : Number} (hv : v.isFinite = true)
    (hvf : v.inFormat f = true) :
    |(Number.round f false n d).toRat - (n : ℚ) / d| ≤ |v.toRat - (n : ℚ) / d| ∧
    (|v.toRat - (n : ℚ) / d| = |(Number.round f false n d).toRat - (n : ℚ) / d| →
      v.toRat ≠ (Number.round f false n d).toRat →
      (Number.round f false n d).toRat = 0 ∨ v.lastExponent < (Number.round f false n d).lastExponent) := by
  have hxpos : (0 : ℚ) < (n : ℚ) / d := by positivity
  obtain ⟨hlo, -⟩ := ratioExponent_spec hn hd
  have hspec := roundedSignificand_spec (n := n) f hd
  rw [Number.round_eq f false hn] at hfin ⊢
  split at hfin
  · cases hfin
  · rename_i hov
    rw [if_neg hov]
    have hquant : f.quantum (ratioExponent n d) =
        max (ratioExponent n d - ((f.precision : ℤ) - 1)) f.minQuantum := rfl
    generalize hq : f.quantum (ratioExponent n d) = q at *
    generalize ratioExponent n d = k at *
    generalize roundedSignificand f n d = M at *
    generalize (n : ℚ) / d = x at *
    have hqp := two_zpow_pos q
    have hr : (Number.ofScaled false M q).toRat = (M : ℚ) * 2 ^ q := by simp [Number.toRat_ofScaled]
    have scale : ∀ y : ℚ, |y * 2 ^ q - x| = |y - x / 2 ^ q| * 2 ^ q := by
      intro y
      rw [← abs_of_pos hqp, ← abs_mul, abs_of_pos hqp, sub_mul, div_mul_cancel₀ _ hqp.ne']
    have near : ∀ j : ℤ, |(M : ℚ) * 2 ^ q - x| ≤ |(j : ℚ) * 2 ^ q - x| := by
      intro j
      rw [scale, scale]
      exact mul_le_mul_of_nonneg_right (hspec j).1 hqp.le
    have even : ∀ j : ℤ, |(j : ℚ) * 2 ^ q - x| = |(M : ℚ) * 2 ^ q - x| → j ≠ M → M % 2 = 0 ∧ j % 2 = 1 := by
      intro j h hne
      rw [scale, scale] at h
      exact (hspec j).2 (mul_right_cancel₀ hqp.ne' h) hne
    rw [hr]
    obtain ⟨a, m, e, rfl⟩ := Number.exists_of_isFinite hv
    simp only [Number.inFormat, Bool.or_eq_true, Bool.and_eq_true, decide_eq_true_eq] at hvf
    -- a number that is a multiple of the quantum
    by_cases hmul : ∃ j : ℤ, (Number.fin a m e).toRat = (j : ℚ) * 2 ^ q ∧ (j % 2 = 1 → e ≤ q)
    · obtain ⟨j, hj, hje⟩ := hmul
      rw [hj]
      refine ⟨near j, fun h hne => ?_⟩
      have hjM : j ≠ M := by rintro rfl; exact hne (by push_cast; ring)
      obtain ⟨hev, hod⟩ := even j h hjM
      by_cases hM : M = 0
      · left; subst hM; simp
      · right
        obtain ⟨m', i, h1, h2, h3⟩ := Number.ofScaled_spec false M q hM
        rw [h1]
        have hi : i ≠ 0 := by rintro rfl; simp at h2; omega
        have := hje hod
        simp only [Number.lastExponent]
        omega
    · -- otherwise it is below the binade, and the binade's first number is at least as near
      have hm0 : m ≠ 0 := by
        rintro rfl
        exact hmul ⟨0, by simp [Number.toRat], by intro h; omega⟩
      obtain ⟨⟨⟨hmod, hmp⟩, hem⟩, -⟩ := hvf.resolve_left (fun h => hm0 h.1)
      have heq : e < q := by
        by_contra hge
        push Not at hge
        refine hmul ⟨(if a then -1 else 1) * (m * 2 ^ (e - q).toNat : ℕ), ?_, ?_⟩
        · rw [Number.toRat, ← two_zpow_toNat hge]
          cases a <;> push_cast <;> ring
        · intro h
          by_contra hgt
          push Not at hgt
          obtain ⟨i, hi⟩ : ∃ i : ℕ, (e - q).toNat = i + 1 := ⟨(e - q).toNat - 1, by omega⟩
          rw [hi, pow_succ] at h
          rw [← mul_assoc] at h
          cases a <;> simp at h
      have hqk : q = k - ((f.precision : ℤ) - 1) := by
        rcases max_choice (k - ((f.precision : ℤ) - 1)) f.minQuantum with h | h
        · rw [hquant, h]
        · rw [h] at hquant; omega
      have hvlt : (Number.fin a m e).toRat < 2 ^ k := by
        have h1 : (m : ℚ) * 2 ^ e < 2 ^ k := by
          calc (m : ℚ) * 2 ^ e < 2 ^ f.precision * 2 ^ e := by
                have : (m : ℚ) < ((2 ^ f.precision : ℕ) : ℚ) := by exact_mod_cast hmp
                push_cast at this
                exact mul_lt_mul_of_pos_right this (two_zpow_pos _)
            _ = 2 ^ ((f.precision : ℤ) + e) := by rw [zpow_add₀ (by norm_num), zpow_natCast]
            _ ≤ 2 ^ k := zpow_le_zpow_right₀ (by norm_num) (by omega)
        have h2 : (0 : ℚ) ≤ (m : ℚ) * 2 ^ e := by positivity
        cases a
        · simpa [Number.toRat] using h1
        · have : (Number.fin true m e).toRat = -((m : ℚ) * 2 ^ e) := by simp [Number.toRat]
          rw [this]
          linarith
      have hbin : ((2 ^ (f.precision - 1) : ℕ) : ℚ) * 2 ^ q = 2 ^ k := by
        have hp := f.one_le_precision
        push_cast
        rw [← zpow_natCast, ← zpow_add₀ (by norm_num)]
        congr 1
        omega
      have hstrict : |(M : ℚ) * 2 ^ q - x| < |(Number.fin a m e).toRat - x| := by
        have h1 := near ((2 ^ (f.precision - 1) : ℕ) : ℤ)
        have h2 : (((2 ^ (f.precision - 1) : ℕ) : ℤ) : ℚ) * 2 ^ q = 2 ^ k := by
          rw [← hbin]; push_cast; rfl
        rw [h2, abs_of_nonpos (by linarith : (2 : ℚ) ^ k - x ≤ 0)] at h1
        rw [abs_of_nonpos (by linarith : (Number.fin a m e).toRat - x ≤ 0)]
        linarith
      exact ⟨hstrict.le, fun h => absurd h hstrict.ne'⟩

/-! ## Signs and membership -/

@[simp] theorem Number.inFormat_neg (f : NumFormat) (x : Number) : x.neg.inFormat f = x.inFormat f := by
  cases x <;> rfl

@[simp] theorem Number.inFormat_zero (f : NumFormat) : Number.zero.inFormat f = true := by cases f <;> decide
@[simp] theorem Number.inFormat_one (f : NumFormat) : Number.one.inFormat f = true := by cases f <;> decide
@[simp] theorem Number.inFormat_negOne (f : NumFormat) : Number.negOne.inFormat f = true := by cases f <;> decide
@[simp] theorem Number.inFormat_half (f : NumFormat) : Number.half.inFormat f = true := by cases f <;> decide
@[simp] theorem Number.isFinite_zero : Number.zero.isFinite = true := rfl
@[simp] theorem Number.isFinite_one : Number.one.isFinite = true := rfl
@[simp] theorem Number.isFinite_negOne : Number.negOne.isFinite = true := rfl

@[simp] theorem Number.inFormat_roundScaled (f : NumFormat) (a : Bool) (m : Nat) (e : ℤ) :
    (Number.roundScaled f a m e).inFormat f = true := Number.inFormat_round f a (by positivity)

@[simp] theorem Number.inFormat_add (f : NumFormat) (x y : Number) : (Number.add f x y).inFormat f = true := by
  unfold Number.add
  split
  · simp only
    split
    · simp [Number.inFormat]
    · simp
  all_goals first | rfl | (split <;> rfl)

@[simp] theorem Number.inFormat_sub (f : NumFormat) (x y : Number) : (Number.sub f x y).inFormat f = true :=
  Number.inFormat_add f x y.neg

@[simp] theorem Number.inFormat_mul (f : NumFormat) (x y : Number) : (Number.mul f x y).inFormat f = true := by
  unfold Number.mul
  split
  · simp
  all_goals first | rfl | (split <;> rfl)

@[simp] theorem Number.inFormat_div (f : NumFormat) (x y : Number) : (Number.div f x y).inFormat f = true := by
  unfold Number.div
  split
  · split
    · split <;> rfl
    · rename_i h
      exact Number.inFormat_round f _ (by positivity)
  all_goals rfl

@[simp] theorem Number.inFormat_ofInt (f : NumFormat) (i : ℤ) : (Number.ofInt f i).inFormat f = true :=
  Number.inFormat_round f _ (by norm_num)

@[simp] theorem Number.inFormat_convert (f : NumFormat) (x : Number) : (Number.convert f x).inFormat f = true := by
  cases x with
  | fin a m e => exact Number.inFormat_roundScaled f a m e
  | inf a => rfl
  | nan => rfl

/-! ## Correct rounding -/

/-- The sign of a value. -/
def signRat (a : Bool) : ℚ := if a then -1 else 1

/-- What a nonzero ratio rounds to, when that is finite: no number of the format is nearer, and of two numbers
equally near it is the one with the even last digit (R10). -/
theorem Number.round_nearest (f : NumFormat) (a : Bool) {n d : Nat} (hn : n ≠ 0) (hd : d ≠ 0)
    (hfin : (Number.round f a n d).isFinite = true) {v : Number} (hv : v.isFinite = true)
    (hvf : v.inFormat f = true) :
    |(Number.round f a n d).toRat - signRat a * ((n : ℚ) / d)| ≤ |v.toRat - signRat a * ((n : ℚ) / d)| ∧
    (|v.toRat - signRat a * ((n : ℚ) / d)| = |(Number.round f a n d).toRat - signRat a * ((n : ℚ) / d)| →
      v.toRat ≠ (Number.round f a n d).toRat →
      (Number.round f a n d).toRat = 0 ∨ v.lastExponent < (Number.round f a n d).lastExponent) := by
  cases a with
  | false =>
    simp only [signRat, Bool.false_eq_true, if_false, one_mul]
    exact Number.round_nearest_pos f hn hd hfin hv hvf
  | true =>
    have hneg : Number.round f true n d = (Number.round f false n d).neg := by rw [Number.neg_round]; rfl
    have hl : ∀ x : Number, x.neg.lastExponent = x.lastExponent := by intro x; cases x <;> rfl
    have habs : ∀ x y : ℚ, |-x - -1 * y| = |x - y| := by
      intro x y
      rw [← abs_neg]
      congr 1
      ring
    rw [hneg, Number.isFinite_neg] at hfin
    have h := Number.round_nearest_pos f hn hd hfin (v := v.neg) (by simpa using hv) (by simpa using hvf)
    have hv' : |v.toRat - -1 * ((n : ℚ) / d)| = |v.neg.toRat - (n : ℚ) / d| := by
      rw [← habs v.neg.toRat, Number.toRat_neg, neg_neg]
    rw [hneg, Number.toRat_neg, hl]
    simp only [signRat, if_true]
    rw [habs, hv']
    refine ⟨h.1, fun h1 h2 => ?_⟩
    have := h.2 h1 (by rw [Number.toRat_neg]; intro h3; exact h2 (by rw [← h3, neg_neg]))
    rw [hl] at this
    exact this.imp_left (fun h => by rw [h, neg_zero])

/-- Where rounding a nonzero ratio gives an infinity: the nearest multiple of the last binade's spacing is
`2 ^ (maxExp + 1)` or more. -/
theorem Number.round_finite_of_lt (f : NumFormat) (a : Bool) {n d : Nat} (hn : n ≠ 0)
    (h : (roundedSignificand f n d : ℚ) * 2 ^ f.quantum (ratioExponent n d) < 2 ^ (f.maxExp + 1)) :
    (Number.round f a n d).isFinite = true := by
  rw [Number.round_eq f a hn, if_neg (not_le.mpr h)]
  exact Number.isFinite_ofScaled _ _ _

/-- Two numbers of a format with one nonzero value are one number. -/
theorem Number.eq_of_toRat_eq {f : NumFormat} {u v : Number} (hu : u.isFinite = true) (hv : v.isFinite = true)
    (huf : u.inFormat f = true) (hvf : v.inFormat f = true) (h : u.toRat = v.toRat) (h0 : v.toRat ≠ 0) : u = v := by
  obtain ⟨a, m, e, rfl⟩ := Number.exists_of_isFinite hu
  obtain ⟨b, n, g, rfl⟩ := Number.exists_of_isFinite hv
  have hn : n ≠ 0 := by rintro rfl; simp [Number.toRat] at h0
  have hm : m ≠ 0 := by rintro rfl; rw [← h] at h0; simp [Number.toRat] at h0
  simp only [Number.inFormat, hm, hn, decide_false, Bool.false_and, Bool.false_or, Bool.and_eq_true,
    decide_eq_true_eq] at huf hvf
  have hpm : (0 : ℚ) < (m : ℚ) * 2 ^ e := by positivity
  have hpn : (0 : ℚ) < (n : ℚ) * 2 ^ g := by positivity
  have hab : a = b := by
    cases a <;> cases b <;> simp only [Number.toRat, if_true, if_false, Bool.false_eq_true] at h <;>
      first | rfl | (exfalso; linarith)
  subst hab
  have hval : (m : ℚ) * 2 ^ e = n * 2 ^ g := by
    cases a <;> simp only [Number.toRat, if_true, if_false, Bool.false_eq_true] at h <;> linarith
  have key : ∀ {m n : ℕ} {e g : ℤ}, m % 2 = 1 → (m : ℚ) * 2 ^ e = n * 2 ^ g → g ≤ e → n % 2 = 1 → e = g ∧ m = n := by
    intro m n e g hm hv hge hn
    rw [← two_zpow_toNat hge, ← mul_assoc, mul_left_inj' (two_zpow_ne g)] at hv
    have hv' : m * 2 ^ (e - g).toNat = n := by exact_mod_cast hv
    obtain hz | ⟨i, hi⟩ : (e - g).toNat = 0 ∨ ∃ i, (e - g).toNat = i + 1 := by
      rcases h : (e - g).toNat with _ | i
      · exact .inl rfl
      · exact .inr ⟨i, rfl⟩
    · rw [hz] at hv'
      exact ⟨by omega, by simpa using hv'⟩
    · rw [hi, pow_succ, ← mul_assoc] at hv'
      omega
  rcases le_total g e with hge | hge
  · obtain ⟨rfl, rfl⟩ := key huf.1.1.1 hval hge hvf.1.1.1
    rfl
  · obtain ⟨rfl, rfl⟩ := key hvf.1.1.1 hval.symm hge huf.1.1.1
    rfl

/-- Rounding a value the format has gives that value (so it is exact, R10). -/
theorem Number.round_self {f : NumFormat} {v : Number} (a : Bool) {n d : Nat} (hn : n ≠ 0) (hd : d ≠ 0)
    (hv : v.isFinite = true) (hvf : v.inFormat f = true) (h : v.toRat = signRat a * ((n : ℚ) / d)) :
    Number.round f a n d = v := by
  have hx : (0 : ℚ) < (n : ℚ) / d := by positivity
  have hs : signRat a ≠ 0 := by cases a <;> simp [signRat]
  have h0 : v.toRat ≠ 0 := by rw [h]; exact mul_ne_zero hs hx.ne'
  have hfin : (Number.round f a n d).isFinite = true := by
    apply Number.round_finite_of_lt f a hn
    obtain ⟨b, m, e, rfl⟩ := Number.exists_of_isFinite hv
    have hm : m ≠ 0 := by rintro rfl; simp [Number.toRat] at h0
    simp only [Number.inFormat, hm, decide_false, Bool.false_and, Bool.false_or, Bool.and_eq_true,
      decide_eq_true_eq] at hvf
    have hval : (m : ℚ) * 2 ^ e = (n : ℚ) / d := by
      have hpm : (0 : ℚ) < (m : ℚ) * 2 ^ e := by positivity
      cases a <;> cases b <;> simp only [Number.toRat, signRat, if_true, if_false, Bool.false_eq_true] at h <;> linarith
    obtain ⟨hlo, -⟩ := ratioExponent_spec hn hd
    have hm2 : (m : ℚ) < 2 ^ f.precision := by exact_mod_cast hvf.1.1.2
    have hqe : f.quantum (ratioExponent n d) ≤ e := by
      rcases max_choice (ratioExponent n d - ((f.precision : ℤ) - 1)) f.minQuantum with hq | hq
      · rw [NumFormat.quantum, hq]
        have h1 : (2 : ℚ) ^ ratioExponent n d < 2 ^ ((f.precision : ℤ) + e) := by
          calc (2 : ℚ) ^ ratioExponent n d ≤ (n : ℚ) / d := hlo
            _ = (m : ℚ) * 2 ^ e := hval.symm
            _ < 2 ^ f.precision * 2 ^ e := mul_lt_mul_of_pos_right hm2 (two_zpow_pos e)
            _ = 2 ^ ((f.precision : ℤ) + e) := by rw [zpow_add₀ (by norm_num), zpow_natCast]
        have := (zpow_lt_zpow_iff_right₀ (by norm_num : (1 : ℚ) < 2)).mp h1
        omega
      · rw [NumFormat.quantum, hq]; exact hvf.1.2
    have hspec := (roundedSignificand_spec (n := n) f hd ((m * 2 ^ (e - f.quantum (ratioExponent n d)).toNat : ℕ) : ℤ)).1
    have hy : (n : ℚ) / d / 2 ^ f.quantum (ratioExponent n d) =
        ((m * 2 ^ (e - f.quantum (ratioExponent n d)).toNat : ℕ) : ℚ) := by
      rw [div_eq_iff (two_zpow_ne _), ← hval, ← two_zpow_toNat hqe]
      push_cast
      ring
    rw [hy] at hspec
    have hz : |(roundedSignificand f n d : ℚ) - ((m * 2 ^ (e - f.quantum (ratioExponent n d)).toNat : ℕ) : ℚ)| ≤ 0 := by
      refine hspec.trans ?_
      rw [Int.cast_natCast, sub_self, abs_zero]
    have hM := sub_eq_zero.mp (abs_nonpos_iff.mp hz)
    rw [hM, ← hy, div_mul_cancel₀ _ (two_zpow_ne _), ← hval]
    calc (m : ℚ) * 2 ^ e < ((2 ^ (m.log2 + 1) : ℕ) : ℚ) * 2 ^ e :=
          mul_lt_mul_of_pos_right (by exact_mod_cast Nat.lt_log2_self) (two_zpow_pos e)
      _ = 2 ^ ((m.log2 : ℤ) + 1 + e) := by
          push_cast
          rw [zpow_add₀ (by norm_num) _ e, ← zpow_natCast]
          push_cast
          rfl
      _ ≤ 2 ^ ((f.maxExp : ℤ) + 1) := zpow_le_zpow_right₀ (by norm_num) (by omega)
      _ = 2 ^ (f.maxExp + 1) := by exact_mod_cast rfl
  have hnear := (Number.round_nearest f a hn hd hfin hv hvf).1
  rw [← h, sub_self, abs_zero, abs_nonpos_iff, sub_eq_zero] at hnear
  exact Number.eq_of_toRat_eq hfin hv (Number.inFormat_round f a hd) hvf hnear h0

/-- Reading a number of the format in the format changes nothing. -/
theorem Number.convert_self {f : NumFormat} {v : Number} (hvf : v.inFormat f = true) : Number.convert f v = v := by
  cases v with
  | inf a => rfl
  | nan => rfl
  | fin a m e =>
    by_cases hm : m = 0
    · subst hm
      simp only [Number.inFormat, decide_true, Bool.true_and, Bool.or_eq_true, Bool.and_eq_true,
        decide_eq_true_eq] at hvf
      have : e = 0 := by
        rcases hvf with h | h
        · exact h
        · omega
      subst this
      simp [Number.convert, Number.roundScaled, Number.round_zero]
    · refine Number.round_self a (by positivity) (by positivity) rfl hvf ?_
      rw [Number.toRat, two_zpow_eq_ratio e, signRat]
      push_cast
      ring

/-! ## Where rounding overflows -/

theorem NumFormat.one_le_maxExp (f : NumFormat) : 1 ≤ f.maxExp := by cases f <;> decide

/-- The nearest integer to a value at an integer or above it is at that integer or above it. -/
theorem roundedSignificand_ge (f : NumFormat) {n d : Nat} (hd : d ≠ 0) {N : ℕ}
    (h : (N : ℚ) ≤ (n : ℚ) / d / 2 ^ f.quantum (ratioExponent n d)) : N ≤ roundedSignificand f n d := by
  by_contra hlt
  push Not at hlt
  have h1 := (roundedSignificand_spec (n := n) f hd N).1
  have h2 : (roundedSignificand f n d : ℚ) + 1 ≤ N := by exact_mod_cast hlt
  rw [abs_of_nonpos (by linarith), abs_of_nonpos (by push_cast; linarith)] at h1
  push_cast at h1
  linarith

/-- The exponent of a ratio in a binade is the binade's, or less below it. -/
theorem le_ratioExponent {n d : Nat} (hn : n ≠ 0) (hd : d ≠ 0) {k : ℤ} (h : (2 : ℚ) ^ k ≤ (n : ℚ) / d) :
    k ≤ ratioExponent n d := by
  have := (zpow_lt_zpow_iff_right₀ (by norm_num : (1 : ℚ) < 2)).mp (h.trans_lt (ratioExponent_spec hn hd).2)
  omega

theorem ratioExponent_lt {n d : Nat} (hn : n ≠ 0) (hd : d ≠ 0) {k : ℤ} (h : (n : ℚ) / d < 2 ^ k) :
    ratioExponent n d < k :=
  (zpow_lt_zpow_iff_right₀ (by norm_num : (1 : ℚ) < 2)).mp ((ratioExponent_spec hn hd).1.trans_lt h)

theorem NumFormat.half_ulp (f : NumFormat) :
    (2 : ℚ) ^ f.maxExp / 2 ^ f.precision = 2 ^ ((f.maxExp : ℤ) - f.precision + 1) / 2 := by
  rw [zpow_add_one₀ (by norm_num), zpow_sub₀ (by norm_num), zpow_natCast, zpow_natCast]
  field_simp

/-- A ratio at the midpoint above the largest finite number, or beyond, rounds to an infinity. -/
theorem Number.round_eq_inf (f : NumFormat) (a : Bool) {n d : Nat} (hn : n ≠ 0) (hd : d ≠ 0)
    (h : (2 : ℚ) ^ (f.maxExp + 1) - 2 ^ f.maxExp / 2 ^ f.precision ≤ (n : ℚ) / d) :
    Number.round f a n d = .inf a := by
  rw [Number.round_eq f a hn, if_pos]
  have hp := f.one_le_precision
  have hE := f.one_le_maxExp
  have hq : ∀ k : ℤ, (f.maxExp : ℤ) ≤ k → f.quantum k = k - (f.precision - 1) := by
    intro k hk; unfold NumFormat.quantum NumFormat.minQuantum; omega
  have hdz := two_zpow_ne
  have hEk : (f.maxExp : ℤ) ≤ ratioExponent n d := by
    apply le_ratioExponent hn hd
    refine le_trans ?_ h
    rw [zpow_natCast, pow_succ]
    have h1 : (2 : ℚ) ^ f.maxExp / 2 ^ f.precision ≤ 2 ^ f.maxExp :=
      div_le_self (by positivity) (one_le_pow₀ (by norm_num))
    linarith
  have hqk := hq _ hEk
  rcases hEk.lt_or_eq with hlt | heq
  · have hM : 2 ^ (f.precision - 1) ≤ roundedSignificand f n d := by
      apply roundedSignificand_ge f hd
      rw [le_div_iff₀ (two_zpow_pos _)]
      refine le_trans (le_of_eq ?_) (ratioExponent_spec hn hd).1
      push_cast
      rw [← zpow_natCast, ← zpow_add₀ (by norm_num), hqk]
      congr 1; omega
    calc (2 : ℚ) ^ (f.maxExp + 1) = 2 ^ ((f.maxExp : ℤ) + 1) := by exact_mod_cast rfl
      _ ≤ 2 ^ (((f.precision - 1 : ℕ) : ℤ) + f.quantum (ratioExponent n d)) :=
          zpow_le_zpow_right₀ (by norm_num) (by omega)
      _ = ((2 ^ (f.precision - 1) : ℕ) : ℚ) * 2 ^ f.quantum (ratioExponent n d) := by
          rw [zpow_add₀ (by norm_num), zpow_natCast]; push_cast; rfl
      _ ≤ _ := mul_le_mul_of_nonneg_right (by exact_mod_cast hM) (two_zpow_pos _).le
  · have hunit : (2 : ℚ) ^ (f.maxExp + 1) = 2 ^ f.precision * 2 ^ f.quantum (ratioExponent n d) := by
      rw [hqk, ← heq, ← zpow_natCast, ← zpow_natCast, ← zpow_add₀ (by norm_num)]
      congr 1; push_cast; ring
    have hhalf : (2 : ℚ) ^ f.maxExp / 2 ^ f.precision = 2 ^ f.quantum (ratioExponent n d) / 2 := by
      rw [f.half_ulp, hqk, ← heq]; congr 2; ring
    have hy1 : (2 : ℚ) ^ f.precision - 1 / 2 ≤ (n : ℚ) / d / 2 ^ f.quantum (ratioExponent n d) := by
      rw [le_div_iff₀ (two_zpow_pos _), sub_mul, ← hunit]; rw [hhalf] at h; linarith
    have hy2 : (n : ℚ) / d / 2 ^ f.quantum (ratioExponent n d) < 2 ^ f.precision := by
      rw [div_lt_iff₀ (two_zpow_pos _), ← hunit]
      refine (ratioExponent_spec hn hd).2.trans_le (le_of_eq ?_)
      rw [← heq]; exact_mod_cast rfl
    rw [hunit]
    refine mul_le_mul_of_nonneg_right ?_ (two_zpow_pos _).le
    suffices 2 ^ f.precision ≤ roundedSignificand f n d by exact_mod_cast this
    by_contra hlt
    push Not at hlt
    have hlt' : (roundedSignificand f n d : ℚ) + 1 ≤ 2 ^ f.precision := by exact_mod_cast hlt
    have hs := roundedSignificand_spec (n := n) f hd (2 ^ f.precision : ℕ)
    push_cast at hs
    have hle := hs.1
    rw [abs_of_nonpos (by linarith), abs_of_nonneg (by linarith)] at hle
    have := hs.2 (by rw [abs_of_nonneg (by linarith), abs_of_nonpos (by linarith)]; linarith)
      (by intro hc; exact absurd (by exact_mod_cast hc : 2 ^ f.precision = roundedSignificand f n d) hlt.ne')
    obtain ⟨p, hpp⟩ : ∃ p, f.precision = p + 1 := ⟨f.precision - 1, by omega⟩
    rw [hpp, pow_succ] at this
    omega

/-- A ratio below that midpoint rounds to a finite number. -/
theorem Number.round_isFinite (f : NumFormat) (a : Bool) {n d : Nat} (hn : n ≠ 0) (hd : d ≠ 0)
    (h : (n : ℚ) / d < 2 ^ (f.maxExp + 1) - 2 ^ f.maxExp / 2 ^ f.precision) :
    (Number.round f a n d).isFinite = true := by
  apply Number.round_finite_of_lt f a hn
  have hp := f.one_le_precision
  have hE := f.one_le_maxExp
  have hk : ratioExponent n d < (f.maxExp : ℤ) + 1 := by
    apply ratioExponent_lt hn hd
    have : (0 : ℚ) < 2 ^ f.maxExp / 2 ^ f.precision := by positivity
    have h2 : (2 : ℚ) ^ ((f.maxExp : ℤ) + 1) = 2 ^ (f.maxExp + 1) := by exact_mod_cast rfl
    linarith
  have hM := roundedSignificand_le f hn hd
  have bound : ∀ N : ℕ, roundedSignificand f n d ≤ N → ∀ g : ℤ, (N : ℚ) * 2 ^ f.quantum (ratioExponent n d) < 2 ^ g →
      g ≤ f.maxExp + 1 → (roundedSignificand f n d : ℚ) * 2 ^ f.quantum (ratioExponent n d) < 2 ^ (f.maxExp + 1) := by
    intro N hN g hg hgE
    calc _ ≤ (N : ℚ) * 2 ^ f.quantum (ratioExponent n d) :=
          mul_le_mul_of_nonneg_right (by exact_mod_cast hN) (two_zpow_pos _).le
      _ < 2 ^ g := hg
      _ ≤ 2 ^ ((f.maxExp : ℤ) + 1) := zpow_le_zpow_right₀ (by norm_num) hgE
      _ = _ := by exact_mod_cast rfl
  rcases (show ratioExponent n d ≤ f.maxExp by omega).lt_or_eq with hlt | heq
  · refine bound _ hM ((f.precision : ℤ) + f.quantum (ratioExponent n d) + 1) ?_ ?_
    · push_cast
      rw [zpow_add_one₀ (by norm_num), zpow_add₀ (by norm_num), zpow_natCast]
      have : (0 : ℚ) < 2 ^ f.precision * 2 ^ f.quantum (ratioExponent n d) := by positivity
      linarith
    · unfold NumFormat.quantum NumFormat.minQuantum; omega
  · have hqk : f.quantum (ratioExponent n d) = f.maxExp - (f.precision - 1) := by
      rw [heq]; unfold NumFormat.quantum NumFormat.minQuantum; omega
    have hunit : (2 : ℚ) ^ ((f.maxExp : ℤ) + 1) = 2 ^ f.precision * 2 ^ f.quantum (ratioExponent n d) := by
      rw [hqk, ← zpow_natCast, ← zpow_add₀ (by norm_num)]
      congr 1; ring
    have hunit' : (2 : ℚ) ^ (f.maxExp + 1) = 2 ^ f.precision * 2 ^ f.quantum (ratioExponent n d) := by
      rw [← hunit]; exact_mod_cast rfl
    have hhalf : (2 : ℚ) ^ f.maxExp / 2 ^ f.precision = 2 ^ f.quantum (ratioExponent n d) / 2 := by
      rw [f.half_ulp, hqk]; congr 2; ring
    have hy : (n : ℚ) / d / 2 ^ f.quantum (ratioExponent n d) < 2 ^ f.precision - 1 / 2 := by
      rw [div_lt_iff₀ (two_zpow_pos _), sub_mul, ← hunit']; rw [hhalf] at h; linarith
    have hlt : roundedSignificand f n d ≤ 2 ^ f.precision - 1 := by
      by_contra hge
      have hge' : 2 ^ f.precision ≤ roundedSignificand f n d := by omega
      have hge'' : (2 : ℚ) ^ f.precision ≤ roundedSignificand f n d := by exact_mod_cast hge'
      have hs := (roundedSignificand_spec (n := n) f hd ((2 ^ f.precision : ℕ) - 1 : ℤ)).1
      push_cast at hs
      rw [abs_of_nonneg (by linarith)] at hs
      rcases abs_cases ((2 : ℚ) ^ f.precision - 1 - (n : ℚ) / d / 2 ^ f.quantum (ratioExponent n d)) with ⟨h1, -⟩ | ⟨h1, -⟩ <;>
        rw [h1] at hs <;> linarith
    have hpos : 1 ≤ 2 ^ f.precision := Nat.one_le_two_pow
    refine bound _ hlt ((f.maxExp : ℤ) + 1) ?_ le_rfl
    rw [hunit]
    push_cast [hpos]
    exact mul_lt_mul_of_pos_right (by linarith) (two_zpow_pos _)

/-! ## Negated and finite operands -/

theorem Number.neg_roundScaled (f : NumFormat) (a : Bool) (m : Nat) (e : ℤ) :
    (Number.roundScaled f a m e).neg = Number.roundScaled f (!a) m e := Number.neg_round _ _ _ _

theorem Number.ofInt_neg (f : NumFormat) (i : ℤ) (h : i ≠ 0) : Number.ofInt f (-i) = (Number.ofInt f i).neg := by
  rw [Number.ofInt, Number.ofInt, Number.neg_round]
  congr 1
  · rw [← decide_not]; apply decide_eq_decide.mpr; omega
  · simp

theorem Number.mul_neg (f : NumFormat) (x y : Number) (hx : x.isFinite = true) (hy : y.isFinite = true) :
    Number.mul f x.neg y = (Number.mul f x y).neg := by
  obtain ⟨a, m, e, rfl⟩ := Number.exists_of_isFinite hx
  obtain ⟨b, n, g, rfl⟩ := Number.exists_of_isFinite hy
  refine Eq.trans ?_ (Number.neg_roundScaled _ _ _ _).symm
  cases a <;> cases b <;> rfl

theorem Number.div_neg_fin (f : NumFormat) (x y : Number) (hx : x.isFinite = true) (hy : y.isFinite = true) :
    Number.div f x.neg y = (Number.div f x y).neg := by
  obtain ⟨a, m, e, rfl⟩ := Number.exists_of_isFinite hx
  obtain ⟨b, n, g, rfl⟩ := Number.exists_of_isFinite hy
  by_cases hn : n = 0
  · subst hn
    by_cases hm : m = 0
    · subst hm; rfl
    · simp [Number.div, Number.neg, hm]
  · simp only [Number.div, Number.neg, if_neg hn]
    refine Eq.trans ?_ (Number.neg_round _ _ _ _).symm
    cases a <;> cases b <;> rfl

theorem Number.isFinite_of_mul (f : NumFormat) {x y : Number} (h : (Number.mul f x y).isFinite = true) :
    x.isFinite = true ∧ y.isFinite = true := by
  cases x <;> cases y <;> simp [Number.mul, Number.isFinite] at h ⊢
  all_goals split_ifs at h

theorem Number.isFinite_of_div (f : NumFormat) {x y : Number} (h : (Number.div f x y).isFinite = true) :
    x.isFinite = true := by
  cases x <;> cases y <;> simp [Number.div, Number.isFinite] at h ⊢

theorem Number.div_neg (f : NumFormat) (x y : Number) (hx : x.isFinite = true) :
    Number.div f x.neg y = (Number.div f x y).neg := by
  cases y with
  | fin b n g => exact Number.div_neg_fin f x _ hx rfl
  | inf b => obtain ⟨a, m, e, rfl⟩ := Number.exists_of_isFinite hx; cases a <;> cases b <;> rfl
  | nan => obtain ⟨a, m, e, rfl⟩ := Number.exists_of_isFinite hx; rfl

end Sys2Proof
end

