-- ==== Sys2Proof/Laws/State.lean ====
section
/-! SUPPORT. What each update of the state leaves in each field: one lemma per field per update, true by `rfl`. -/

namespace Sys2Proof.Machine

/-! ## Banks and streams -/

@[simp] theorem PerWheel.get_set_self {α : Type} (p : PerWheel α) (w : Wheel) (x : α) : (p.set w x).get w = x := by
  cases w <;> rfl

theorem PerWheel.get_set_other {α : Type} (p : PerWheel α) {w w' : Wheel} (h : w' ≠ w) (x : α) :
    (p.set w x).get w' = p.get w' := by
  cases w <;> cases w' <;> first | rfl | exact absurd rfl h

theorem PerWheel.get_set {α : Type} (p : PerWheel α) (w w' : Wheel) (x : α) :
    (p.set w x).get w' = if w' = w then x else p.get w' := by
  cases w <;> cases w' <;> rfl

@[simp] theorem PerWheel.set_get_self {α : Type} (p : PerWheel α) (w : Wheel) : p.set w (p.get w) = p := by
  cases w <;> rfl

theorem PerWheel.ext_get {α : Type} {p q : PerWheel α} (h : ∀ w, p.get w = q.get w) : p = q := by
  obtain ⟨a, b⟩ := p
  obtain ⟨c, d⟩ := q
  have hl : a = c := h .left
  have hr : b = d := h .right
  rw [hl, hr]

@[simp] theorem PerWheel.get_mk_same {α : Type} (x : α) (w : Wheel) : (PerWheel.mk x x).get w = x := by
  cases w <;> rfl

@[simp] theorem Streams.get_set_self (st : Streams) (a : Agent) (bytes : List Byte) :
    (st.set a bytes).get a = bytes := by
  cases a with
  | edge w ch => cases ch <;> simp [Streams.set, Streams.get]
  | estimation w => simp [Streams.set, Streams.get]
  | regulation w => simp [Streams.set, Streams.get]
  | stepper => rfl
  | command => rfl
  | telemetry => rfl

theorem Streams.get_set_other (st : Streams) {a b : Agent} (h : b ≠ a) (bytes : List Byte) :
    (st.set a bytes).get b = st.get b := by
  rcases a with ⟨w, _ | _⟩ | w | w | _ | _ | _ <;> rcases b with ⟨w', _ | _⟩ | w' | w' | _ | _ | _ <;>
    first
    | rfl
    | exact absurd rfl h
    | (simp only [Streams.set, Streams.get]
       exact PerWheel.get_set_other _ (fun e => h (by rw [e])) _)

@[simp] theorem Streams.set_set (st : Streams) (a : Agent) (b c : List Byte) :
    (st.set a b).set a c = st.set a c := by
  rcases a with ⟨_ | _, _ | _⟩ | (_ | _) | (_ | _) | _ | _ | _ <;> rfl

@[simp] theorem Streams.set_get_self (st : Streams) (a : Agent) : st.set a (st.get a) = st := by
  rcases a with ⟨_ | _, _ | _⟩ | (_ | _) | (_ | _) | _ | _ | _ <;> rfl

@[simp] theorem Streams.get_empty (a : Agent) : Streams.empty.get a = [] := by
  rcases a with ⟨_ | _, _ | _⟩ | (_ | _) | (_ | _) | _ | _ | _ <;> rfl

/-! ## Fields after updates -/

@[simp] theorem State.setQd_qd (s : State) (w : Wheel) (x : Qd) : (s.setQd w x).qd = s.qd.set w x := rfl
@[simp] theorem State.setQd_ve (s : State) (w : Wheel) (x : Qd) : (s.setQd w x).ve = s.ve := rfl
@[simp] theorem State.setQd_pid (s : State) (w : Wheel) (x : Qd) : (s.setQd w x).pid = s.pid := rfl
@[simp] theorem State.setQd_act (s : State) (w : Wheel) (x : Qd) : (s.setQd w x).act = s.act := rfl
@[simp] theorem State.setQd_kin (s : State) (w : Wheel) (x : Qd) : (s.setQd w x).kin = s.kin := rfl
@[simp] theorem State.setQd_st (s : State) (w : Wheel) (x : Qd) : (s.setQd w x).st = s.st := rfl
@[simp] theorem State.setQd_fault (s : State) (w : Wheel) (x : Qd) : (s.setQd w x).fault = s.fault := rfl
@[simp] theorem State.setQd_cfg (s : State) (w : Wheel) (x : Qd) : (s.setQd w x).cfg = s.cfg := rfl
@[simp] theorem State.setQd_streams (s : State) (w : Wheel) (x : Qd) : (s.setQd w x).streams = s.streams := rfl
@[simp] theorem State.setQd_schedule (s : State) (w : Wheel) (x : Qd) : (s.setQd w x).schedule = s.schedule := rfl
@[simp] theorem State.setQd_returned (s : State) (w : Wheel) (x : Qd) : (s.setQd w x).returned = s.returned := rfl

@[simp] theorem State.setVe_qd (s : State) (w : Wheel) (x : Ve) : (s.setVe w x).qd = s.qd := rfl
@[simp] theorem State.setVe_ve (s : State) (w : Wheel) (x : Ve) : (s.setVe w x).ve = s.ve.set w x := rfl
@[simp] theorem State.setVe_pid (s : State) (w : Wheel) (x : Ve) : (s.setVe w x).pid = s.pid := rfl
@[simp] theorem State.setVe_act (s : State) (w : Wheel) (x : Ve) : (s.setVe w x).act = s.act := rfl
@[simp] theorem State.setVe_kin (s : State) (w : Wheel) (x : Ve) : (s.setVe w x).kin = s.kin := rfl
@[simp] theorem State.setVe_st (s : State) (w : Wheel) (x : Ve) : (s.setVe w x).st = s.st := rfl
@[simp] theorem State.setVe_fault (s : State) (w : Wheel) (x : Ve) : (s.setVe w x).fault = s.fault := rfl
@[simp] theorem State.setVe_cfg (s : State) (w : Wheel) (x : Ve) : (s.setVe w x).cfg = s.cfg := rfl
@[simp] theorem State.setVe_streams (s : State) (w : Wheel) (x : Ve) : (s.setVe w x).streams = s.streams := rfl
@[simp] theorem State.setVe_schedule (s : State) (w : Wheel) (x : Ve) : (s.setVe w x).schedule = s.schedule := rfl
@[simp] theorem State.setVe_returned (s : State) (w : Wheel) (x : Ve) : (s.setVe w x).returned = s.returned := rfl

@[simp] theorem State.setPid_qd (s : State) (w : Wheel) (x : Pid) : (s.setPid w x).qd = s.qd := rfl
@[simp] theorem State.setPid_ve (s : State) (w : Wheel) (x : Pid) : (s.setPid w x).ve = s.ve := rfl
@[simp] theorem State.setPid_pid (s : State) (w : Wheel) (x : Pid) : (s.setPid w x).pid = s.pid.set w x := rfl
@[simp] theorem State.setPid_act (s : State) (w : Wheel) (x : Pid) : (s.setPid w x).act = s.act := rfl
@[simp] theorem State.setPid_kin (s : State) (w : Wheel) (x : Pid) : (s.setPid w x).kin = s.kin := rfl
@[simp] theorem State.setPid_st (s : State) (w : Wheel) (x : Pid) : (s.setPid w x).st = s.st := rfl
@[simp] theorem State.setPid_fault (s : State) (w : Wheel) (x : Pid) : (s.setPid w x).fault = s.fault := rfl
@[simp] theorem State.setPid_cfg (s : State) (w : Wheel) (x : Pid) : (s.setPid w x).cfg = s.cfg := rfl
@[simp] theorem State.setPid_streams (s : State) (w : Wheel) (x : Pid) : (s.setPid w x).streams = s.streams := rfl
@[simp] theorem State.setPid_schedule (s : State) (w : Wheel) (x : Pid) : (s.setPid w x).schedule = s.schedule := rfl
@[simp] theorem State.setPid_returned (s : State) (w : Wheel) (x : Pid) : (s.setPid w x).returned = s.returned := rfl

@[simp] theorem State.setAct_qd (s : State) (w : Wheel) (x : Act) : (s.setAct w x).qd = s.qd := rfl
@[simp] theorem State.setAct_ve (s : State) (w : Wheel) (x : Act) : (s.setAct w x).ve = s.ve := rfl
@[simp] theorem State.setAct_pid (s : State) (w : Wheel) (x : Act) : (s.setAct w x).pid = s.pid := rfl
@[simp] theorem State.setAct_act (s : State) (w : Wheel) (x : Act) : (s.setAct w x).act = s.act.set w x := rfl
@[simp] theorem State.setAct_kin (s : State) (w : Wheel) (x : Act) : (s.setAct w x).kin = s.kin := rfl
@[simp] theorem State.setAct_st (s : State) (w : Wheel) (x : Act) : (s.setAct w x).st = s.st := rfl
@[simp] theorem State.setAct_fault (s : State) (w : Wheel) (x : Act) : (s.setAct w x).fault = s.fault := rfl
@[simp] theorem State.setAct_cfg (s : State) (w : Wheel) (x : Act) : (s.setAct w x).cfg = s.cfg := rfl
@[simp] theorem State.setAct_streams (s : State) (w : Wheel) (x : Act) : (s.setAct w x).streams = s.streams := rfl
@[simp] theorem State.setAct_schedule (s : State) (w : Wheel) (x : Act) : (s.setAct w x).schedule = s.schedule := rfl
@[simp] theorem State.setAct_returned (s : State) (w : Wheel) (x : Act) : (s.setAct w x).returned = s.returned := rfl

@[simp] theorem State.setKin_qd (s : State) (x : Kin) : (s.setKin x).qd = s.qd := rfl
@[simp] theorem State.setKin_ve (s : State) (x : Kin) : (s.setKin x).ve = s.ve := rfl
@[simp] theorem State.setKin_pid (s : State) (x : Kin) : (s.setKin x).pid = s.pid := rfl
@[simp] theorem State.setKin_act (s : State) (x : Kin) : (s.setKin x).act = s.act := rfl
@[simp] theorem State.setKin_kin (s : State) (x : Kin) : (s.setKin x).kin = x := rfl
@[simp] theorem State.setKin_st (s : State) (x : Kin) : (s.setKin x).st = s.st := rfl
@[simp] theorem State.setKin_fault (s : State) (x : Kin) : (s.setKin x).fault = s.fault := rfl
@[simp] theorem State.setKin_cfg (s : State) (x : Kin) : (s.setKin x).cfg = s.cfg := rfl
@[simp] theorem State.setKin_streams (s : State) (x : Kin) : (s.setKin x).streams = s.streams := rfl
@[simp] theorem State.setKin_schedule (s : State) (x : Kin) : (s.setKin x).schedule = s.schedule := rfl
@[simp] theorem State.setKin_returned (s : State) (x : Kin) : (s.setKin x).returned = s.returned := rfl

@[simp] theorem State.setSt_qd (s : State) (x : St) : (s.setSt x).qd = s.qd := rfl
@[simp] theorem State.setSt_ve (s : State) (x : St) : (s.setSt x).ve = s.ve := rfl
@[simp] theorem State.setSt_pid (s : State) (x : St) : (s.setSt x).pid = s.pid := rfl
@[simp] theorem State.setSt_act (s : State) (x : St) : (s.setSt x).act = s.act := rfl
@[simp] theorem State.setSt_kin (s : State) (x : St) : (s.setSt x).kin = s.kin := rfl
@[simp] theorem State.setSt_st (s : State) (x : St) : (s.setSt x).st = x := rfl
@[simp] theorem State.setSt_fault (s : State) (x : St) : (s.setSt x).fault = s.fault := rfl
@[simp] theorem State.setSt_cfg (s : State) (x : St) : (s.setSt x).cfg = s.cfg := rfl
@[simp] theorem State.setSt_streams (s : State) (x : St) : (s.setSt x).streams = s.streams := rfl
@[simp] theorem State.setSt_schedule (s : State) (x : St) : (s.setSt x).schedule = s.schedule := rfl
@[simp] theorem State.setSt_returned (s : State) (x : St) : (s.setSt x).returned = s.returned := rfl

@[simp] theorem State.setFault_qd (s : State) (x : FaultReg) : (s.setFault x).qd = s.qd := rfl
@[simp] theorem State.setFault_ve (s : State) (x : FaultReg) : (s.setFault x).ve = s.ve := rfl
@[simp] theorem State.setFault_pid (s : State) (x : FaultReg) : (s.setFault x).pid = s.pid := rfl
@[simp] theorem State.setFault_act (s : State) (x : FaultReg) : (s.setFault x).act = s.act := rfl
@[simp] theorem State.setFault_kin (s : State) (x : FaultReg) : (s.setFault x).kin = s.kin := rfl
@[simp] theorem State.setFault_st (s : State) (x : FaultReg) : (s.setFault x).st = s.st := rfl
@[simp] theorem State.setFault_fault (s : State) (x : FaultReg) : (s.setFault x).fault = x := rfl
@[simp] theorem State.setFault_cfg (s : State) (x : FaultReg) : (s.setFault x).cfg = s.cfg := rfl
@[simp] theorem State.setFault_streams (s : State) (x : FaultReg) : (s.setFault x).streams = s.streams := rfl
@[simp] theorem State.setFault_schedule (s : State) (x : FaultReg) : (s.setFault x).schedule = s.schedule := rfl
@[simp] theorem State.setFault_returned (s : State) (x : FaultReg) : (s.setFault x).returned = s.returned := rfl

@[simp] theorem State.giveResult_qd (s : State) (v om : Number) : (s.giveResult v om).qd = s.qd := rfl
@[simp] theorem State.giveResult_ve (s : State) (v om : Number) : (s.giveResult v om).ve = s.ve := rfl
@[simp] theorem State.giveResult_pid (s : State) (v om : Number) : (s.giveResult v om).pid = s.pid := rfl
@[simp] theorem State.giveResult_act (s : State) (v om : Number) : (s.giveResult v om).act = s.act := rfl
@[simp] theorem State.giveResult_kin (s : State) (v om : Number) : (s.giveResult v om).kin = s.kin := rfl
@[simp] theorem State.giveResult_st (s : State) (v om : Number) : (s.giveResult v om).st = s.st := rfl
@[simp] theorem State.giveResult_fault (s : State) (v om : Number) : (s.giveResult v om).fault = s.fault := rfl
@[simp] theorem State.giveResult_cfg (s : State) (v om : Number) : (s.giveResult v om).cfg = s.cfg := rfl
@[simp] theorem State.giveResult_streams (s : State) (v om : Number) : (s.giveResult v om).streams = s.streams := rfl
@[simp] theorem State.giveResult_schedule (s : State) (v om : Number) : (s.giveResult v om).schedule = s.schedule := rfl
@[simp] theorem State.giveResult_returned (s : State) (v om : Number) : (s.giveResult v om).returned = s.returned ++ [(v, om)] := rfl

@[simp] theorem State.taken_qd (s : State) (events : List Event) (a : Agent) (bytes : List Byte) : (s.taken events a bytes).qd = s.qd := rfl
@[simp] theorem State.taken_ve (s : State) (events : List Event) (a : Agent) (bytes : List Byte) : (s.taken events a bytes).ve = s.ve := rfl
@[simp] theorem State.taken_pid (s : State) (events : List Event) (a : Agent) (bytes : List Byte) : (s.taken events a bytes).pid = s.pid := rfl
@[simp] theorem State.taken_act (s : State) (events : List Event) (a : Agent) (bytes : List Byte) : (s.taken events a bytes).act = s.act := rfl
@[simp] theorem State.taken_kin (s : State) (events : List Event) (a : Agent) (bytes : List Byte) : (s.taken events a bytes).kin = s.kin := rfl
@[simp] theorem State.taken_st (s : State) (events : List Event) (a : Agent) (bytes : List Byte) : (s.taken events a bytes).st = s.st := rfl
@[simp] theorem State.taken_fault (s : State) (events : List Event) (a : Agent) (bytes : List Byte) : (s.taken events a bytes).fault = s.fault := rfl
@[simp] theorem State.taken_cfg (s : State) (events : List Event) (a : Agent) (bytes : List Byte) : (s.taken events a bytes).cfg = s.cfg := rfl
@[simp] theorem State.taken_streams (s : State) (events : List Event) (a : Agent) (bytes : List Byte) : (s.taken events a bytes).streams = s.streams.set a bytes := rfl
@[simp] theorem State.taken_schedule (s : State) (events : List Event) (a : Agent) (bytes : List Byte) : (s.taken events a bytes).schedule = events := rfl
@[simp] theorem State.taken_returned (s : State) (events : List Event) (a : Agent) (bytes : List Byte) : (s.taken events a bytes).returned = s.returned := rfl

@[simp] theorem State.raise_qd (s : State) (c : Cause) (record : List Byte) : (s.raise c record).qd = s.qd := rfl
@[simp] theorem State.raise_ve (s : State) (c : Cause) (record : List Byte) : (s.raise c record).ve = s.ve := rfl
@[simp] theorem State.raise_pid (s : State) (c : Cause) (record : List Byte) : (s.raise c record).pid = s.pid := rfl
@[simp] theorem State.raise_act (s : State) (c : Cause) (record : List Byte) : (s.raise c record).act = s.act := rfl
@[simp] theorem State.raise_kin (s : State) (c : Cause) (record : List Byte) : (s.raise c record).kin = s.kin := rfl
@[simp] theorem State.raise_st (s : State) (c : Cause) (record : List Byte) : (s.raise c record).st = s.st := rfl
@[simp] theorem State.raise_fault (s : State) (c : Cause) (record : List Byte) : (s.raise c record).fault = { cause := c, info := record } := rfl
@[simp] theorem State.raise_cfg (s : State) (c : Cause) (record : List Byte) : (s.raise c record).cfg = s.cfg := rfl
@[simp] theorem State.raise_streams (s : State) (c : Cause) (record : List Byte) : (s.raise c record).streams = s.streams := rfl
@[simp] theorem State.raise_schedule (s : State) (c : Cause) (record : List Byte) : (s.raise c record).schedule = s.schedule := rfl
@[simp] theorem State.raise_returned (s : State) (c : Cause) (record : List Byte) : (s.raise c record).returned = s.returned := rfl

@[simp] theorem State.resetEvent_qd (s : State) : s.resetEvent.qd = ⟨.reset, .reset⟩ := rfl
@[simp] theorem State.resetEvent_ve (s : State) : s.resetEvent.ve = ⟨.reset, .reset⟩ := rfl
@[simp] theorem State.resetEvent_pid (s : State) : s.resetEvent.pid = ⟨.reset, .reset⟩ := rfl
@[simp] theorem State.resetEvent_act (s : State) : s.resetEvent.act = ⟨.reset, .reset⟩ := rfl
@[simp] theorem State.resetEvent_kin (s : State) : s.resetEvent.kin = .reset := rfl
@[simp] theorem State.resetEvent_st (s : State) : s.resetEvent.st = .reset := rfl
@[simp] theorem State.resetEvent_fault (s : State) : s.resetEvent.fault = .reset := rfl
@[simp] theorem State.resetEvent_cfg (s : State) : s.resetEvent.cfg = s.cfg := rfl
@[simp] theorem State.resetEvent_streams (s : State) : s.resetEvent.streams = s.streams := rfl
@[simp] theorem State.resetEvent_schedule (s : State) : s.resetEvent.schedule = s.schedule := rfl
@[simp] theorem State.resetEvent_returned (s : State) : s.resetEvent.returned = s.returned := rfl

@[simp] theorem State.resetWith_qd (c : Config) : (State.resetWith c).qd = ⟨.reset, .reset⟩ := rfl
@[simp] theorem State.resetWith_ve (c : Config) : (State.resetWith c).ve = ⟨.reset, .reset⟩ := rfl
@[simp] theorem State.resetWith_pid (c : Config) : (State.resetWith c).pid = ⟨.reset, .reset⟩ := rfl
@[simp] theorem State.resetWith_act (c : Config) : (State.resetWith c).act = ⟨.reset, .reset⟩ := rfl
@[simp] theorem State.resetWith_kin (c : Config) : (State.resetWith c).kin = .reset := rfl
@[simp] theorem State.resetWith_st (c : Config) : (State.resetWith c).st = .reset := rfl
@[simp] theorem State.resetWith_fault (c : Config) : (State.resetWith c).fault = .reset := rfl
@[simp] theorem State.resetWith_cfg (c : Config) : (State.resetWith c).cfg = c := rfl
@[simp] theorem State.resetWith_streams (c : Config) : (State.resetWith c).streams = .empty := rfl
@[simp] theorem State.resetWith_schedule (c : Config) : (State.resetWith c).schedule = [] := rfl
@[simp] theorem State.resetWith_returned (c : Config) : (State.resetWith c).returned = [] := rfl

@[simp] theorem State.receive_qd (s : State) (x : Input) : (s.receive x).qd = s.qd := by cases x <;> rfl
@[simp] theorem State.receive_ve (s : State) (x : Input) : (s.receive x).ve = s.ve := by cases x <;> rfl
@[simp] theorem State.receive_pid (s : State) (x : Input) : (s.receive x).pid = s.pid := by cases x <;> rfl
@[simp] theorem State.receive_act (s : State) (x : Input) : (s.receive x).act = s.act := by cases x <;> rfl
@[simp] theorem State.receive_kin (s : State) (x : Input) : (s.receive x).kin = s.kin := by cases x <;> rfl
@[simp] theorem State.receive_st (s : State) (x : Input) : (s.receive x).st = s.st := by cases x <;> rfl
@[simp] theorem State.receive_fault (s : State) (x : Input) : (s.receive x).fault = s.fault := by cases x <;> rfl
@[simp] theorem State.receive_cfg (s : State) (x : Input) : (s.receive x).cfg = s.cfg := by cases x <;> rfl
@[simp] theorem State.receive_returned (s : State) (x : Input) : (s.receive x).returned = s.returned := by cases x <;> rfl
@[simp] theorem State.receive_issue_schedule (s : State) (a : Agent) (bytes : List Byte) : (s.receive (.issue a bytes)).schedule = s.schedule ++ [.turn a] := rfl
@[simp] theorem State.receive_issue_streams (s : State) (a : Agent) (bytes : List Byte) : (s.receive (.issue a bytes)).streams = s.streams.set a (s.streams.get a ++ bytes) := rfl
@[simp] theorem State.receive_reset_schedule (s : State) : (s.receive .reset).schedule = .reset :: s.schedule := rfl
@[simp] theorem State.receive_reset_streams (s : State) : (s.receive .reset).streams = s.streams := rfl

end Sys2Proof.Machine
end

