-- ==== Sys2Proof/Laws/Ops.lean ====
section
/-! SUPPORT. What each shared operation can do, said once: inversion and completion lemmas for performing an operation
and for the pseudocode of each unit. -/

namespace Sys2Proof.Machine

/-! ## Performing an operation -/

theorem guarded_of_ready {s : State} (hv : s.cfg.valid = true) (hf : s.fault.cause = .none)
    (o : Host.Outcome State Fault Refusal) : guarded s o = o := by
  simp [guarded, hv, hf]

theorem guarded_of_invalid {s : State} (hv : s.cfg.valid = false) (o : Host.Outcome State Fault Refusal) :
    guarded s o = .refused .badConfiguration := by
  simp [guarded, hv]

theorem guarded_of_faulted {s : State} (hv : s.cfg.valid = true) (hf : s.fault.cause ≠ .none)
    (o : Host.Outcome State Fault Refusal) : guarded s o = .fault .stuck := by
  simp [guarded, hv, hf]

/-- Where a guarded outcome is a next state, the block was ready and the outcome was that one. -/
theorem guarded_next {s t : State} {o : Host.Outcome State Fault Refusal} (h : guarded s o = .next t) :
    s.cfg.valid = true ∧ s.fault.cause = .none ∧ o = .next t := by
  unfold guarded at h
  split at h
  · split at h
    · exact ⟨‹_›, ‹_›, h⟩
    · cases h
  · cases h

theorem perform_ok {i : Instr} {s t : State} (hv : s.cfg.valid = true) (hf : s.fault.cause = .none) :
    perform i (.ok t) s = .next t := guarded_of_ready hv hf _

theorem perform_error {i : Instr} {s : State} {c : Cause} (hv : s.cfg.valid = true) (hf : s.fault.cause = .none) :
    perform i (.error c) s = .next (s.raise c (encode i)) := guarded_of_ready hv hf _

/-- Everything a performed operation can do when it answers a next state: all its writes, or one raise. -/
theorem perform_next {i : Instr} {body : Except Cause State} {s t : State} (h : perform i body s = .next t) :
    s.cfg.valid = true ∧ s.fault.cause = .none ∧
      (body = .ok t ∨ ∃ c, body = .error c ∧ t = s.raise c (encode i)) := by
  obtain ⟨hv, hf, ho⟩ := guarded_next h
  refine ⟨hv, hf, ?_⟩
  cases body with
  | ok u => left; cases ho; rfl
  | error c => right; cases ho; exact ⟨c, rfl, rfl⟩

/-! ## The units' pseudocode -/

theorem edgeA_ok {w : Wheel} {a : Bit} {s t : State} (h : edgeA w a s = .ok t) :
    s.cfg.outOfTickRange (countA (s.qd.get w) a) = false ∧
      t = s.setQd w { s.qd.get w with ticks := countA (s.qd.get w) a, lastA := a } := by
  unfold edgeA at h
  split at h
  · cases h
  · rename_i hb
    cases h
    exact ⟨by simpa using hb, rfl⟩

theorem edgeA_error {w : Wheel} {a : Bit} {s : State} {c : Cause} (h : edgeA w a s = .error c) :
    s.cfg.outOfTickRange (countA (s.qd.get w) a) = true ∧ c = .tickRange := by
  unfold edgeA at h
  split at h
  · cases h; exact ⟨‹_›, rfl⟩
  · cases h

theorem edgeB_ok {w : Wheel} {b : Bit} {s t : State} (h : edgeB w b s = .ok t) :
    s.cfg.outOfTickRange (countB (s.qd.get w) b) = false ∧
      t = s.setQd w { s.qd.get w with ticks := countB (s.qd.get w) b, lastB := b } := by
  unfold edgeB at h
  split at h
  · cases h
  · rename_i hb
    cases h
    exact ⟨by simpa using hb, rfl⟩

theorem edgeB_error {w : Wheel} {b : Bit} {s : State} {c : Cause} (h : edgeB w b s = .error c) :
    s.cfg.outOfTickRange (countB (s.qd.get w) b) = true ∧ c = .tickRange := by
  unfold edgeB at h
  split at h
  · cases h; exact ⟨‹_›, rfl⟩
  · cases h

theorem estimate_ok {w : Wheel} {s t : State} (h : estimate w s = .ok t) :
    (ticksPerRevolution s.cfg).isFinite = true ∧ (angularVelocity s.cfg (tickDelta s w)).isFinite = true ∧
      (linearVelocity s.cfg (angularVelocity s.cfg (tickDelta s w))).isFinite = true ∧
      t = s.setVe w { prev := (s.qd.get w).ticks, ang := angularVelocity s.cfg (tickDelta s w),
                      lin := linearVelocity s.cfg (angularVelocity s.cfg (tickDelta s w)) } := by
  simp only [estimate] at h
  split at h
  · rename_i hb
    simp only [estimateAllFinite, Bool.and_eq_true] at hb
    cases h
    exact ⟨hb.1.1, hb.1.2, hb.2, rfl⟩
  · cases h

theorem estimate_error {w : Wheel} {s : State} {c : Cause} (h : estimate w s = .error c) :
    estimateAllFinite s.cfg (tickDelta s w) = false ∧ c = .nonFinite := by
  simp only [estimate] at h
  split at h
  · cases h
  · rename_i hb
    cases h
    exact ⟨by simpa using hb, rfl⟩

/-- The check of VE.TICK leaves no intermediate that is not finite (R233, log entry 16). -/
theorem estimateAllFinite_intermediates {c : Config} {delta : Int} (h : estimateAllFinite c delta = true) :
    (Number.ofInt c.num delta).isFinite = true ∧
      (Number.div c.num (.ofInt c.num delta) (ticksPerRevolution c)).isFinite = true ∧
      (Number.mul c.num (.div c.num (.ofInt c.num delta) (ticksPerRevolution c)) (.twoPi c.num)).isFinite = true := by
  simp only [estimateAllFinite, Bool.and_eq_true] at h
  have hproduct := Number.isFinite_of_div _ h.1.2
  have hquotient := (Number.isFinite_of_mul _ hproduct).1
  exact ⟨Number.isFinite_of_div _ hquotient, hquotient, hproduct⟩

theorem actForward_ok {w : Wheel} {duty : Number} {s t : State} (h : actForward w duty s = .ok t) :
    dutyInRange duty = true ∧ t = s.setAct w { dirF := true, dirB := false, pwm := duty } := by
  unfold actForward at h
  split at h
  · cases h; exact ⟨‹_›, rfl⟩
  · cases h

theorem actForward_error {w : Wheel} {duty : Number} {s : State} {c : Cause} (h : actForward w duty s = .error c) :
    dutyInRange duty = false ∧ c = .cvDuty := by
  unfold actForward at h
  split at h
  · cases h
  · rename_i hb
    cases h
    exact ⟨by simpa using hb, rfl⟩

theorem actBackward_ok {w : Wheel} {duty : Number} {s t : State} (h : actBackward w duty s = .ok t) :
    dutyInRange duty = true ∧ t = s.setAct w { dirF := false, dirB := true, pwm := duty } := by
  unfold actBackward at h
  split at h
  · cases h; exact ⟨‹_›, rfl⟩
  · cases h

theorem actBackward_error {w : Wheel} {duty : Number} {s : State} {c : Cause} (h : actBackward w duty s = .error c) :
    dutyInRange duty = false ∧ c = .cvDuty := by
  unfold actBackward at h
  split at h
  · cases h
  · rename_i hb
    cases h
    exact ⟨by simpa using hb, rfl⟩

theorem setTarget_ok {w : Wheel} {x : Number} {s t : State} (h : setTarget w x s = .ok t) :
    x.isFinite = true ∧
      ((x.eq (s.pid.get w).target = false ∧
          t = s.setPid w { s.pid.get w with target := x, integral := .zero, cycles := 0 }) ∨
       (x.eq (s.pid.get w).target = true ∧ t = s)) := by
  unfold setTarget at h
  split at h
  · cases h
  · rename_i hx
    have hx' : x.isFinite = true := by simpa using hx
    split at h
    · rename_i hn
      cases h
      exact ⟨hx', .inl ⟨by simpa [Number.ne] using hn, rfl⟩⟩
    · rename_i hn
      cases h
      exact ⟨hx', .inr ⟨by simpa [Number.ne] using hn, rfl⟩⟩

theorem setTarget_error {w : Wheel} {x : Number} {s : State} {c : Cause} (h : setTarget w x s = .error c) :
    x.isFinite = false ∧ c = .nonFinite := by
  unfold setTarget at h
  split at h
  · rename_i hx
    cases h
    exact ⟨by simpa using hx, rfl⟩
  · split at h <;> cases h

theorem driveActuator_ok {w : Wheel} {u : Number} {s t : State} (h : driveActuator w u s = .ok t) :
    (Number.zero.lt u = true ∧ actForward w u s = .ok t) ∨
    (Number.zero.lt u = false ∧ u.lt .zero = true ∧ actBackward w u.neg s = .ok t) ∨
    (Number.zero.lt u = false ∧ u.lt .zero = false ∧ t = actStop w s) := by
  unfold driveActuator at h
  split at h
  · exact .inl ⟨‹_›, h⟩
  · rename_i h0
    have h0' : Number.zero.lt u = false := by simpa using h0
    split at h
    · exact .inr (.inl ⟨h0', ‹_›, h⟩)
    · cases h
      exact .inr (.inr ⟨h0', by simpa using ‹¬ u.lt .zero = true›, rfl⟩)

theorem driveActuator_error {w : Wheel} {u : Number} {s : State} {c : Cause} (h : driveActuator w u s = .error c) :
    c = .cvDuty := by
  unfold driveActuator at h
  split at h
  · exact (actForward_error h).2
  · split at h
    · exact (actBackward_error h).2
    · cases h

/-- The duty contract is a bound on the value (R210). -/
theorem dutyInRange_iff (x : Number) :
    dutyInRange x = true ↔ x.isFinite = true ∧ 0 ≤ x.toRat ∧ x.toRat ≤ 1 := by
  constructor
  · intro h
    simp only [dutyInRange, Bool.and_eq_true] at h
    have hf := Number.isFinite_of_le (x := .zero) (z := .one) rfl rfl h.1 h.2
    rw [Number.le_iff rfl hf, Number.le_iff hf rfl, Number.toRat_zero, Number.toRat_one] at h
    exact ⟨hf, h⟩
  · rintro ⟨hf, h⟩
    simp only [dutyInRange, Bool.and_eq_true]
    rw [Number.le_iff rfl hf, Number.le_iff hf rfl, Number.toRat_zero, Number.toRat_one]
    exact h

/-- A saturated value is in `[-1, 1]` (R145). -/
theorem saturate_spec {x : Number} (hx : x.isFinite = true) :
    (saturate x).isFinite = true ∧ -1 ≤ (saturate x).toRat ∧ (saturate x).toRat ≤ 1 := by
  unfold saturate
  split
  · simp
  · rename_i h1
    rw [Number.lt_iff rfl hx, Number.toRat_one, not_lt] at h1
    split
    · simp
    · rename_i h2
      rw [Number.lt_iff hx rfl, Number.toRat_negOne, not_lt] at h2
      exact ⟨hx, h2, h1⟩

/-- A drive with a value in `[-1, 1]` never raises (R231). -/
theorem driveActuator_completes {w : Wheel} {u : Number} (s : State) (hf : u.isFinite = true) (hl : -1 ≤ u.toRat)
    (hh : u.toRat ≤ 1) : ∃ t, driveActuator w u s = .ok t := by
  unfold driveActuator
  split
  · rename_i h0
    rw [Number.lt_iff rfl hf, Number.toRat_zero] at h0
    exact ⟨_, if_pos ((dutyInRange_iff u).mpr ⟨hf, h0.le, hh⟩)⟩
  · split
    · rename_i h0
      rw [Number.lt_iff hf rfl, Number.toRat_zero] at h0
      refine ⟨_, if_pos ((dutyInRange_iff u.neg).mpr ⟨by simpa using hf, ?_, ?_⟩)⟩ <;>
        rw [Number.toRat_neg] <;> linarith
    · exact ⟨_, rfl⟩

/-- A drive writes the wheel's Actuator only. -/
theorem driveActuator_writes {w : Wheel} {u : Number} {s t : State} (h : driveActuator w u s = .ok t) :
    ∃ x, t = s.setAct w x := by
  rcases driveActuator_ok h with ⟨-, h'⟩ | ⟨-, -, h'⟩ | ⟨-, -, h'⟩
  · exact ⟨_, (actForward_ok h').2⟩
  · exact ⟨_, (actBackward_ok h').2⟩
  · exact ⟨_, h'⟩

/-- The regulator's bank after a REGULATING cycle (R145). -/
theorem regulate_ok {w : Wheel} {s t : State} (h : regulate w s = .ok t) :
    pidAllFinite s w = true ∧
      driveActuator w (saturate (pidRawDuty s w))
        (s.setPid w { s.pid.get w with
          prevErr := pidError s w, integral := pidIntegral s w, duty := saturate (pidRawDuty s w),
          cycles := (s.pid.get w).cycles + 1 }) = .ok t := by
  unfold regulate at h
  split at h
  · exact ⟨‹_›, h⟩
  · cases h

theorem regulate_error {w : Wheel} {s : State} {c : Cause} (h : regulate w s = .error c) :
    pidAllFinite s w = false ∧ c = .nonFinite := by
  unfold regulate at h
  split at h
  · rename_i hf
    simp only [pidAllFinite, Bool.and_eq_true] at hf
    obtain ⟨h1, h2, h3⟩ := saturate_spec hf.2
    obtain ⟨t, ht⟩ := driveActuator_completes (w := w) _ h1 h2 h3
    rw [ht] at h
    cases h
  · rename_i hf
    cases h
    exact ⟨by simpa using hf, rfl⟩

theorem pidCycle_error {w : Wheel} {s : State} {c : Cause} (h : pidCycle w s = .error c) :
    s.stopped w = false ∧ pidAllFinite s w = false ∧ c = .nonFinite := by
  unfold pidCycle at h
  split at h
  · cases h
  · rename_i hb
    exact ⟨by simpa using hb, regulate_error h⟩

theorem pidCycle_ok {w : Wheel} {s t : State} (h : pidCycle w s = .ok t) :
    (s.stopped w = true ∧ t = actStop w s) ∨ (s.stopped w = false ∧ regulate w s = .ok t) := by
  unfold pidCycle at h
  split at h
  · cases h; exact .inl ⟨‹_›, rfl⟩
  · rename_i hb
    exact .inr ⟨by simpa using hb, h⟩

theorem setVelocities_ok {v om : Number} {s t : State} (h : setVelocities v om s = .ok t) :
    v.isFinite = true ∧ om.isFinite = true ∧ (leftTarget s.cfg v om).isFinite = true ∧
      (rightTarget s.cfg v om).isFinite = true ∧
      ∃ u, setTarget .left (leftTarget s.cfg v om) s = .ok u ∧ setTarget .right (rightTarget s.cfg v om) u = .ok t := by
  unfold setVelocities at h
  split at h
  · rename_i h1
    simp only [Bool.and_eq_true] at h1
    split at h
    · rename_i h2
      simp only [Bool.and_eq_true] at h2
      split at h
      · rename_i u hu
        exact ⟨h1.1, h1.2, h2.1, h2.2, u, hu, h⟩
      · cases h
    · cases h
  · cases h

theorem setVelocities_error {v om : Number} {s : State} {c : Cause} (h : setVelocities v om s = .error c) :
    c = .nonFinite := by
  unfold setVelocities at h
  split at h
  · split at h
    · split at h
      · exact (setTarget_error h).2
      · rename_i hc
        cases h
        exact (setTarget_error hc).2
    · cases h; rfl
  · cases h; rfl

theorem getVelocities_ok {s t : State} (h : getVelocities s = .ok t) :
    (measuredLinear s.cfg (s.ve.get .left).lin (s.ve.get .right).lin).isFinite = true ∧
      (measuredAngular s.cfg (s.ve.get .left).lin (s.ve.get .right).lin).isFinite = true ∧
      t = (s.setKin { lm := (s.ve.get .left).lin, rm := (s.ve.get .right).lin,
                      v := measuredLinear s.cfg (s.ve.get .left).lin (s.ve.get .right).lin,
                      om := measuredAngular s.cfg (s.ve.get .left).lin (s.ve.get .right).lin }).giveResult
            (measuredLinear s.cfg (s.ve.get .left).lin (s.ve.get .right).lin)
            (measuredAngular s.cfg (s.ve.get .left).lin (s.ve.get .right).lin) := by
  simp only [getVelocities] at h
  split at h
  · rename_i hb
    simp only [Bool.and_eq_true] at hb
    cases h
    exact ⟨hb.1, hb.2, rfl⟩
  · cases h

theorem getVelocities_error {s : State} {c : Cause} (h : getVelocities s = .error c) : c = .nonFinite := by
  simp only [getVelocities] at h
  split at h
  · cases h
  · cases h; rfl

theorem setStepper_ok {d : Int} {s t : State} (h : setStepper d s = .ok t) :
    ∃ dir, directionOperand d = some dir ∧ t = s.setSt (setDirection s.cfg dir s.st) := by
  unfold setStepper at h
  split at h
  · cases h; exact ⟨_, ‹_›, rfl⟩
  · cases h

theorem setStepper_error {d : Int} {s : State} {c : Cause} (h : setStepper d s = .error c) :
    directionOperand d = none ∧ c = .cvDirection := by
  unfold setStepper at h
  split at h
  · cases h
  · cases h; exact ⟨‹_›, rfl⟩

/-! ## Every operation at once -/

/-- The pseudocode of an operation (R13 point 4). -/
def pseudocode (s : State) : Instr → Except Cause State
  | .qdEdgeA w a => edgeA w a s
  | .qdEdgeB w b => edgeB w b s
  | .veTick w => estimate w s
  | .pidSet w t => setTarget w (s.numOperand t) s
  | .pidTick w => pidCycle w s
  | .kinSet v om => setVelocities (s.numOperand v) (s.numOperand om) s
  | .kinGet => getVelocities s
  | .stTick => .ok (s.setSt (stepperTick s.cfg s.st))
  | .stSetDir d => setStepper d s
  | .actFwd w duty => actForward w (s.numOperand duty) s
  | .actBwd w duty => actBackward w (s.numOperand duty) s
  | .actStop w => .ok (actStop w s)
  | .actHalt w => .ok (actHalt w s)

theorem exec_eq_perform (i : Instr) (s : State) : exec i s = perform i (pseudocode s i) s := by cases i <;> rfl

theorem exec_invalid {s : State} (hv : s.cfg.valid = false) (i : Instr) :
    exec i s = .refused .badConfiguration := by
  rw [exec_eq_perform]
  exact guarded_of_invalid hv _

theorem exec_faulted {s : State} (hv : s.cfg.valid = true) (hf : s.fault.cause ≠ .none) (i : Instr) :
    exec i s = .fault .stuck := by
  rw [exec_eq_perform]
  exact guarded_of_faulted hv hf _

theorem exec_ok {i : Instr} {s t : State} (hv : s.cfg.valid = true) (hf : s.fault.cause = .none)
    (h : pseudocode s i = .ok t) : exec i s = .next t := by
  rw [exec_eq_perform, h]
  exact perform_ok hv hf

theorem exec_error {i : Instr} {s : State} {c : Cause} (hv : s.cfg.valid = true) (hf : s.fault.cause = .none)
    (h : pseudocode s i = .error c) : exec i s = .next (s.raise c (encode i)) := by
  rw [exec_eq_perform, h]
  exact perform_error hv hf

/-- Everything an operation can do when it answers a next state. -/
theorem exec_next {i : Instr} {s t : State} (h : exec i s = .next t) :
    s.cfg.valid = true ∧ s.fault.cause = .none ∧
      (pseudocode s i = .ok t ∨ ∃ c, pseudocode s i = .error c ∧ t = s.raise c (encode i)) :=
  perform_next (exec_eq_perform i s ▸ h)

/-- What no operation's pseudocode writes: the configuration, the fault register, the streams and the schedule. -/
theorem pseudocode_keeps {i : Instr} {s t : State} (h : pseudocode s i = .ok t) :
    t.cfg = s.cfg ∧ t.fault = s.fault ∧ t.streams = s.streams ∧ t.schedule = s.schedule := by
  cases i with
  | qdEdgeA w a => obtain ⟨-, rfl⟩ := edgeA_ok h; simp
  | qdEdgeB w b => obtain ⟨-, rfl⟩ := edgeB_ok h; simp
  | veTick w => obtain ⟨-, -, -, rfl⟩ := estimate_ok h; simp
  | pidSet w t => obtain ⟨-, ⟨-, rfl⟩ | ⟨-, rfl⟩⟩ := setTarget_ok h <;> simp
  | pidTick w =>
    obtain ⟨-, rfl⟩ | ⟨-, h⟩ := pidCycle_ok h
    · simp [actStop]
    · obtain ⟨x, rfl⟩ := driveActuator_writes (regulate_ok h).2
      simp
  | kinSet v om =>
    obtain ⟨-, -, -, -, u, hl, hr⟩ := setVelocities_ok h
    obtain ⟨-, ⟨-, rfl⟩ | ⟨-, rfl⟩⟩ := setTarget_ok hl <;>
      obtain ⟨-, ⟨-, rfl⟩ | ⟨-, rfl⟩⟩ := setTarget_ok hr <;> simp
  | kinGet => obtain ⟨-, -, rfl⟩ := getVelocities_ok h; simp
  | stTick => cases h; simp
  | stSetDir d => obtain ⟨dir, -, rfl⟩ := setStepper_ok h; simp
  | actFwd w duty => obtain ⟨-, rfl⟩ := actForward_ok h; simp
  | actBwd w duty => obtain ⟨-, rfl⟩ := actBackward_ok h; simp
  | actStop w => cases h; simp [actStop]
  | actHalt w => cases h; simp [actHalt]

/-- No operation writes the configuration, the streams or the schedule, whether it raises or not. -/
theorem exec_keeps {i : Instr} {s t : State} (h : exec i s = .next t) :
    t.cfg = s.cfg ∧ t.streams = s.streams ∧ t.schedule = s.schedule := by
  obtain ⟨-, -, h | ⟨c, -, rfl⟩⟩ := exec_next h
  · obtain ⟨hc, -, hs⟩ := pseudocode_keeps h
    exact ⟨hc, hs⟩
  · simp

/-! ## Steps -/

theorem step_invalid {s : State} (hv : s.cfg.valid = false) : step s = .refused .badConfiguration := by
  unfold step fetch
  rw [hv]
  rfl

theorem step_nothing_scheduled {s : State} (hv : s.cfg.valid = true) (hs : s.schedule = []) : step s = .next s := by
  unfold step fetch
  rw [hv, if_pos rfl, hs]

theorem step_reset {s : State} {events : List Event} (hv : s.cfg.valid = true) (hs : s.schedule = .reset :: events) :
    step s = .next { s with schedule := events }.resetEvent := by
  unfold step fetch
  rw [hv, if_pos rfl, hs]

theorem step_faulted_turn {s : State} {a : Agent} {events : List Event} (hv : s.cfg.valid = true)
    (hf : s.fault.cause ≠ .none) (hs : s.schedule = .turn a :: events) : step s = .fault .stuck := by
  unfold step fetch
  rw [hv, if_pos rfl, hs]
  simp only [if_neg hf]

theorem step_turn {s : State} {a : Agent} {events : List Event} (hv : s.cfg.valid = true)
    (hf : s.fault.cause = .none) (hs : s.schedule = .turn a :: events) :
    step s = match decode (s.streams.get a) with
      | .record i rest => exec i (s.taken events a rest)
      | .illegal op rest => .next ((s.taken events a rest).raise .illegalOp [op])
      | .incomplete => .next { s with schedule := events } := by
  unfold step fetch
  rw [hv, if_pos rfl, hs]
  simp only [if_pos hf, fetchRecord]
  cases decode (s.streams.get a) with
  | record i rest => rfl
  | illegal op rest => exact guarded_of_ready (s := s.taken events a rest) hv hf _
  | incomplete => rfl

/-- Everything a step can do when it answers a next state. -/
theorem step_next {s t : State} (h : step s = .next t) :
    s.cfg.valid = true ∧
      ((s.schedule = [] ∧ t = s) ∨
       (∃ events, s.schedule = .reset :: events ∧ t = { s with schedule := events }.resetEvent) ∨
       (∃ a events, s.schedule = .turn a :: events ∧ s.fault.cause = .none ∧
         ((∃ i rest, decode (s.streams.get a) = .record i rest ∧ exec i (s.taken events a rest) = .next t) ∨
          (∃ op rest, decode (s.streams.get a) = .illegal op rest ∧
            t = (s.taken events a rest).raise .illegalOp [op]) ∨
          (decode (s.streams.get a) = .incomplete ∧ t = { s with schedule := events })))) := by
  unfold step fetch at h
  cases hv : s.cfg.valid with
  | false => simp [hv] at h
  | true =>
    refine ⟨rfl, ?_⟩
    simp only [hv, if_true] at h
    cases hs : s.schedule with
    | nil =>
      simp only [hs] at h
      cases h
      exact .inl ⟨rfl, rfl⟩
    | cons e events =>
      cases e with
      | reset =>
        simp only [hs] at h
        cases h
        exact .inr (.inl ⟨events, rfl, rfl⟩)
      | turn a =>
        simp only [hs] at h
        by_cases hf : s.fault.cause = .none
        · refine .inr (.inr ⟨a, events, rfl, hf, ?_⟩)
          simp only [hf, if_true, fetchRecord] at h
          cases hd : decode (s.streams.get a) with
          | record i rest =>
            simp only [hd] at h
            exact .inl ⟨i, rest, rfl, h⟩
          | illegal op rest =>
            simp only [hd] at h
            have h' : performIllegal op (s.taken events a rest) = .next t := h
            obtain ⟨-, -, ho⟩ := guarded_next h'
            cases ho
            exact .inr (.inl ⟨op, rest, rfl, rfl⟩)
          | incomplete =>
            simp only [hd] at h
            cases h
            exact .inr (.inr ⟨rfl, rfl⟩)
        · simp [hf] at h

end Sys2Proof.Machine
end

