-- ==== Sys2Proof/Laws/PerInstr.lean ====
section
/-! SUPPORT. Statements made once per operation, about the operation as syntax. Family RecordLength: a record is as
long as its code byte says (30_encoding.md R76, R78). -/

namespace Sys2Proof.Laws.RecordLength

/-- The length of an operation's record is the one its code byte alone gives. -/
def Statement (i : Instr) : Prop := (encode i).length = recordLength i.codeByte

theorem qdEdgeA (w : Wheel) (a : Bit) : Statement (.qdEdgeA w a) := by cases w <;> cases a <;> rfl

theorem qdEdgeB (w : Wheel) (b : Bit) : Statement (.qdEdgeB w b) := by cases w <;> cases b <;> rfl

theorem veTick (w : Wheel) : Statement (.veTick w) := by cases w <;> rfl

theorem pidSet (w : Wheel) (t : Pattern) : Statement (.pidSet w t) := by
  have h : recordLength (Instr.pidSet w t).codeByte = 9 := by
    change recordLength (0x40#8 ||| Instr.codeByte.wheelField w) = 9
    cases w <;> decide
  rw [Statement, h, encode, List.length_cons, Instr.payloadBytes, length_patternBytes]

theorem pidTick (w : Wheel) : Statement (.pidTick w) := by cases w <;> rfl

theorem kinSet (v om : Pattern) : Statement (.kinSet v om) := by
  have h : recordLength 0x60#8 = 17 := by decide
  change _ = recordLength 0x60#8
  rw [h, encode, List.length_cons, Instr.payloadBytes, List.length_append, length_patternBytes, length_patternBytes]

theorem kinGet : Statement .kinGet := rfl

theorem stTick : Statement .stTick := rfl

theorem stSetDir (d : Int) : Statement (.stSetDir d) := by
  have h : recordLength 0x81#8 = 2 := by decide
  change _ = recordLength 0x81#8
  rw [h]
  rfl

theorem actFwd (w : Wheel) (duty : Pattern) : Statement (.actFwd w duty) := by
  have h : recordLength (Instr.actFwd w duty).codeByte = 9 := by
    change recordLength (0xA0#8 ||| Instr.codeByte.wheelField w) = 9
    cases w <;> decide
  rw [Statement, h, encode, List.length_cons, Instr.payloadBytes, length_patternBytes]

theorem actBwd (w : Wheel) (duty : Pattern) : Statement (.actBwd w duty) := by
  have h : recordLength (Instr.actBwd w duty).codeByte = 9 := by
    change recordLength (0xA1#8 ||| Instr.codeByte.wheelField w) = 9
    cases w <;> decide
  rw [Statement, h, encode, List.length_cons, Instr.payloadBytes, length_patternBytes]

theorem actStop (w : Wheel) : Statement (.actStop w) := by cases w <;> rfl

theorem actHalt (w : Wheel) : Statement (.actHalt w) := by cases w <;> rfl

end Sys2Proof.Laws.RecordLength
end

