-- ==== Sys2Proof/Laws/Run.lean ====
section
/-! SUPPORT. That no operation reads or writes the records and turns to come, what arriving inputs leave unchanged, what
one issued record makes the next step do, and the induction along a run, said once. -/

namespace Sys2Proof.Machine

/-! ## Operations and what is to come -/

/-- A check and its writes commute with a change of what neither reads nor writes. -/
theorem map_check {α : Type} (b : Prop) [Decidable b] (f : α → α) (x y : Except Cause α) :
    (if b then x else y).map f = if b then x.map f else y.map f := apply_ite _ _ _ _

/-- The state with other records to come and another schedule. -/
def State.withQueues (s : State) (streams : Streams) (schedule : List Event) : State :=
  { s with streams := streams, schedule := schedule }

theorem setTarget_withQueues (w : Wheel) (x : Number) (s : State) (st : Streams) (sc : List Event) :
    setTarget w x (s.withQueues st sc) = (setTarget w x s).map (·.withQueues st sc) := by
  simp only [setTarget, map_check]
  rfl

theorem driveActuator_withQueues (w : Wheel) (u : Number) (s : State) (st : Streams) (sc : List Event) :
    driveActuator w u (s.withQueues st sc) = (driveActuator w u s).map (·.withQueues st sc) := by
  simp only [driveActuator, actForward, actBackward, map_check]
  rfl

/-- No operation reads the records and turns to come: with others, it does the same. -/
theorem pseudocode_withQueues (i : Instr) (s : State) (st : Streams) (sc : List Event) :
    pseudocode (s.withQueues st sc) i = (pseudocode s i).map (·.withQueues st sc) := by
  cases i with
  | qdEdgeA w a => simp only [pseudocode, edgeA, map_check]; rfl
  | qdEdgeB w b => simp only [pseudocode, edgeB, map_check]; rfl
  | veTick w => simp only [pseudocode, estimate, map_check]; rfl
  | pidSet w t => exact setTarget_withQueues w _ s st sc
  | pidTick w =>
    simp only [pseudocode, pidCycle, regulate, map_check, ← driveActuator_withQueues]
    rfl
  | kinSet v om =>
    have hc : (s.withQueues st sc).cfg = s.cfg := rfl
    have hn : ∀ p, (s.withQueues st sc).numOperand p = s.numOperand p := fun _ => rfl
    simp only [pseudocode, setVelocities, hc, hn, setTarget_withQueues]
    split
    · split
      · cases setTarget .left (leftTarget s.cfg (s.numOperand v) (s.numOperand om)) s with
        | ok t => exact setTarget_withQueues .right _ t st sc
        | error c => rfl
      · rfl
    · rfl
  | kinGet => simp only [pseudocode, getVelocities, map_check]; rfl
  | stTick => rfl
  | stSetDir d => simp only [pseudocode, setStepper]; split <;> rfl
  | actFwd w duty => simp only [pseudocode, actForward, map_check]; rfl
  | actBwd w duty => simp only [pseudocode, actBackward, map_check]; rfl
  | actStop w => rfl
  | actHalt w => rfl

theorem exec_withQueues (i : Instr) (s : State) (st : Streams) (sc : List Event) :
    exec i (s.withQueues st sc) = mapNext (·.withQueues st sc) (exec i s) := by
  rw [exec_eq_perform, exec_eq_perform, pseudocode_withQueues]
  have hv : (s.withQueues st sc).cfg = s.cfg := rfl
  have hf : (s.withQueues st sc).fault = s.fault := rfl
  simp only [perform, guarded, hv, hf]
  split
  · split
    · cases pseudocode s i <;> rfl
    · rfl
  · rfl

/-! ## Inputs and runs -/

/-- A periodic agent's operation is one it issues, and every record carries it. -/
theorem periodicOperation_issues {a : Agent} {i : Instr} (h : a.periodicOperation = some i) :
    a.issues i = true ∧ i.wellFormed = true := by
  cases a <;> cases h <;> first | exact ⟨rfl, rfl⟩ | exact ⟨beq_self_eq_true _, rfl⟩

/-- R172 takes nothing from R14's lists. -/
theorem issues_mayIssue {a : Agent} {i : Instr} (h : a.issues i = true) : a.mayIssue i = true := by
  simp [Agent.mayIssue, h]

/-- The next operation of a turn that keeps to R14 is one R14 lists for its agent. -/
theorem ownershipKept_nextOperation {s : State} {a : Agent} {i : Instr} (hk : s.ownershipKept = true)
    (h : s.nextOperation = some (a, i)) : a.issues i = true := by
  unfold State.nextOperation at h
  unfold State.ownershipKept at hk
  split at h
  · rename_i b events hs
    split at h
    · rename_i j rest hd
      cases h
      simpa only [hs, hd] using hk
    · cases h
    · cases h
  · cases h
  · cases h

/-- Inputs change only the streams and the schedule. -/
theorem receiveAll_eq_withQueues (inputs : List Input) (s : State) :
    s.receiveAll inputs = s.withQueues (s.receiveAll inputs).streams (s.receiveAll inputs).schedule := by
  induction inputs generalizing s with
  | nil => rfl
  | cons x xs ih =>
    refine (ih (s.receive x)).trans ?_
    cases x <;> rfl

/-- Where nothing is pending, a whole record an agent issues is what the next step performs, with no other change. -/
theorem advance_issue {s : State} {a : Agent} {i : Instr} {bytes : List Byte} (hv : s.cfg.valid = true)
    (hf : s.fault.cause = .none) (hs : s.schedule = []) (ha : s.streams.get a = [])
    (hd : decode bytes = .record i []) : advance [.issue a bytes] s = exec i s := by
  have hr : s.receiveAll [.issue a bytes] = s.receive (.issue a bytes) := rfl
  rw [advance, hr, step_turn (a := a) (events := []) (by simpa using hv) (by simpa using hf) (by simp [hs])]
  simp only [State.receive_issue_streams, Streams.get_set_self, ha, List.nil_append, hd]
  congr 1
  simp only [State.receive, State.taken, Streams.set_set, ← ha, Streams.set_get_self, ← hs]

/-- A reset that arrives is the next step, whatever is scheduled and whatever fault is held (log entry 9). -/
theorem advance_reset {s : State} (hv : s.cfg.valid = true) : advance [.reset] s = .next s.resetEvent :=
  step_reset (s := s.receive .reset) (events := s.schedule) hv rfl

/-- What the next operation is, in the terms of the step: with the block ready, the step performs it. -/
theorem step_nextOperation {s : State} {a : Agent} {i : Instr} (hv : s.cfg.valid = true)
    (hf : s.fault.cause = .none) (h : s.nextOperation = some (a, i)) :
    ∃ events rest, s.schedule = .turn a :: events ∧ step s = exec i (s.taken events a rest) := by
  unfold State.nextOperation at h
  split at h
  · rename_i b events hs
    split at h
    · rename_i j rest hd
      cases h
      exact ⟨events, rest, hs, by rw [step_turn hv hf hs, hd]⟩
    · cases h
    · cases h
  · cases h
  · cases h

/-- What holds at a run's first state, and is kept by what arrives and by every step, holds along the run. -/
theorem IsRun.invariant {P : State → Prop} (hin : ∀ s x, P s → P (s.receive x))
    (hstep : ∀ s t, P s → step s = .next t → P t) {inputs : Nat → List Input} {states : Nat → State} {n : Nat}
    (hr : IsRun inputs states n) (h0 : P (states 0)) : ∀ k, k ≤ n → P (states k) := by
  have hall : ∀ (xs : List Input) s, P s → P (s.receiveAll xs) := by
    intro xs
    induction xs with
    | nil => exact fun _ h => h
    | cons x xs ih => exact fun s h => ih _ (hin s x h)
  intro k
  induction k with
  | zero => exact fun _ => h0
  | succ k ih => exact fun hk => hstep _ _ (hall _ _ (ih (by omega))) (hr k (by omega))

end Sys2Proof.Machine
end

