-- ==== Sys2Proof/Tests/Slice0.lean ====
section
/-! SUPPORT. Tests of one step each, with expected values from 30_encoding.md and 95_test_vectors.md, and for every
statement with hypotheses a theorem that shows them met. A pattern is written in hexadecimal beside its decimal. -/

namespace Sys2Proof.Tests

-- One theorem after the other: many kernel evaluations at once take many threads.
set_option Elab.async false

open Sys2Proof.Machine

/-! ## Helpers -/

/-- The next state of an outcome. -/
def nextState : Host.Outcome State Fault Refusal → Option State
  | .next s => some s
  | .fault _ => none
  | .refused _ => none

theorem next_where {o : Host.Outcome State Fault Refusal} (p : State → Bool) (h : (nextState o).any p = true) :
    ∃ t, o = .next t ∧ p t = true := by
  cases o with
  | next t => exact ⟨t, rfl, h⟩
  | fault r => cases h
  | refused r => cases h

/-- The Num with a binary64 pattern. -/
def num (p : Pattern) : Number := .ofPattern p

/-- The reset state with another configuration, and a left counter and its levels. -/
def counted (c : Config) (n : Int) (a b : Bit) : State := (State.resetWith c).setQd .left ⟨n, a, b⟩

/-- CFG-A with `TICK_BITS = 4`. -/
def narrow : Config := { Config.cfgA with tickBits := 4 }

/-- The reset state with a left regulator of the given target, integral and cycles (and `prevErr` 0.2, duty 0.13). -/
def regulated (target integral : Pattern) (cycles : Nat) : State :=
  State.reset.setPid .left
    { target := num target, prevErr := num 0x3fc999999999999a#64, integral := num integral,
      duty := num 0x3fc0a3d70a3d70a4#64, cycles := cycles }

/-- The reset state with the two measured linear velocities. -/
def measured (l r : Pattern) : State :=
  (State.reset.setVe .left { prev := 0, ang := .zero, lin := num l }).setVe .right
    { prev := 0, ang := .zero, lin := num r }

/-- The reset state with a stepper's direction, position and step output. -/
def stepping (d : Dir) (pos : Int) (out : Bit) : State :=
  State.reset.setSt { dir := d, enabled := decide (d ≠ .idle), pos := pos, stepOut := out, dirLine := false,
                      enLine := decide (d ≠ .idle) }

/-- A binary16 configuration whose `CPR × GEAR_RATIO` (512 × 150) is infinite, of numbers that binary16 has. -/
def overflowing : Config :=
  { num := .binary16, cpr := .fin false 1 9, gearRatio := .fin false 75 1, period := .one, wheelRadius := .one,
    kp := .one, ki := .zero, kd := .zero, regVelFreq := 2, wheelSep := .one, limit := 2, pulseWidthUs := .one,
    telemetryFreq := .one, dirLevelFwd := true, tickBits := 32 }

/-- The state with one fault. -/
def faulted : State := State.reset.raise .cvDuty [0xA0#8]

theorem valid_cfgA : Config.cfgA.valid = true := by decide +kernel
theorem ready_reset : State.reset.Ready := ⟨valid_cfgA, rfl⟩
theorem valid_narrow : narrow.valid = true := by decide +kernel
theorem ready_narrow (n : Int) (a b : Bit) : (counted narrow n a b).Ready := ⟨valid_narrow, rfl⟩
theorem ready_counted (n : Int) (a b : Bit) : (counted .cfgA n a b).Ready := ⟨valid_cfgA, rfl⟩
theorem ready_regulated (t i : Pattern) (k : Nat) : (regulated t i k).Ready := ⟨valid_cfgA, rfl⟩
theorem ready_measured (l r : Pattern) : (measured l r).Ready := ⟨valid_cfgA, rfl⟩
theorem ready_stepping (d : Dir) (n : Int) (o : Bit) : (stepping d n o).Ready := ⟨valid_cfgA, rfl⟩
theorem ready_record (bytes : List Byte) : (State.reset.withRecord bytes).Ready := ⟨valid_cfgA, rfl⟩

/-! ## WellFormed: an ill-formed term for each check -/

theorem test_wellFormed_refuses :
    (Instr.stSetDir 128).wellFormed = false ∧ (Instr.stSetDir (-129)).wellFormed = false ∧
    (Instr.stSetDir 127).wellFormed = true ∧ (Instr.stSetDir (-128)).wellFormed = true := by decide

/-! ## Decoding: a record of every operation, from the fields of R70 and R74 -/

theorem test_decode_qdEdgeA : decode [0b00010001#8] = .record (.qdEdgeA .right true) [] := by decide
theorem test_decode_qdEdgeB : decode [0b00000010#8] = .record (.qdEdgeB .left false) [] := by decide
theorem test_decode_veTick : decode [0b00110000#8] = .record (.veTick .right) [] := by decide
theorem test_decode_pidSet :
    decode [0b01010000#8, 0x9a#8, 0x99#8, 0x99#8, 0x99#8, 0x99#8, 0x99#8, 0xc9#8, 0x3f#8] =
      .record (.pidSet .right 0x3fc999999999999a#64) [] := by decide +kernel
theorem test_decode_pidTick : decode [0b01000001#8] = .record (.pidTick .left) [] := by decide
theorem test_decode_kinSet :
    decode [0b01100000#8, 0x33#8, 0x33#8, 0x33#8, 0x33#8, 0x33#8, 0x33#8, 0xd3#8, 0x3f#8,
            0x66#8, 0x66#8, 0x66#8, 0x66#8, 0x66#8, 0x66#8, 0xe6#8, 0x3f#8] =
      .record (.kinSet 0x3fd3333333333333#64 0x3fe6666666666666#64) [] := by decide +kernel
theorem test_decode_kinGet : decode [0b01100001#8] = .record .kinGet [] := by decide
theorem test_decode_stTick : decode [0b10000000#8] = .record .stTick [] := by decide
theorem test_decode_stSetDir : decode [0b10000001#8, 0xff#8] = .record (.stSetDir (-1)) [] := by decide
theorem test_decode_actFwd :
    decode [0b10110000#8, 0#8, 0#8, 0#8, 0#8, 0#8, 0#8, 0xe0#8, 0x3f#8] =
      .record (.actFwd .right 0x3fe0000000000000#64) [] := by decide +kernel
theorem test_decode_actBwd :
    decode [0b10100001#8, 0#8, 0#8, 0#8, 0#8, 0#8, 0#8, 0xd0#8, 0x3f#8] =
      .record (.actBwd .left 0x3fd0000000000000#64) [] := by decide +kernel
theorem test_decode_actStop : decode [0b10110010#8] = .record (.actStop .right) [] := by decide
theorem test_decode_actHalt : decode [0b10100011#8] = .record (.actHalt .left) [] := by decide

/-- The reserved codes 95_test_vectors.md L2 lists. -/
theorem test_decode_illegal :
    [0x04#8, 0x21#8, 0x42#8, 0x62#8, 0x70#8, 0x90#8, 0xa4#8, 0xc0#8, 0xe0#8, 0xff#8].all
      (fun op => decode [op] == .illegal op []) = true := by decide

/-- A whole stream is read record by record (R79). -/
theorem test_decode_incomplete :
    decode [] = .incomplete ∧ decode [0x81#8] = .incomplete ∧
    decode (0x60#8 :: List.replicate 15 0#8) = .incomplete := by decide

/-- The host's numbering: byte `k` is bits `8k+7..8k`. -/
theorem test_decodeTableWord :
    decodeTableWord 16 0xff81 = some (.stSetDir (-1)) ∧
    decodeTableWord 72 0x3fc999999999999a40 = some (.pidSet .left 0x3fc999999999999a#64) ∧
    decodeTableWord 8 0x04 = none := by decide +kernel

theorem test_withFetchWord :
    (nextState (step (State.reset.withFetchWord 16 0x0181))).map (fun t => t.st.dir) = some .fwd := by decide +kernel

/-! ## The text form (R80, R81) -/

theorem test_assemble_line :
    assembleLine "pid.set L, 0.2   # 40 9a".toList =
      some [.pidSet .left 0x3fc999999999999a#64] := by decide +kernel

theorem test_assemble_hex_and_pseudo :
    assembleLine "act.fwd R, 0x1.0a3d70a3d70a4p-3".toList = some [.actFwd .right 0x3fc0a3d70a3d70a4#64] ∧
    assembleLine "qd.cycle_rev L".toList =
      some [.qdEdgeB .left true, .qdEdgeA .left true, .qdEdgeB .left false, .qdEdgeA .left false] ∧
    assembleLine "st.setdir 128".toList = none := by
  decide +kernel

/-! ## One step of each operation (95_test_vectors.md) -/

/-- L2: `TICK_BITS = 4`, ticks 7: level 1 raises, level 0 counts down. -/
theorem test_qdEdgeA :
    (nextState (exec (.qdEdgeA .left true) (counted narrow 7 false false))).map (fun t => (t.fault, t.qd.left)) =
      some (⟨.tickRange, [0x01#8]⟩, ⟨7, false, false⟩) ∧
    (nextState (exec (.qdEdgeA .left false) (counted narrow 7 false false))).map (fun t => t.qd.left) =
      some ⟨6, false, false⟩ := by decide +kernel

/-- L2: 1, 1, 0 with `qd.edgeb L, 1`, and the lower bound. -/
theorem test_qdEdgeB :
    (nextState (exec (.qdEdgeB .left true) (counted .cfgA 1 true false))).map (fun t => t.qd.left) =
      some ⟨2, true, true⟩ ∧
    (nextState (exec (.qdEdgeB .left true) (counted narrow (-8) false false))).map (fun t => t.fault) =
      some ⟨.tickRange, [0x03#8]⟩ := by decide +kernel

/-- L2: delta -4 gives ang -0.39269908169872414 and lin -0.014726215563702155. -/
theorem test_veTick :
    (nextState (exec (.veTick .left) (counted .cfgA (-4) false false))).map (fun t => t.ve.left) =
      some ⟨-4, num 0xbfd921fb54442d18#64, num 0xbf8e28c731eb6950#64⟩ ∧
    (nextState (exec (.veTick .left) (counted overflowing 4 false false))).any
      (fun t => t.fault == { cause := .nonFinite, info := [0x20#8] } && t.ve.get .left == Ve.reset) = true := by
  decide +kernel

/-- L2: `CPR = 48, GEAR_RATIO = 46.85`, delta 1: 0.13970084727809468 and 0.00523878177292855. -/
theorem test_veTick_inexact :
    (nextState (exec (.veTick .left)
      (counted { Config.cfgA with cpr := num 0x4048000000000000#64, gearRatio := num 0x40476ccccccccccd#64 }
        1 false false))).map (fun t => t.ve.left) =
      some ⟨1, num 0x3fc1e1b7a524364e#64, num 0x3f757542c62b745d#64⟩ := by decide +kernel

/-- L2: `pid.set L, 0.3` keeps duty and prevErr. -/
theorem test_pidSet :
    (nextState (exec (.pidSet .left 0x3fd3333333333333#64)
      (regulated 0x3fc999999999999a#64 0x3fc999999999999a#64 1))).map (fun t => t.pid.left) =
      some ⟨num 0x3fd3333333333333#64, num 0x3fc999999999999a#64, .zero, num 0x3fc0a3d70a3d70a4#64, 0⟩ := by
  decide +kernel

/-- L2: `pid.set L, -0.0` is another target where the current one is 0.2. -/
theorem test_pidSet_negZero :
    (nextState (exec (.pidSet .left 0x8000000000000000#64)
      (regulated 0x3fc999999999999a#64 0x3fc999999999999a#64 1))).map
        (fun t => (t.pid.left.target, t.pid.left.cycles, t.stopped .left)) =
      some (num 0x8000000000000000#64, 0, true) := by decide +kernel

/-- L2, tick 2: integral 0.4, duty 0.27, and ACT[L] = 1, 0, 0.27. -/
theorem test_pidTick :
    (nextState (exec (.pidTick .left) (regulated 0x3fc999999999999a#64 0x3fc999999999999a#64 1))).map
        (fun t => (t.pid.left.integral, t.pid.left.duty, t.pid.left.cycles, t.act.left)) =
      some (num 0x3fd999999999999a#64, num 0x3fd147ae147ae148#64, 2, ⟨true, false, num 0x3fd147ae147ae148#64⟩) := by
  decide +kernel

/-- L2: `KP = 10, KI = 0, KD = 0`, target -1.0 on R: duty -1.0, ACT[R] = 0, 1, 1.0. -/
theorem test_pidTick_saturates :
    (nextState (exec (.pidTick .right)
      ((State.resetWith { Config.cfgA with kp := num 0x4024000000000000#64, ki := .zero, kd := .zero }).setPid .right
        { Pid.reset with target := .negOne }))).map (fun t => (t.pid.right.duty, t.act.right)) =
      some (.negOne, ⟨false, true, .one⟩) := by decide +kernel

/-- W7: `kin.set 0.5, -1.5` gives 0.7865 and 0.21350000000000002. -/
theorem test_kinSet :
    (nextState (exec (.kinSet 0x3fe0000000000000#64 0xbff8000000000000#64) State.reset)).map
        (fun t => (t.pid.left.target, t.pid.right.target)) =
      some (num 0x3fe92b020c49ba5e#64, num 0x3fcb53f7ced91688#64) := by decide +kernel

/-- L2: `kin.set 1.7e308, 1e308`: the right target overflows, and neither is written. -/
theorem test_kinSet_overflow :
    (nextState (exec (.kinSet 0x7fee42d130773b76#64 0x7fe1ccf385ebc8a0#64) State.reset)).map
        (fun t => (t.fault.cause, t.pid)) = some (.nonFinite, State.reset.pid) := by decide +kernel

/-- L2: velocities -0.014726215563702155 and its negation: returns (0.0, 0.07710060504556102). -/
theorem test_kinGet :
    (nextState (exec .kinGet (measured 0xbf8e28c731eb6950#64 0x3f8e28c731eb6950#64))).map
        (fun t => (t.returned, t.kin.om)) =
      some ([(.zero, num 0x3fb3bcdd812c28c6#64)], num 0x3fb3bcdd812c28c6#64) := by decide +kernel

/-- L2: 1.7e308 twice: lm + rm overflows, the cache stays. -/
theorem test_kinGet_overflow :
    (nextState (exec .kinGet (measured 0x7fee42d130773b76#64 0x7fee42d130773b76#64))).map
        (fun t => (t.fault, t.kin, t.returned)) = some (⟨.nonFinite, [0x61#8]⟩, Kin.reset, []) := by decide +kernel

/-- L2: FWD at 2 moves to 3 = `LIMIT + 1`, and IDLE at -3 to -2. -/
theorem test_stTick :
    (nextState (exec .stTick (stepping .fwd 2 false))).map (fun t => (t.st.pos, t.st.stepOut)) = some (3, true) ∧
    (nextState (exec .stTick (stepping .idle (-3) true))).map (fun t => (t.st.pos, t.st.stepOut)) =
      some (-2, false) := by decide +kernel

/-- L2: REV at -2 moves to -3, and there it stays. -/
theorem test_stTick_rev :
    (nextState (exec .stTick (stepping .rev (-2) false))).map (fun t => (t.st.pos, t.st.stepOut)) =
      some (-3, true) ∧
    (nextState (exec .stTick (stepping .rev (-3) true))).map (fun t => (t.st.pos, t.st.stepOut)) =
      some (-3, true) := by decide +kernel

/-- L2: `DIR_LEVEL_FWD = 0` and `st.setdir -1` from reset. -/
theorem test_stSetDir :
    (nextState (exec (.stSetDir (-1)) (State.resetWith { Config.cfgA with dirLevelFwd := false }))).map
        (fun t => t.st) = some ⟨.rev, true, 0, false, true, true⟩ := by decide +kernel

/-- L2: `st.setdir 2` raises with its record. -/
theorem test_stSetDir_raises :
    (nextState (exec (.stSetDir 2) State.reset)).map (fun t => (t.fault, t.st)) =
      some (⟨.cvDirection, [0x81#8, 0x02#8]⟩, St.reset) := by decide +kernel

/-- L2: `act.fwd L, -0.0` passes with its sign, and 1.0000000000000002 raises. -/
theorem test_actFwd :
    (nextState (exec (.actFwd .left 0x8000000000000000#64) State.reset)).map (fun t => t.act.left) =
      some ⟨true, false, .fin true 0 0⟩ ∧
    (nextState (exec (.actFwd .left 0x3ff0000000000001#64) State.reset)).map (fun t => t.fault.cause) =
      some .cvDuty := by decide +kernel

/-- L2: `act.bwd L, 0.25`, and -0.1 raises. -/
theorem test_actBwd :
    (nextState (exec (.actBwd .left 0x3fd0000000000000#64) State.reset)).map (fun t => t.act.left) =
      some ⟨false, true, num 0x3fd0000000000000#64⟩ ∧
    (nextState (exec (.actBwd .left 0xbfb999999999999a#64) State.reset)).map (fun t => (t.fault.cause, t.act)) =
      some (.cvDuty, State.reset.act) := by decide +kernel

/-- L2: 0, 1, 0.25 with `act.stop L` and with `act.halt L`. -/
theorem test_actStop :
    (nextState (exec (.actStop .left) (State.reset.setAct .left ⟨false, true, num 0x3fd0000000000000#64⟩))).map
        (fun t => t.act.left) = some ⟨false, true, .zero⟩ := by decide +kernel

theorem test_actHalt :
    (nextState (exec (.actHalt .left) (State.reset.setAct .left ⟨false, true, num 0x3fd0000000000000#64⟩))).map
        (fun t => t.act.left) = some ⟨false, false, num 0x3fd0000000000000#64⟩ := by decide +kernel

/-- L2, faults: a record after a fault has no step. -/
theorem test_stuck : nextState (step (faulted.withRecord [0x80#8])) = none := by decide +kernel

/-- P6: the code 04 raises with its byte. -/
theorem test_illegal :
    (nextState (step (State.reset.withRecord [0x04#8, 0x20#8]))).map (fun t => (t.fault, t.streams.command)) =
      some (⟨.illegalOp, [0x04#8]⟩, [0x20#8]) := by decide +kernel

/-! ## The hypotheses of the statements are met, clause by clause, at the bounds where they have any -/

/-- R14's lists: KIN.GET is the telemetry sampler's, and the command path has it only by R172. -/
theorem test_agent_issues :
    Agent.telemetry.issues .kinGet = true ∧ Agent.command.issues .kinGet = false ∧
    Agent.command.mayIssue .kinGet = true ∧ Agent.telemetry.mayIssue .stTick = false := by decide

/-- Two agents' inputs in one gap: the first to arrive has the first turn (R55, R56). -/
theorem test_advance :
    (nextState (advance [.issue .stepper [0x80#8], .issue .command [0x81#8, 0x01#8]] State.reset)).any
      (fun t => t.st.pos == 1 && t.st.dir == .idle && t.schedule == [.turn .command] &&
        t.streams.get .command == [0x81#8, 0x01#8]) = true := by
  decide +kernel

theorem nextState_eq {o : Host.Outcome State Fault Refusal} {t : State} (h : nextState o = some t) : o = .next t := by
  cases o with
  | next u => cases h; rfl
  | fault r => cases h
  | refused r => cases h

theorem witness_DecodeOfEncode :
    [Instr.qdEdgeA .right true, .qdEdgeB .left false, .veTick .left, .pidSet .right 0x7ff8000000000000#64,
     .pidTick .left, .kinSet 0#64 0xffffffffffffffff#64, .kinGet, .stTick, .stSetDir (-128), .stSetDir 127,
     .actFwd .left 1#64, .actBwd .right 0#64, .actStop .left, .actHalt .right].all Instr.wellFormed = true := by
  decide

theorem witness_EncodeOfDecode : decode [0x81#8, 0x80#8, 0x20#8] = .record (.stSetDir (-128)) [0x20#8] := by decide

theorem witness_ReservedCodesAndRecordLengths :
    decodeOp 0xff#8 = none ∧ (decodeOp 0x60#8).map (fun r => r.payload) = some .num2 ∧ recordLength 0x60#8 = 17 := by
  decide

theorem witness_PatternIsBinary64 :
    Number.ofPattern 0x7ff0000000000000#64 = .inf false ∧ Number.ofPattern 0xfff8000000000000#64 = .nan ∧
    Number.ofPattern 0x0000000000000001#64 = .fin false 1 (-1074) ∧
    Number.ofPattern 0x8000000000000000#64 = .fin true 0 0 ∧
    Number.ofPattern 0x0010000000000000#64 = .fin false 1 (-1022) ∧
    Number.ofPattern 0x7fefffffffffffff#64 = .fin false 9007199254740991 971 ∧
    State.reset.cfg.num = .binary64 := by decide +kernel

theorem witness_ArithmeticIsCorrectlyRounded :
    Number.half.isFinite = true ∧ Number.one.isFinite = true ∧ Number.one.toRat ≠ 0 := ⟨rfl, rfl, by simp⟩

theorem witness_ComparisonsAreIeee :
    (Number.fin true 0 0).isFinite = true ∧ Number.zero.isFinite = true ∧ Number.nan = .nan := ⟨rfl, rfl, rfl⟩

theorem witness_StepRunsDecodedOperation :
    let s := State.reset.withRecord [0x11#8, 0x20#8]
    s.Ready ∧ s.schedule = .turn .command :: [] ∧
      decode (s.streams.get .command) = .record (.qdEdgeA .right true) [0x20#8] :=
  ⟨ready_record _, rfl, by decide⟩

theorem witness_StepWithNothingIssued :
    (State.reset.cfg.valid = true ∧ State.reset.schedule = []) ∧
    (let s := State.reset.withRecord [0x60#8]
     s.Ready ∧ s.schedule = .turn .command :: [] ∧ decode (s.streams.get .command) = .incomplete) :=
  ⟨⟨valid_cfgA, rfl⟩, ready_record _, rfl, by decide⟩

theorem witness_ReservedCodeRaisesIllegalOp :
    let s := State.reset.withRecord [0x04#8, 0x20#8]
    s.Ready ∧ s.schedule = .turn .command :: [] ∧ s.streams.get .command = 0x04#8 :: [0x20#8] ∧
      decodeOp 0x04#8 = none :=
  ⟨ready_record _, rfl, rfl, by decide⟩

theorem witness_ResetRestoresEveryField :
    let s : State := { faulted with schedule := [.reset] }
    s.cfg.valid = true ∧ s.schedule = .reset :: [] ∧ s.fault.cause ≠ .none ∧
      ∃ t, step s = .next t ∧ t.fault.cause = .none := by
  refine ⟨valid_cfgA, rfl, by decide, ?_⟩
  obtain ⟨t, h, hp⟩ := next_where (o := step { faulted with schedule := [.reset] })
    (fun t => decide (t.fault.cause = .none)) (by decide +kernel)
  exact ⟨t, h, by simpa using hp⟩

theorem witness_FaultIsStickyUntilReset :
    faulted.cfg.valid = true ∧ faulted.fault.cause ≠ .none ∧
      (faulted.withRecord [0x80#8]).schedule = .turn .command :: [] ∧ step faulted = .next faulted :=
  ⟨valid_cfgA, by decide, rfl, step_nothing_scheduled valid_cfgA rfl⟩

/-- Each kind of constraint of R6 violated at its bound: a NaN, a zero, and the two integer bounds. -/
theorem witness_BadConfigurationIsRefused :
    (¬ ∀ x ∈ [Number.nan], x.isFinite = true) ∧ (¬ (0 : ℚ) < Number.zero.toRat) ∧
    ¬ 1 ≤ ({ Config.cfgA with regVelFreq := 0 } : Config).regVelFreq ∧
    ¬ 2 ≤ ({ Config.cfgA with tickBits := 1 } : Config).tickBits :=
  ⟨by decide, by simp, by decide, by decide⟩

theorem witness_RaiseRecordsCauseAndRecord :
    ∃ t, exec (.actFwd .left 0x7ff8000000000000#64) State.reset = .next t ∧ t.fault ≠ State.reset.fault := by
  obtain ⟨t, h, hp⟩ := next_where (o := exec (.actFwd .left 0x7ff8000000000000#64) State.reset)
    (fun t => decide (t.fault ≠ State.reset.fault)) (by decide +kernel)
  exact ⟨t, h, by simpa using hp⟩

theorem witness_ConfigurationIsNeverWritten : step State.reset = .next State.reset :=
  step_nothing_scheduled valid_cfgA rfl

/-- The last count that stays in range, and the first that leaves it, at both ends of `TICK_BITS = 4`. -/
theorem witness_EdgeACountsOrRaises :
    (counted narrow 6 false false).Ready ∧
    ((-8 : Int) ≤ 6 + 1 ∧ (6 : Int) + 1 ≤ narrow.tickMax ∧ narrow.tickMin = -8) ∧
    (narrow.tickMax < 7 + 1) ∧ (-8 + -1 < narrow.tickMin) :=
  ⟨ready_narrow _ _ _, by decide, by decide, by decide⟩

theorem witness_EdgeBCountsOrRaises :
    (counted narrow (-7) false false).Ready ∧
    (narrow.tickMin ≤ -7 + -1 ∧ -7 + -1 ≤ narrow.tickMax) ∧ (-8 + -1 < narrow.tickMin) ∧ (narrow.tickMax < 7 + 1) :=
  ⟨ready_narrow _ _ _, by decide, by decide, by decide⟩

/-- An edge at a level already known. -/
theorem witness_EveryEdgeCountsOne :
    ∃ t, exec (.qdEdgeA .left true) (counted .cfgA 1 true false) = .next t ∧ t.fault.cause = .none := by
  obtain ⟨t, h, hp⟩ := next_where (o := exec (.qdEdgeA .left true) (counted .cfgA 1 true false))
    (fun t => decide (t.fault.cause = .none)) (by decide +kernel)
  exact ⟨t, h, by simpa using hp⟩

/-- The two edges of R106 at the ends of `TICK_BITS = 4` that their bounds still admit. -/
theorem witness_FullCycleCountsFour :
    let s := counted .cfgA 0 false false
    let f := counted .cfgA (-4) true true
    s.Ready ∧ f.Ready ∧ (s.qd.get .left).lastA = false ∧ (s.qd.get .left).lastB = false ∧
      (s.cfg.tickMin ≤ (s.qd.get .left).ticks - 4 ∧ (s.qd.get .left).ticks + 4 ≤ s.cfg.tickMax) ∧
      (f.qd.get .left).lastA = true ∧ (f.qd.get .left).lastB = true ∧
      (f.cfg.tickMin ≤ (f.qd.get .left).ticks - 1 ∧ (f.qd.get .left).ticks + 1 ≤ f.cfg.tickMax) ∧
      (counted narrow 5 false false).Ready ∧ (counted narrow (-6) false false).Ready ∧
      (narrow.tickMin ≤ 5 - 2 ∧ 5 + 2 ≤ narrow.tickMax) ∧ (narrow.tickMin ≤ -6 - 2 ∧ -6 + 2 ≤ narrow.tickMax) :=
  ⟨ready_counted _ _ _, ready_counted _ _ _, rfl, rfl, by decide +kernel, rfl, rfl, by decide +kernel,
    ready_narrow _ _ _, ready_narrow _ _ _, by decide, by decide⟩

theorem witness_FrameOfEdges :
    (∃ t, exec (.qdEdgeA .right true) State.reset = .next t) ∧
    (∃ t, exec (.qdEdgeB .left true) State.reset = .next t) := by
  obtain ⟨t, h, -⟩ := next_where (o := exec (.qdEdgeA .right true) State.reset) (fun _ => true) (by decide +kernel)
  obtain ⟨u, h', -⟩ := next_where (o := exec (.qdEdgeB .left true) State.reset) (fun _ => true) (by decide +kernel)
  exact ⟨⟨t, h⟩, u, h'⟩

/-- R260: a reset that arrives clears a fault also where a turn is scheduled, which has no step. -/
theorem test_reset_arrives :
    (nextState (advance [.reset] (faulted.withRecord [0x80#8]))).any
      (fun t => t.fault.cause == .none && t.schedule == [.turn .command]) = true := by
  decide +kernel

/-- One revolution is finite; with `WHEEL_RADIUS` the largest Num, ang is finite and lin is not. -/
theorem witness_EstimatorTick :
    (counted .cfgA 3200 false false).Ready ∧ (ticksPerRevolution .cfgA).isFinite = true ∧
    overflowing.valid = true ∧ (ticksPerRevolution overflowing).isFinite = false ∧
    (angularVelocity overflowing 4).isFinite = true ∧
    (angularVelocity .cfgA 3200).isFinite = true ∧
    (linearVelocity .cfgA (angularVelocity .cfgA 3200)).isFinite = true ∧
    ({ Config.cfgA with wheelRadius := num 0x7fefffffffffffff#64 } : Config).valid = true ∧
    (linearVelocity { Config.cfgA with wheelRadius := num 0x7fefffffffffffff#64 }
      (angularVelocity .cfgA 3200)).isFinite = false :=
  ⟨ready_counted _ _ _, by decide +kernel, by decide +kernel, by decide +kernel, by decide +kernel,
    by decide +kernel, by decide +kernel, by decide +kernel, by decide +kernel⟩

theorem witness_EstimatorZeroDelta :
    let s := State.reset
    s.Ready ∧ (s.qd.get .left).ticks = (s.ve.get .left).prev ∧
      Number.zero.lt (Number.mul s.cfg.num s.cfg.cpr s.cfg.gearRatio) = true ∧
      (Number.mul s.cfg.num s.cfg.cpr s.cfg.gearRatio).isFinite = true :=
  ⟨ready_reset, rfl, by decide +kernel⟩

theorem witness_EstimatorOneRevolution :
    let s := counted .cfgA 3200 false false
    let n := s.cfg.num
    let delta := (s.qd.get .left).ticks - (s.ve.get .left).prev
    let revolution := Number.mul n s.cfg.cpr s.cfg.gearRatio
    let ang := Number.div n (Number.twoPi n) s.cfg.period
    s.Ready ∧ delta ≠ 0 ∧ revolution.isFinite = true ∧ (Number.ofInt n delta).eq revolution = true ∧
      ang.isFinite = true ∧ (Number.mul n ang s.cfg.wheelRadius).isFinite = true :=
  ⟨ready_counted _ _ _, by decide +kernel⟩

theorem witness_EstimatorIsOdd :
    let s := counted .cfgA 4 false false
    let s' := counted .cfgA (-4) false false
    s'.Ready ∧ s'.cfg = s.cfg ∧
      (s'.qd.get .left).ticks - (s'.ve.get .left).prev = -((s.qd.get .left).ticks - (s.ve.get .left).prev) ∧
      0 < (s.qd.get .left).ticks - (s.ve.get .left).prev ∧
      ∃ t, exec (.veTick .left) s = .next t ∧ t.fault.cause = .none := by
  refine ⟨ready_counted _ _ _, rfl, by decide, by decide, ?_⟩
  obtain ⟨t, h, hp⟩ := next_where (o := exec (.veTick .left) (counted .cfgA 4 false false))
    (fun t => decide (t.fault.cause = .none)) (by decide +kernel)
  exact ⟨t, h, by simpa using hp⟩

theorem ticksInRange_reset : State.reset.TicksInRange :=
  ⟨fun w => by cases w <;> decide +kernel, fun w => by cases w <;> decide +kernel⟩

theorem witness_TickDeltaIsBounded : State.reset.TicksInRange ∧ 1 ≤ State.reset.cfg.tickBits :=
  ⟨ticksInRange_reset, by decide⟩

theorem witness_FrameOfEstimator : ∃ t, exec (.veTick .left) State.reset = .next t := by
  obtain ⟨t, h, -⟩ := next_where (o := exec (.veTick .left) State.reset) (fun _ => true) (by decide +kernel)
  exact ⟨t, h⟩

/-- A different target, the current target (-0.0 at 0.0), and an infinite one. -/
theorem witness_PidSetWritesTarget :
    State.reset.Ready ∧
    ((num 0x3fc999999999999a#64).isFinite = true ∧
      (num 0x3fc999999999999a#64).eq (State.reset.pid.get .left).target = false) ∧
    ((num 0x8000000000000000#64).isFinite = true ∧
      (num 0x8000000000000000#64).eq (State.reset.pid.get .left).target = true) ∧
    (num 0x7ff0000000000000#64).isFinite = false :=
  ⟨ready_reset, by decide +kernel⟩

/-- A zero target, and a count of `REG_VEL_FREQ + 1`. -/
theorem witness_StoppedTickOnlyStops :
    State.reset.Ready ∧ (State.reset.pid.get .left).target.eq (.fin false 0 0) = true ∧
    (regulated 0x3fc999999999999a#64 0#64 3).Ready ∧
    (regulated 0x3fc999999999999a#64 0#64 3).cfg.regVelFreq < 3 :=
  ⟨ready_reset, by decide +kernel, ready_regulated _ _ _, by decide⟩

/-- A count of exactly `REG_VEL_FREQ` with everything finite, and an error that overflows. -/
theorem witness_RegulatingTick :
    let s := regulated 0x3fc999999999999a#64 0#64 2
    let h := (regulated 0x7fe1ccf385ebc8a0#64 0#64 0).setVe .left
      { prev := 0, ang := .zero, lin := num 0xffe1ccf385ebc8a0#64 }
    s.Ready ∧ (s.pid.get .left).target.eq (.fin false 0 0) = false ∧ (s.pid.get .left).cycles ≤ s.cfg.regVelFreq ∧
      pidAllFinite s .left = true ∧
      h.Ready ∧ (h.pid.get .left).target.eq (.fin false 0 0) = false ∧ (pidError h .left).isFinite = false :=
  ⟨ready_regulated _ _ _, by decide +kernel, by decide, by decide +kernel, ⟨valid_cfgA, rfl⟩, by decide +kernel,
    by decide +kernel⟩

/-- The state after `pid.set L, 0.2` from reset. -/
def commanded : State := State.reset.setPid .left { Pid.reset with target := num 0x3fc999999999999a#64 }

theorem exec_commanded : exec (.pidSet .left 0x3fc999999999999a#64) State.reset = .next commanded :=
  nextState_eq (by decide +kernel)

/-- The three REGULATING cycles of `REG_VEL_FREQ = 2`, with refreshes of the wheel's target by a PID.SET and a KIN.SET
(which changes the other wheel's) and other operations between them. -/
def refreshed : List Instr :=
  [.pidTick .left, .pidSet .left 0x3fc999999999999a#64, .kinGet, .pidTick .left,
   .kinSet 0x3fc999999999999a#64 0#64, .pidSet .right 0#64, .pidTick .left]

theorem witness_CommandExpires :
    exec (.pidSet .left 0x3fc999999999999a#64) State.reset = .next commanded ∧ commanded.fault.cause = .none ∧
    (State.reset.numOperand 0x3fc999999999999a#64).eq (State.reset.pid.get .left).target = false ∧
    (State.reset.numOperand 0x3fc999999999999a#64).eq (.fin false 0 0) = false ∧
    (∀ i ∈ refreshed, ∀ x, State.reset.givenTarget .left i = some x →
      x.eq (State.reset.numOperand 0x3fc999999999999a#64) = true) ∧
    ∃ t, performAll refreshed commanded = .next t ∧ t.fault.cause = .none := by
  have hg : (refreshed.all fun i => (State.reset.givenTarget .left i).all
      (·.eq (State.reset.numOperand 0x3fc999999999999a#64))) = true := by decide +kernel
  refine ⟨exec_commanded, rfl, by decide +kernel, by decide +kernel, ?_, ?_⟩
  · intro i hi x hx
    have := List.all_eq_true.mp hg i hi
    rw [hx] at this
    exact this
  · obtain ⟨t, h, hp⟩ := next_where (o := performAll refreshed commanded)
      (fun t => decide (t.fault.cause = .none)) (by decide +kernel)
    exact ⟨t, h, by simpa using hp⟩

/-- The same target for both wheels as `kin.set 0.2, 0.0` gives. -/
theorem witness_RefreshDoesNotExtend :
    let s := commanded.setPid .right { Pid.reset with target := num 0x3fc999999999999a#64 }
    (leftTarget s.cfg (s.numOperand 0x3fc999999999999a#64) (s.numOperand 0#64)).eq (s.pid.get .left).target = true ∧
    (rightTarget s.cfg (s.numOperand 0x3fc999999999999a#64) (s.numOperand 0#64)).eq (s.pid.get .right).target = true ∧
    ∃ t, exec (.kinSet 0x3fc999999999999a#64 0#64) s = .next t := by
  refine ⟨by decide +kernel, by decide +kernel, ?_⟩
  obtain ⟨t, h, -⟩ := next_where
    (o := exec (.kinSet 0x3fc999999999999a#64 0#64)
      (commanded.setPid .right { Pid.reset with target := num 0x3fc999999999999a#64 }))
    (fun _ => true) (by decide +kernel)
  exact ⟨t, h⟩

/-- A STOPPED tick, and an operation that is no tick of the wheel. -/
theorem witness_DutyAndErrorCarryOver :
    (∃ t, exec (.pidTick .left) State.reset = .next t ∧ State.reset.stopped .left = true) ∧
    (∃ t, exec (.pidTick .left) commanded = .next t ∧ Instr.pidTick .left ≠ .pidTick .right) := by
  obtain ⟨t, h, -⟩ := next_where (o := exec (.pidTick .left) State.reset) (fun _ => true) (by decide +kernel)
  obtain ⟨u, h', -⟩ := next_where (o := exec (.pidTick .left) commanded) (fun _ => true) (by decide +kernel)
  exact ⟨⟨t, h, by decide +kernel⟩, u, h', by decide⟩

theorem witness_FrameOfRegulator :
    (∃ t, exec (.pidTick .left) commanded = .next t) ∧
    exec (.pidSet .left 0x3fc999999999999a#64) State.reset = .next commanded := by
  obtain ⟨t, h, -⟩ := next_where (o := exec (.pidTick .left) commanded) (fun _ => true) (by decide +kernel)
  exact ⟨⟨t, h⟩, exec_commanded⟩

/-- `kin.set 1.0, 0.0` is finite throughout; with 1.7e308 and 1e308 only the right target is not. -/
theorem witness_KinSetSetsBothTargets :
    State.reset.Ready ∧
    (leftTarget .cfgA .one .zero).isFinite = true ∧ (rightTarget .cfgA .one .zero).isFinite = true ∧
    (leftTarget .cfgA (num 0x7fee42d130773b76#64) (num 0x7fe1ccf385ebc8a0#64)).isFinite = true ∧
    (rightTarget .cfgA (num 0x7fee42d130773b76#64) (num 0x7fe1ccf385ebc8a0#64)).isFinite = false :=
  ⟨ready_reset, by decide +kernel⟩

theorem witness_KinGetReturnsMeasured :
    (measured 0x3fe0000000000000#64 0x3fe0000000000000#64).Ready ∧
    (measuredLinear .cfgA .half .half).isFinite = true ∧ (measuredAngular .cfgA .half .half).isFinite = true ∧
    (measured 0x7fee42d130773b76#64 0x7fee42d130773b76#64).Ready ∧
    (measuredLinear .cfgA (num 0x7fee42d130773b76#64) (num 0x7fee42d130773b76#64)).isFinite = false :=
  ⟨ready_measured _ _, by decide +kernel, by decide +kernel, ready_measured _ _, by decide +kernel⟩

/-- The state after `kin.set 1.0, 0.0` from reset (W7). -/
def driven : State :=
  (State.reset.setPid .left { Pid.reset with target := .one }).setPid .right { Pid.reset with target := .one }

theorem witness_KinematicsRoundTrip :
    exec (.kinSet 0x3ff0000000000000#64 0#64) State.reset = .next driven ∧ driven.fault.cause = .none ∧
    (State.reset.numOperand 0#64).eq (.fin false 0 0) = true ∧
    (measured 0x3ff0000000000000#64 0x3ff0000000000000#64).cfg = State.reset.cfg ∧
    (∀ w, ((measured 0x3ff0000000000000#64 0x3ff0000000000000#64).ve.get w).lin = (driven.pid.get w).target) ∧
    ∃ t, exec .kinGet (measured 0x3ff0000000000000#64 0x3ff0000000000000#64) = .next t ∧ t.fault.cause = .none := by
  refine ⟨nextState_eq (by decide +kernel), rfl, by decide +kernel, rfl, fun w => by cases w <;> decide +kernel, ?_⟩
  obtain ⟨t, h, hp⟩ := next_where (o := exec .kinGet (measured 0x3ff0000000000000#64 0x3ff0000000000000#64))
    (fun t => decide (t.fault.cause = .none)) (by decide +kernel)
  exact ⟨t, h, by simpa using hp⟩

theorem witness_KinCacheIsReadByNothing : ∃ t, exec .kinGet State.reset = .next t := by
  obtain ⟨t, h, -⟩ := next_where (o := exec .kinGet State.reset) (fun _ => true) (by decide +kernel)
  exact ⟨t, h⟩

theorem witness_FrameOfKinematics :
    exec (.kinSet 0x3ff0000000000000#64 0#64) State.reset = .next driven ∧ ∃ t, exec .kinGet State.reset = .next t :=
  ⟨nextState_eq (by decide +kernel), witness_KinCacheIsReadByNothing⟩

/-- At each bound of the position, on both sides of it (`LIMIT = 2`). -/
theorem witness_StepperTick :
    (∀ d n o, (stepping d n o).Ready) ∧ (stepping .rev 0 false).cfg.limit = 2 ∧
    (-(2 : ℤ) ≤ -2) ∧ ((2 : ℤ) ≤ 2) ∧ (-3 < -(2 : ℤ)) ∧ ((2 : ℤ) < 3) ∧ Dir.idle ≠ .rev :=
  ⟨ready_stepping, rfl, by decide⟩

theorem witness_StepperSweepsToBound :
    (stepping .fwd 3 true).Ready ∧ (stepping .fwd 3 true).st.dir ≠ .rev ∧
    (stepping .fwd 3 true).st.pos ≤ ((stepping .fwd 3 true).cfg.limit : ℤ) + 1 ∧
    (stepping .rev (-3) true).Ready ∧ (stepping .rev (-3) true).st.dir = .rev ∧
    -((stepping .rev (-3) true).cfg.limit : ℤ) - 1 ≤ (stepping .rev (-3) true).st.pos :=
  ⟨ready_stepping _ _ _, by decide, by decide, ready_stepping _ _ _, rfl, by decide⟩

theorem witness_SetDirection :
    State.reset.Ready ∧ ((-128 : ℤ) ≤ -128 ∧ (-128 : ℤ) ≤ 127) ∧ ((-128 : ℤ) ≤ 127 ∧ (127 : ℤ) ≤ 127) ∧
    ((-128 : ℤ) ≤ -2 ∧ (2 : ℤ) ≤ 127) ∧ ((2 : ℤ) ≠ 0 ∧ (2 : ℤ) ≠ 1 ∧ (2 : ℤ) ≠ -1) ∧ ((-2 : ℤ) ≠ 0 ∧ (-2 : ℤ) ≠ 1 ∧ (-2 : ℤ) ≠ -1) :=
  ⟨ready_reset, by decide⟩

theorem witness_FrameOfStepper :
    (∃ t, exec .stTick State.reset = .next t) ∧ ∃ t, exec (.stSetDir 0) State.reset = .next t := by
  obtain ⟨t, h, -⟩ := next_where (o := exec .stTick State.reset) (fun _ => true) (by decide +kernel)
  obtain ⟨u, h', -⟩ := next_where (o := exec (.stSetDir 0) State.reset) (fun _ => true) (by decide +kernel)
  exact ⟨⟨t, h⟩, u, h'⟩

/-- Duties 0.0, 1.0 and -0.0 are inside; the next Num above 1.0, the least negative one and a NaN are outside. -/
theorem witness_DutyContract :
    State.reset.Ready ∧
    [0x0000000000000000#64, 0x3ff0000000000000#64, 0x8000000000000000#64].all
      (fun p => dutyInRange (State.reset.numOperand p)) = true ∧
    [0x3ff0000000000001#64, 0x8000000000000001#64, 0x7ff8000000000000#64].all
      (fun p => !dutyInRange (State.reset.numOperand p)) = true :=
  ⟨ready_reset, by decide +kernel, by decide +kernel⟩

theorem witness_StopAndHalt : (State.reset.setAct .left ⟨true, false, .half⟩).Ready := ⟨valid_cfgA, rfl⟩

theorem witness_FrameOfActuators :
    (∃ t, exec (.actFwd .left 0x3fe0000000000000#64) State.reset = .next t) ∧
    (∃ t, exec (.actBwd .right 0x3fe0000000000000#64) State.reset = .next t) ∧
    (∃ t, exec (.actStop .left) State.reset = .next t) ∧ ∃ t, exec (.actHalt .left) State.reset = .next t := by
  obtain ⟨t, h, -⟩ := next_where (o := exec (.actFwd .left 0x3fe0000000000000#64) State.reset) (fun _ => true)
    (by decide +kernel)
  obtain ⟨u, h', -⟩ := next_where (o := exec (.actBwd .right 0x3fe0000000000000#64) State.reset) (fun _ => true)
    (by decide +kernel)
  exact ⟨⟨t, h⟩, ⟨u, h'⟩, ⟨_, exec_ok valid_cfgA rfl rfl⟩, _, exec_ok valid_cfgA rfl rfl⟩

/-- The other wheel's bank differs in everything. -/
theorem witness_WheelsAreIndependent :
    let s' := ((commanded.setQd .right ⟨5, true, true⟩).setVe .right ⟨5, .one, .one⟩).setAct .right ⟨true, false, .one⟩
    (Instr.pidTick .left).wheel = some .left ∧ Wheel.right ≠ .left ∧ s'.qd.get .left = commanded.qd.get .left ∧
    s'.ve.get .left = commanded.ve.get .left ∧ s'.pid.get .left = commanded.pid.get .left ∧
    s'.act.get .left = commanded.act.get .left ∧ s'.cfg = commanded.cfg ∧ s'.fault = commanded.fault ∧
    s' ≠ commanded ∧ ∃ t, exec (.pidTick .left) commanded = .next t :=
  ⟨rfl, by decide, rfl, rfl, rfl, rfl, rfl, rfl, by decide +kernel, witness_FrameOfRegulator.1⟩

/-- A left channel-A edge at its interrupt's turn. -/
def edgeArrives : State :=
  { State.reset with
    schedule := [.turn (.edge .left .chanA)]
    streams := Streams.empty.set (.edge .left .chanA) [0x01#8] }

theorem witness_OnlyEdgeInterruptsCount :
    edgeArrives.schedule = .turn (.edge .left .chanA) :: [] ∧
    (∀ i rest, decode (edgeArrives.streams.get (.edge .left .chanA)) = .record i rest →
      (Agent.edge .left .chanA).mayIssue i = true) ∧
    ∃ t, step edgeArrives = .next t ∧ (t.qd.get .left).ticks ≠ (edgeArrives.qd.get .left).ticks := by
  refine ⟨rfl, ?_, ?_⟩
  · intro i rest h
    have hd : decode (edgeArrives.streams.get (.edge .left .chanA)) = .record (.qdEdgeA .left true) [] := by decide
    rw [hd] at h
    cases h
    rfl
  · obtain ⟨t, h, hp⟩ := next_where (o := step edgeArrives)
      (fun t => decide ((t.qd.get .left).ticks ≠ (edgeArrives.qd.get .left).ticks)) (by decide +kernel)
    exact ⟨t, h, by simpa using hp⟩

/-- Two records and the start of a third. -/
theorem witness_StreamRunsItsRecords :
    let s : State :=
      { State.reset with
        schedule := [.turn .command, .turn .command, .reset]
        streams := Streams.empty.set .command [0x81#8, 0x01#8, 0x61#8, 0x60#8] }
    (∀ i ∈ [Instr.stSetDir 1, .kinGet], i.wellFormed = true) ∧
    s.streams.get .command = recordStream [.stSetDir 1, .kinGet] ++ [0x60#8] ∧
    s.schedule = List.replicate [Instr.stSetDir 1, .kinGet].length (.turn .command) ++ [.reset] ∧ s.Ready :=
  ⟨by decide, by decide, by decide, valid_cfgA, rfl⟩

/-- A ready block with nothing pending, and edges of both levels without end. -/
theorem witness_RunsAreFiniteOrInfinite :
    let issued : ℕ → Agent × Instr := fun k => (.edge .left .chanA, .qdEdgeA .left (k % 2 == 0))
    State.reset.Ready ∧ State.reset.schedule = [] ∧ State.reset.streams = .empty ∧
    (∀ k, (issued k).2.wellFormed = true) ∧
    Config.cfgA.valid = true ∧
    Number.zero.lt (Number.mul Config.cfgA.num Config.cfgA.cpr Config.cfgA.gearRatio) = true ∧
    (Number.mul Config.cfgA.num Config.cfgA.cpr Config.cfgA.gearRatio).isFinite = true :=
  ⟨ready_reset, rfl, rfl, fun _ => rfl, valid_cfgA, by decide +kernel⟩

/-- A step is possible where every invariant's own bound is met with equality. -/
theorem step_where {s : State} (h : (nextState (step s)).isSome = true) : ∃ t, step s = .next t := by
  obtain ⟨t, ht, -⟩ := next_where (o := step s) (fun _ => true) (by cases hn : nextState (step s) <;> simp_all)
  exact ⟨t, ht⟩

/-- The tick counter at `TICK_MAX`, where the next edge raises. -/
theorem witness_TicksStayInRange :
    let s := (counted narrow 7 false false).withRecord [0x01#8]
    s.TicksInRange ∧ ∃ t, step s = .next t :=
  ⟨⟨fun w => by cases w <;> decide, fun w => by cases w <;> decide⟩, step_where (by decide +kernel)⟩

/-- The duty at -1, the count at `REG_VEL_FREQ + 1`. -/
theorem witness_PidBoundsAreKept :
    let s := (State.reset.setPid .left { Pid.reset with duty := .negOne, cycles := 3 }).withRecord [0x41#8]
    s.PidBounds ∧ ∃ t, step s = .next t :=
  ⟨⟨fun w => by cases w <;> decide, fun w => by cases w <;> decide, fun w => by cases w <;> decide,
    fun w => by cases w <;> decide, fun w => by cases w <;> decide, fun w => by cases w <;> decide,
    fun w => by cases w <;> decide⟩, step_where (by decide +kernel)⟩

theorem witness_PwmStaysInRange :
    let s := (State.reset.setAct .left ⟨true, false, .one⟩).withRecord [0xA3#8]
    s.PwmInRange ∧ ∃ t, step s = .next t :=
  ⟨fun w => by cases w <;> decide, step_where (by decide +kernel)⟩

/-- The position at `-LIMIT - 1`. -/
theorem witness_StepperStaysConsistent :
    let s := (stepping .rev (-3) true).withRecord [0x80#8]
    s.StepperConsistent ∧ ∃ t, step s = .next t :=
  ⟨⟨by decide, by decide, by decide, by decide, by decide⟩, step_where (by decide +kernel)⟩

theorem witness_NumsStayInFormat :
    let s := commanded.withRecord [0x41#8]
    s.NumsInFormat ∧ ∃ t, step s = .next t :=
  ⟨⟨fun w => by cases w <;> decide +kernel, fun w => by cases w <;> decide +kernel,
    fun w => by cases w <;> decide +kernel, by decide +kernel⟩, step_where (by decide +kernel)⟩

/-- With no fault, where the step raises one, and with one, where a reset comes. -/
theorem witness_FaultInfoStaysConsistent :
    (let s := State.reset.withRecord [0x04#8]
     s.FaultInfoConsistent ∧ ∃ t, step s = .next t) ∧
    (let s : State := { faulted with schedule := [.reset] }
     s.FaultInfoConsistent ∧ ∃ t, step s = .next t) :=
  ⟨⟨by simp [State.FaultInfoConsistent, State.withRecord, State.reset, FaultReg.reset], step_where (by decide +kernel)⟩,
    ⟨by simp [State.FaultInfoConsistent, faulted], step_where (by decide +kernel)⟩⟩

theorem witness_ResetMeetsInvariants : Config.cfgA.valid = true ∧ narrow.valid = true := ⟨valid_cfgA, valid_narrow⟩

/-- Two steps of what is placed at boot, and a run whose every step performs what arrives before it. -/
theorem witness_PidBoundsHoldFromReset :
    (∃ t, core.run 2 (State.boot .cfgA (Streams.empty.set .command [0x80#8]) [.turn .command, .reset]) = .next t) ∧
    ∃ states : ℕ → State, states 0 = State.boot .cfgA .empty [] ∧
      IsRun (fun _ => [.issue (.regulation .left) [0x41#8]]) states 1 := by
  constructor
  · obtain ⟨t, h, -⟩ := next_where
      (o := core.run 2 (State.boot .cfgA (Streams.empty.set .command [0x80#8]) [.turn .command, .reset]))
      (fun _ => true) (by decide +kernel)
    exact ⟨t, h⟩
  · obtain ⟨t, h, -⟩ := next_where
      (o := advance [.issue (.regulation .left) [0x41#8]] (State.boot .cfgA .empty [])) (fun _ => true)
      (by decide +kernel)
    refine ⟨fun k => if k = 0 then State.boot .cfgA .empty [] else t, rfl, ?_⟩
    intro k hk
    obtain rfl : k = 0 := by omega
    exact h

end Sys2Proof.Tests
end

namespace Sys2Proof

/-! ## A configuration's parameters (R6) -/

theorem Config.finite_iff (c : Config) (x : Number) :
    c.finite x = true ↔ x.inFormat c.num = true ∧ x.isFinite = true := by
  rw [Config.finite, Bool.and_eq_true]

@[simp] theorem Config.finite_zero (c : Config) : c.finite .zero = true := by simp [Config.finite_iff]
@[simp] theorem Config.finite_one (c : Config) : c.finite .one = true := by simp [Config.finite_iff]
@[simp] theorem Config.finite_negOne (c : Config) : c.finite .negOne = true := by simp [Config.finite_iff]

theorem Config.isFinite_and_lt_of_positive {c : Config} {x : Number} (h : c.positive x = true) :
    x.isFinite = true ∧ Number.zero.lt x = true := by
  simp only [Config.positive, Bool.and_eq_true] at h
  obtain ⟨⟨-, hfin⟩, hpos⟩ := h
  exact ⟨hfin, hpos⟩

end Sys2Proof

namespace Sys2Proof.Machine

/-! ## Invariants of every step -/

/-- A property that every bank has is kept by writing a value that has it. -/
theorem PerWheel.forall_get_set {α : Type} (P : α → Prop) {p : PerWheel α} {x : α} (h : ∀ w, P (p.get w)) (hx : P x)
    (w : Wheel) : ∀ w', P ((p.set w x).get w') := by
  intro w'
  rw [PerWheel.get_set]
  split
  · exact hx
  · exact h w'

/-- The induction step of an invariant that does not speak of the fault register, the records or the turns: what a reset
and every operation that raises nothing keep, every step keeps. -/
theorem step_keeps_of_pseudocode {P : State → Prop} (hqueues : ∀ s st sc, P s → P (s.withQueues st sc))
    (hraise : ∀ s c record, P s → P (s.raise c record)) (hreset : ∀ s, P s → P s.resetEvent)
    (hops : ∀ i s t, P s → pseudocode s i = .ok t → P t) {s t : State} (hs : P s) (h : step s = .next t) : P t := by
  have htaken : ∀ events a rest, P (s.taken events a rest) := fun events a rest =>
    hqueues s (s.streams.set a rest) events hs
  obtain ⟨-, ⟨-, rfl⟩ | ⟨events, -, rfl⟩ | ⟨a, events, -, -, hturn⟩⟩ := step_next h
  · exact hs
  · exact hreset _ (hqueues s s.streams events hs)
  · obtain ⟨i, rest, -, hexec⟩ | ⟨op, rest, -, rfl⟩ | ⟨-, rfl⟩ := hturn
    · obtain ⟨-, -, hok | ⟨c, -, rfl⟩⟩ := exec_next hexec
      · exact hops i _ t (htaken events a rest) hok
      · exact hraise _ c _ (htaken events a rest)
    · exact hraise _ _ _ (htaken events a rest)
    · exact hqueues s s.streams events hs

/-! ## Every Num field stays in the format (R10, R233) -/

theorem setTarget_keeps_cfg {w : Wheel} {x : Number} {s t : State} (h : setTarget w x s = .ok t) : t.cfg = s.cfg := by
  obtain ⟨-, ⟨-, rfl⟩ | ⟨-, rfl⟩⟩ := setTarget_ok h <;> rfl

theorem finite_saturate {c : Config} {x : Number} (h : c.finite x = true) : c.finite (saturate x) = true := by
  unfold saturate
  split
  · simp
  · split
    · simp
    · exact h

@[simp] theorem inFormat_numOperand (s : State) (p : Pattern) : (s.numOperand p).inFormat s.cfg.num = true :=
  Number.inFormat_convert _ _

@[simp] theorem inFormat_pidError (s : State) (w : Wheel) : (pidError s w).inFormat s.cfg.num = true :=
  Number.inFormat_sub _ _ _

@[simp] theorem inFormat_pidIntegral (s : State) (w : Wheel) : (pidIntegral s w).inFormat s.cfg.num = true :=
  Number.inFormat_add _ _ _

@[simp] theorem inFormat_pidRawDuty (s : State) (w : Wheel) : (pidRawDuty s w).inFormat s.cfg.num = true :=
  Number.inFormat_add _ _ _

@[simp] theorem inFormat_leftTarget (c : Config) (v om : Number) : (leftTarget c v om).inFormat c.num = true :=
  Number.inFormat_sub _ _ _

@[simp] theorem inFormat_rightTarget (c : Config) (v om : Number) : (rightTarget c v om).inFormat c.num = true :=
  Number.inFormat_add _ _ _

@[simp] theorem inFormat_angularVelocity (c : Config) (delta : Int) :
    (angularVelocity c delta).inFormat c.num = true := Number.inFormat_div _ _ _

@[simp] theorem inFormat_linearVelocity (c : Config) (ang : Number) : (linearVelocity c ang).inFormat c.num = true :=
  Number.inFormat_mul _ _ _

@[simp] theorem inFormat_measuredLinear (c : Config) (lm rm : Number) :
    (measuredLinear c lm rm).inFormat c.num = true := Number.inFormat_mul _ _ _

@[simp] theorem inFormat_measuredAngular (c : Config) (lm rm : Number) :
    (measuredAngular c lm rm).inFormat c.num = true := Number.inFormat_div _ _ _

/-- The Num fields of a velocity estimator are finite numbers of the format (the field `ve` of `State.NumsInFormat`). -/
def Ve.numsFinite (c : Config) (x : Ve) : Bool := c.finite x.ang && c.finite x.lin

/-- The Num fields of a regulator are finite numbers of the format (the field `pid` of `State.NumsInFormat`). -/
def Pid.numsFinite (c : Config) (x : Pid) : Bool :=
  c.finite x.target && c.finite x.prevErr && c.finite x.integral && c.finite x.duty

theorem Ve.numsFinite_iff (c : Config) (x : Ve) :
    x.numsFinite c = true ↔ c.finite x.ang = true ∧ c.finite x.lin = true := by
  rw [numsFinite, Bool.and_eq_true]

theorem Pid.numsFinite_iff (c : Config) (x : Pid) :
    x.numsFinite c = true ↔
      c.finite x.target = true ∧ c.finite x.prevErr = true ∧ c.finite x.integral = true ∧ c.finite x.duty = true := by
  simp only [numsFinite, Bool.and_eq_true, and_assoc]

theorem State.NumsInFormat.withQueues {s : State} (h : s.NumsInFormat) (st : Streams) (sc : List Event) :
    (s.withQueues st sc).NumsInFormat := ⟨h.ve, h.pid, h.act, h.kin⟩

theorem State.NumsInFormat.raise {s : State} (h : s.NumsInFormat) (c : Cause) (record : List Byte) :
    (s.raise c record).NumsInFormat := ⟨h.ve, h.pid, h.act, h.kin⟩

theorem numsInFormat_resetEvent (s : State) : s.resetEvent.NumsInFormat := by
  have hreset : s.cfg.finite numReset = true := Config.finite_zero s.cfg
  constructor <;> simp only [State.resetEvent_cfg, State.resetEvent_ve, State.resetEvent_pid, State.resetEvent_act,
    State.resetEvent_kin, PerWheel.get_mk_same, Ve.reset, Pid.reset, Act.reset, Kin.reset, hreset, Bool.and_self,
    implies_true]

theorem State.NumsInFormat.setVe {s : State} (h : s.NumsInFormat) (w : Wheel) {x : Ve}
    (hx : x.numsFinite s.cfg = true) : (s.setVe w x).NumsInFormat :=
  ⟨PerWheel.forall_get_set (Ve.numsFinite s.cfg · = true) h.ve hx w, h.pid, h.act, h.kin⟩

theorem State.NumsInFormat.setPid {s : State} (h : s.NumsInFormat) (w : Wheel) {x : Pid}
    (hx : x.numsFinite s.cfg = true) : (s.setPid w x).NumsInFormat :=
  ⟨h.ve, PerWheel.forall_get_set (Pid.numsFinite s.cfg · = true) h.pid hx w, h.act, h.kin⟩

theorem State.NumsInFormat.setAct {s : State} (h : s.NumsInFormat) (w : Wheel) {x : Act}
    (hx : s.cfg.finite x.pwm = true) : (s.setAct w x).NumsInFormat :=
  ⟨h.ve, h.pid, PerWheel.forall_get_set (fun y : Act => s.cfg.finite y.pwm = true) h.act hx w, h.kin⟩

theorem State.NumsInFormat.of_setTarget {w : Wheel} {x : Number} {s t : State} (h : s.NumsInFormat)
    (hx : x.inFormat s.cfg.num = true) (ht : setTarget w x s = .ok t) : t.NumsInFormat := by
  obtain ⟨hfin, ⟨-, rfl⟩ | ⟨-, rfl⟩⟩ := setTarget_ok ht
  · obtain ⟨-, hprev, -, hduty⟩ := (Pid.numsFinite_iff _ _).mp (h.pid w)
    exact h.setPid w
      ((Pid.numsFinite_iff _ _).mpr ⟨(Config.finite_iff _ _).mpr ⟨hx, hfin⟩, hprev, Config.finite_zero _, hduty⟩)
  · exact h

theorem State.NumsInFormat.of_actForward {w : Wheel} {x : Number} {s t : State} (h : s.NumsInFormat)
    (hx : x.inFormat s.cfg.num = true) (ht : actForward w x s = .ok t) : t.NumsInFormat := by
  obtain ⟨hduty, rfl⟩ := actForward_ok ht
  exact h.setAct w ((Config.finite_iff _ _).mpr ⟨hx, ((dutyInRange_iff x).mp hduty).1⟩)

theorem State.NumsInFormat.of_actBackward {w : Wheel} {x : Number} {s t : State} (h : s.NumsInFormat)
    (hx : x.inFormat s.cfg.num = true) (ht : actBackward w x s = .ok t) : t.NumsInFormat := by
  obtain ⟨hduty, rfl⟩ := actBackward_ok ht
  exact h.setAct w ((Config.finite_iff _ _).mpr ⟨hx, ((dutyInRange_iff x).mp hduty).1⟩)

theorem State.NumsInFormat.of_actStop {s : State} (h : s.NumsInFormat) (w : Wheel) : (actStop w s).NumsInFormat :=
  h.setAct w (Config.finite_zero s.cfg)

theorem State.NumsInFormat.of_driveActuator {w : Wheel} {x : Number} {s t : State} (h : s.NumsInFormat)
    (hx : x.inFormat s.cfg.num = true) (ht : driveActuator w x s = .ok t) : t.NumsInFormat := by
  obtain ⟨-, hfwd⟩ | ⟨-, -, hbwd⟩ | ⟨-, -, rfl⟩ := driveActuator_ok ht
  · exact h.of_actForward hx hfwd
  · exact h.of_actBackward (by simpa using hx) hbwd
  · exact h.of_actStop w

theorem State.NumsInFormat.of_regulate {w : Wheel} {s t : State} (h : s.NumsInFormat) (ht : regulate w s = .ok t) :
    t.NumsInFormat := by
  obtain ⟨hfin, hdrive⟩ := regulate_ok ht
  simp only [pidAllFinite, Bool.and_eq_true] at hfin
  obtain ⟨⟨⟨⟨herr, hint⟩, -⟩, -⟩, hraw⟩ := hfin
  have hduty : s.cfg.finite (saturate (pidRawDuty s w)) = true :=
    finite_saturate ((Config.finite_iff _ _).mpr ⟨inFormat_pidRawDuty s w, hraw⟩)
  obtain ⟨htarget, -⟩ := (Pid.numsFinite_iff _ _).mp (h.pid w)
  refine (h.setPid w ?_).of_driveActuator ((Config.finite_iff _ _).mp hduty).1 hdrive
  exact (Pid.numsFinite_iff _ _).mpr ⟨htarget, (Config.finite_iff _ _).mpr ⟨inFormat_pidError s w, herr⟩,
    (Config.finite_iff _ _).mpr ⟨inFormat_pidIntegral s w, hint⟩, hduty⟩

/-- Every operation that raises nothing keeps every Num field a finite number of the format: what it writes is rounded
into the format, and checked to be finite (R233). -/
theorem State.NumsInFormat.of_pseudocode {i : Instr} {s t : State} (h : s.NumsInFormat) (ht : pseudocode s i = .ok t) :
    t.NumsInFormat := by
  cases i with
  | qdEdgeA w a => obtain ⟨-, rfl⟩ := edgeA_ok ht; exact ⟨h.ve, h.pid, h.act, h.kin⟩
  | qdEdgeB w b => obtain ⟨-, rfl⟩ := edgeB_ok ht; exact ⟨h.ve, h.pid, h.act, h.kin⟩
  | veTick w =>
    obtain ⟨-, hang, hlin, rfl⟩ := estimate_ok ht
    exact h.setVe w ((Ve.numsFinite_iff _ _).mpr (by simp [hang, hlin, Config.finite_iff]))
  | pidSet w p => exact h.of_setTarget (inFormat_numOperand s p) ht
  | pidTick w =>
    obtain ⟨-, rfl⟩ | ⟨-, hreg⟩ := pidCycle_ok ht
    · exact h.of_actStop w
    · exact h.of_regulate hreg
  | kinSet v om =>
    obtain ⟨-, -, -, -, u, hleft, hright⟩ := setVelocities_ok ht
    refine (h.of_setTarget (inFormat_leftTarget _ _ _) hleft).of_setTarget ?_ hright
    rw [setTarget_keeps_cfg hleft]
    exact inFormat_rightTarget _ _ _
  | kinGet =>
    obtain ⟨hv, hom, rfl⟩ := getVelocities_ok ht
    obtain ⟨-, hl⟩ := (Ve.numsFinite_iff _ _).mp (h.ve .left)
    obtain ⟨-, hr⟩ := (Ve.numsFinite_iff _ _).mp (h.ve .right)
    exact ⟨h.ve, h.pid, h.act, by simp [hl, hr, hv, hom, Config.finite_iff]⟩
  | stTick => cases ht; exact ⟨h.ve, h.pid, h.act, h.kin⟩
  | stSetDir d => obtain ⟨dir, -, rfl⟩ := setStepper_ok ht; exact ⟨h.ve, h.pid, h.act, h.kin⟩
  | actFwd w p => exact h.of_actForward (inFormat_numOperand s p) ht
  | actBwd w p => exact h.of_actBackward (inFormat_numOperand s p) ht
  | actStop w => cases ht; exact h.of_actStop w
  | actHalt w =>
    cases ht
    exact h.setAct w (h.act w)

/-- Settles O57: resets and the operations keep the invariant, and nothing else writes a Num field. -/
theorem numsStayInFormat : Obligations.NumsStayInFormat := by
  unfold Obligations.NumsStayInFormat
  intro s t hs h
  exact step_keeps_of_pseudocode (P := State.NumsInFormat) (fun s st sc h => h.withQueues st sc)
    (fun s c r h => h.raise c r) (fun s _ => numsInFormat_resetEvent s)
    (fun i s t h ht => h.of_pseudocode ht) hs h

end Sys2Proof.Machine

namespace Sys2Proof.Machine

/-! ## The arithmetic is correctly rounded (R10) -/

@[simp] theorem abs_signRat (a : Bool) : |signRat a| = 1 := by cases a <;> simp [signRat]

theorem signRat_xor (a b : Bool) : signRat (a ^^ b) = signRat a * signRat b := by
  cases a <;> cases b <;> simp [signRat]

/-- The sign of a positive ratio's signed value. -/
theorem signRat_mul_neg_iff (a : Bool) {x : ℚ} (hx : 0 < x) : signRat a * x < 0 ↔ a = true := by
  cases a <;> simp [signRat, hx, hx.le]

theorem overflowBound_pos (f : NumFormat) : 0 < overflowBound f := by
  have h : (2 : ℚ) ^ f.maxExp / 2 ^ f.precision ≤ 2 ^ f.maxExp :=
    div_le_self (by positivity) (one_le_pow₀ (by norm_num))
  have hpos : (0 : ℚ) < 2 ^ f.maxExp := by positivity
  rw [overflowBound, pow_succ]
  linarith

/-- A zero, of either sign, is the correctly rounded zero. -/
theorem correctlyRounded_zero (f : NumFormat) (a : Bool) : CorrectlyRounded f 0 (.fin a 0 0) := by
  have hvalue : (Number.fin a 0 0).toRat = 0 := by simp [Number.toRat]
  refine ⟨by simp [Number.inFormat], fun h => ?_, fun _ => rfl, fun _ v _ _ => ?_, fun _ v _ _ _ _ => .inl hvalue⟩
  · rw [abs_zero] at h
    exact absurd (overflowBound_pos f) h.not_gt
  · rw [hvalue, sub_zero, abs_zero]
    exact abs_nonneg _

/-- `Number.round` rounds correctly. -/
theorem correctlyRounded_round (f : NumFormat) (a : Bool) (n : Nat) {d : Nat} (hd : d ≠ 0) :
    CorrectlyRounded f (signRat a * ((n : ℚ) / d)) (Number.round f a n d) := by
  by_cases hn : n = 0
  · subst hn
    simpa [Number.round_zero] using correctlyRounded_zero f a
  · have hx : (0 : ℚ) < (n : ℚ) / d := by positivity
    have habs : |signRat a * ((n : ℚ) / d)| = (n : ℚ) / d := by rw [abs_mul, abs_signRat, one_mul, abs_of_pos hx]
    refine ⟨Number.inFormat_round f a hd, fun h => ?_, fun h => ?_, fun hfin v hv hvf => ?_, fun hfin v hv hvf => ?_⟩
    · rw [habs] at h
      rw [Number.round_eq_inf f a hn hd h]
      simp only [signRat_mul_neg_iff a hx, Bool.decide_eq_true]
    · rw [habs] at h
      exact Number.round_isFinite f a hn hd h
    · exact (Number.round_nearest f a hn hd hfin hv hvf).1
    · exact (Number.round_nearest f a hn hd hfin hv hvf).2

/-- The exact value of a finite number as its sign and a ratio. -/
theorem toRat_fin_eq_signRat (a : Bool) (m : Nat) (e : ℤ) : (Number.fin a m e).toRat = signRat a * (m * 2 ^ e) := by
  rw [Number.toRat, mul_assoc]
  rfl

theorem correctlyRounded_roundScaled (f : NumFormat) (a : Bool) (m : Nat) (e : ℤ) :
    CorrectlyRounded f (signRat a * (m * 2 ^ e)) (Number.roundScaled f a m e) := by
  have hvalue : (m : ℚ) * 2 ^ e = ((m * 2 ^ e.toNat : ℕ) : ℚ) / ((2 ^ (-e).toNat : ℕ) : ℚ) := by
    rw [two_zpow_eq_ratio e]
    push_cast
    ring
  rw [hvalue]
  exact correctlyRounded_round f a _ (by positivity)

/-- An integer as its sign and its magnitude. -/
theorem signRat_natAbs (s : ℤ) : signRat (decide (s < 0)) * (s.natAbs : ℚ) = s := by
  rw [Nat.cast_natAbs, Int.cast_abs]
  by_cases h : s < 0
  · have hs : (s : ℚ) < 0 := by exact_mod_cast h
    simp [signRat, h, abs_of_neg hs]
  · have hs : (0 : ℚ) ≤ s := by exact_mod_cast not_lt.mp h
    simp [signRat, h, abs_of_nonneg hs]

theorem correctlyRounded_add (f : NumFormat) {x y : Number} (hx : x.isFinite = true) (hy : y.isFinite = true) :
    CorrectlyRounded f (x.toRat + y.toRat) (Number.add f x y) := by
  obtain ⟨a, m, e, rfl⟩ := Number.exists_of_isFinite hx
  obtain ⟨b, n, g, rfl⟩ := Number.exists_of_isFinite hy
  have hsum : (Number.fin a m e).toRat + (Number.fin b n g).toRat =
      ((signedAt a m e g + signedAt b n g e : ℤ) : ℚ) * 2 ^ min e g := by
    rw [Number.toRat_fin a m e g, Number.toRat_fin b n g e, min_comm g e]
    push_cast
    ring
  rw [hsum]
  simp only [Number.add]
  generalize signedAt a m e g + signedAt b n g e = s
  split
  · subst s
    simpa using correctlyRounded_zero f (a && b)
  · have h := correctlyRounded_roundScaled f (decide (s < 0)) s.natAbs (min e g)
    rwa [← mul_assoc, signRat_natAbs] at h

theorem correctlyRounded_sub (f : NumFormat) {x y : Number} (hx : x.isFinite = true) (hy : y.isFinite = true) :
    CorrectlyRounded f (x.toRat - y.toRat) (Number.sub f x y) := by
  rw [sub_eq_add_neg, ← Number.toRat_neg]
  exact correctlyRounded_add f hx (by simpa using hy)

theorem correctlyRounded_mul (f : NumFormat) {x y : Number} (hx : x.isFinite = true) (hy : y.isFinite = true) :
    CorrectlyRounded f (x.toRat * y.toRat) (Number.mul f x y) := by
  obtain ⟨a, m, e, rfl⟩ := Number.exists_of_isFinite hx
  obtain ⟨b, n, g, rfl⟩ := Number.exists_of_isFinite hy
  have hproduct : (Number.fin a m e).toRat * (Number.fin b n g).toRat =
      signRat (a ^^ b) * ((m * n : ℕ) * 2 ^ (e + g)) := by
    rw [toRat_fin_eq_signRat, toRat_fin_eq_signRat, signRat_xor, zpow_add₀ (by norm_num)]
    push_cast
    ring
  rw [hproduct]
  exact correctlyRounded_roundScaled f _ _ _

theorem correctlyRounded_div (f : NumFormat) {x y : Number} (hx : x.isFinite = true) (hy : y.isFinite = true)
    (h0 : y.toRat ≠ 0) : CorrectlyRounded f (x.toRat / y.toRat) (Number.div f x y) := by
  obtain ⟨a, m, e, rfl⟩ := Number.exists_of_isFinite hx
  obtain ⟨b, n, g, rfl⟩ := Number.exists_of_isFinite hy
  have hn : n ≠ 0 := by rintro rfl; simp [Number.toRat] at h0
  have hsign : signRat a / signRat b = signRat (a ^^ b) := by cases a <;> cases b <;> simp [signRat]
  have hpower : (2 : ℚ) ^ e / 2 ^ g = 2 ^ (e - g).toNat / 2 ^ (g - e).toNat := by
    rw [← zpow_sub₀ (by norm_num), two_zpow_eq_ratio (e - g), neg_sub]
  have hquotient : (Number.fin a m e).toRat / (Number.fin b n g).toRat =
      signRat (a ^^ b) * (((m * 2 ^ (e - g).toNat : ℕ) : ℚ) / ((n * 2 ^ (g - e).toNat : ℕ) : ℚ)) := by
    rw [toRat_fin_eq_signRat, toRat_fin_eq_signRat, mul_div_mul_comm, hsign, mul_div_mul_comm, hpower,
      ← mul_div_mul_comm]
    push_cast
    rfl
  rw [hquotient]
  simp only [Number.div, if_neg hn]
  exact correctlyRounded_round f _ _ (by positivity)

theorem correctlyRounded_ofInt (f : NumFormat) (i : ℤ) : CorrectlyRounded f (i : ℚ) (Number.ofInt f i) := by
  have h := correctlyRounded_round f (decide (i < 0)) i.natAbs one_ne_zero
  rwa [Nat.cast_one, div_one, signRat_natAbs] at h

/-- Settles O7: each operator writes its exact result as one sign and one ratio of integers, and rounds that once. -/
theorem arithmeticIsCorrectlyRounded : Obligations.ArithmeticIsCorrectlyRounded := by
  unfold Obligations.ArithmeticIsCorrectlyRounded
  refine ⟨fun f x y hx hy => ⟨correctlyRounded_add f hx hy, correctlyRounded_sub f hx hy,
    correctlyRounded_mul f hx hy, correctlyRounded_div f hx hy⟩, fun f a b m e g => ?_, correctlyRounded_ofInt⟩
  rw [Number.div, if_pos rfl]

/-! ## The comparisons are IEEE's (R10) -/

theorem ne_iff {x y : Number} (hx : x.isFinite = true) (hy : y.isFinite = true) :
    x.ne y = true ↔ x.toRat ≠ y.toRat := by
  rw [Number.ne, Bool.not_eq_true', ← Bool.not_eq_true, Number.eq_iff hx hy]

/-- Every finite number is strictly between the two infinities. -/
theorem compare_finite_inf {x : Number} (hx : x.isFinite = true) (a : Bool) :
    x.lt (.inf a) = !a ∧ x.le (.inf a) = !a ∧ x.eq (.inf a) = false ∧ x.ne (.inf a) = true ∧
    Number.lt (.inf a) x = a ∧ Number.le (.inf a) x = a ∧ Number.eq (.inf a) x = false ∧
    Number.ne (.inf a) x = true := by
  obtain ⟨b, m, e, rfl⟩ := Number.exists_of_isFinite hx
  simp [Number.lt, Number.le, Number.eq, Number.ne]

theorem compare_inf_inf (a b : Bool) :
    Number.lt (.inf a) (.inf b) = (a && !b) ∧ Number.le (.inf a) (.inf b) = (a || !b) ∧
    Number.eq (.inf a) (.inf b) = (a == b) ∧ Number.ne (.inf a) (.inf b) = (a != b) := by
  cases a <;> cases b <;> decide

/-- A NaN is unordered with everything, itself included. -/
theorem compare_nan {x y : Number} (h : x = .nan ∨ y = .nan) :
    x.lt y = false ∧ x.le y = false ∧ x.eq y = false ∧ x.ne y = true := by
  rcases h with rfl | rfl
  · simp [Number.lt, Number.le, Number.eq, Number.ne]
  · cases x <;> simp [Number.lt, Number.le, Number.eq, Number.ne]

/-- Settles O8, by the kinds of the two operands. -/
theorem comparisonsAreIeee : Obligations.ComparisonsAreIeee := by
  unfold Obligations.ComparisonsAreIeee
  exact ⟨fun x y hx hy => ⟨Number.lt_iff hx hy, Number.le_iff hx hy, Number.eq_iff hx hy, ne_iff hx hy⟩,
    fun x a hx => compare_finite_inf hx a, compare_inf_inf, fun x y h => compare_nan h⟩

/-! ## `TWO_PI` (R10) -/

/-- The digits of binary64's `TWO_PI`: `0x1.921fb54442d18p+2` has an odd significand of 50 bits. -/
theorem twoPi_binary64 : Number.twoPi .binary64 = .fin false 0x3243f6a8885a3 (-47) := by decide +kernel

theorem ofPattern_twoPi : Number.ofPattern 0x401921fb54442d18#64 = .fin false 0x3243f6a8885a3 (-47) := by decide +kernel

/-- Settles O9: the digits are computed, and the distance follows from Mathlib's bounds on π to 20 decimals. -/
theorem twoPiInBinary64 : Obligations.TwoPiInBinary64 := by
  unfold Obligations.TwoPiInBinary64
  refine ⟨twoPi_binary64.trans ofPattern_twoPi.symm, ?_⟩
  have hlow := Real.pi_gt_d20
  have hhigh := Real.pi_lt_d20
  rw [twoPi_binary64, Number.toRat, abs_lt]
  norm_num
  constructor <;> linarith

end Sys2Proof.Machine

namespace Sys2Proof.Machine

/-! ## Steps and operations (R7, R13, R230) -/

/-- Settles O10: a step at an agent's turn is, by the model's own step lemma, `exec` in the state with the turn taken. -/
theorem stepRunsDecodedOperation : Obligations.StepRunsDecodedOperation := by
  unfold Obligations.StepRunsDecodedOperation
  intro s a events i rest hready hs hd
  have h := step_turn hready.valid hready.clear hs
  rw [hd] at h
  exact h

theorem isFinite_and_pos_of_positive {c : Config} {x : Number} (h : c.positive x = true) :
    x.isFinite = true ∧ 0 < x.toRat := by
  obtain ⟨hfin, hpos⟩ := Config.isFinite_and_lt_of_positive h
  rw [Number.lt_iff rfl hfin, Number.toRat_zero] at hpos
  exact ⟨hfin, hpos⟩

/-- The constraints of R6 on a valid configuration, on the parameters' values. -/
theorem constraints_of_valid {c : Config} (h : c.valid = true) :
    (∀ x ∈ [c.cpr, c.gearRatio, c.period, c.wheelRadius, c.wheelSep, c.pulseWidthUs, c.telemetryFreq],
        x.isFinite = true ∧ 0 < x.toRat) ∧
      (∀ x ∈ [c.kp, c.ki, c.kd], x.isFinite = true) ∧ 1 ≤ c.regVelFreq ∧ 2 ≤ c.tickBits := by
  simp only [Config.valid, Bool.and_eq_true, decide_eq_true_eq] at h
  obtain ⟨⟨⟨⟨⟨⟨⟨⟨⟨⟨⟨hcpr, hgear⟩, hperiod⟩, hradius⟩, hkp⟩, hki⟩, hkd⟩, hfreq⟩, hsep⟩, hpulse⟩, htele⟩, hbits⟩ := h
  have hfinite : ∀ {x}, c.finite x = true → x.isFinite = true := fun hx => ((Config.finite_iff _ _).mp hx).2
  refine ⟨?_, ?_, hfreq, hbits⟩
  · simp only [List.forall_mem_cons, List.not_mem_nil, false_imp_iff, implies_true, and_true]
    exact ⟨isFinite_and_pos_of_positive hcpr, isFinite_and_pos_of_positive hgear, isFinite_and_pos_of_positive hperiod,
      isFinite_and_pos_of_positive hradius, isFinite_and_pos_of_positive hsep, isFinite_and_pos_of_positive hpulse,
      isFinite_and_pos_of_positive htele⟩
  · simp only [List.forall_mem_cons, List.not_mem_nil, false_imp_iff, implies_true, and_true]
    exact ⟨hfinite hkp, hfinite hki, hfinite hkd⟩

/-- Settles O15: a configuration that breaks a constraint is not valid, and `guarded` and `fetch` refuse it. -/
theorem badConfigurationIsRefused : Obligations.BadConfigurationIsRefused := by
  unfold Obligations.BadConfigurationIsRefused
  intro s hbad
  have hinvalid : s.cfg.valid = false := Bool.eq_false_iff.mpr fun hv => hbad (constraints_of_valid hv)
  exact ⟨step_invalid hinvalid, exec_invalid hinvalid⟩

/-- The cause the table of R230 gives each operation; `none` where the operation raises nothing. -/
def causeOf : Instr → Option Cause
  | .qdEdgeA _ _ => some .tickRange
  | .qdEdgeB _ _ => some .tickRange
  | .veTick _ => some .nonFinite
  | .pidSet _ _ => some .nonFinite
  | .pidTick _ => some .nonFinite
  | .kinSet _ _ => some .nonFinite
  | .kinGet => some .nonFinite
  | .stTick => none
  | .stSetDir _ => some .cvDirection
  | .actFwd _ _ => some .cvDuty
  | .actBwd _ _ => some .cvDuty
  | .actStop _ => none
  | .actHalt _ => none

/-- An operation's pseudocode raises the cause of its row only. -/
theorem pseudocode_error {i : Instr} {s : State} {c : Cause} (h : pseudocode s i = .error c) :
    causeOf i = some c := by
  cases i with
  | qdEdgeA w a => exact congrArg some (edgeA_error h).2.symm
  | qdEdgeB w b => exact congrArg some (edgeB_error h).2.symm
  | veTick w => exact congrArg some (estimate_error h).2.symm
  | pidSet w p => exact congrArg some (setTarget_error h).2.symm
  | pidTick w => exact congrArg some (pidCycle_error h).2.2.symm
  | kinSet v om => exact congrArg some (setVelocities_error h).symm
  | kinGet => exact congrArg some (getVelocities_error h).symm
  | stTick => cases h
  | stSetDir d => exact congrArg some (setStepper_error h).2.symm
  | actFwd w p => exact congrArg some (actForward_error h).2.symm
  | actBwd w p => exact congrArg some (actBackward_error h).2.symm
  | actStop w => cases h
  | actHalt w => cases h

/-- Settles O16: an operation that changes the fault register took the raising branch of `perform`. -/
theorem raiseRecordsCauseAndRecord : Obligations.RaiseRecordsCauseAndRecord := by
  unfold Obligations.RaiseRecordsCauseAndRecord
  refine ⟨fun i s t h hne => ?_, rfl, rfl, rfl, rfl, rfl, rfl⟩
  obtain ⟨-, -, hok | ⟨c, herr, rfl⟩⟩ := exec_next h
  · obtain ⟨-, hfault, -⟩ := pseudocode_keeps hok
    exact absurd hfault hne
  · refine ⟨rfl, ?_⟩
    have hc := pseudocode_error herr
    cases i <;> cases hc <;> rfl

/-! ## Who counts (R14, R22) -/

theorem setTarget_keeps_qd {w : Wheel} {x : Number} {s t : State} (h : setTarget w x s = .ok t) : t.qd = s.qd := by
  obtain ⟨-, ⟨-, rfl⟩ | ⟨-, rfl⟩⟩ := setTarget_ok h <;> rfl

/-- An operation writes no wheel's decoder but that of an edge's own wheel. -/
theorem pseudocode_keeps_qd {i : Instr} {s t : State} {w : Wheel} (h : pseudocode s i = .ok t)
    (ha : ∀ l, i ≠ .qdEdgeA w l) (hb : ∀ l, i ≠ .qdEdgeB w l) : t.qd.get w = s.qd.get w := by
  cases i with
  | qdEdgeA w' a =>
    obtain ⟨-, rfl⟩ := edgeA_ok h
    exact PerWheel.get_set_other _ (by rintro rfl; exact ha a rfl) _
  | qdEdgeB w' b =>
    obtain ⟨-, rfl⟩ := edgeB_ok h
    exact PerWheel.get_set_other _ (by rintro rfl; exact hb b rfl) _
  | veTick w' => obtain ⟨-, -, -, rfl⟩ := estimate_ok h; rfl
  | pidSet w' p => rw [setTarget_keeps_qd h]
  | pidTick w' =>
    obtain ⟨-, rfl⟩ | ⟨-, hreg⟩ := pidCycle_ok h
    · rfl
    · obtain ⟨x, rfl⟩ := driveActuator_writes (regulate_ok hreg).2
      rfl
  | kinSet v om =>
    obtain ⟨-, -, -, -, u, hleft, hright⟩ := setVelocities_ok h
    rw [setTarget_keeps_qd hright, setTarget_keeps_qd hleft]
  | kinGet => obtain ⟨-, -, rfl⟩ := getVelocities_ok h; rfl
  | stTick => cases h; rfl
  | stSetDir d => obtain ⟨dir, -, rfl⟩ := setStepper_ok h; rfl
  | actFwd w' p => obtain ⟨-, rfl⟩ := actForward_ok h; rfl
  | actBwd w' p => obtain ⟨-, rfl⟩ := actBackward_ok h; rfl
  | actStop w' => cases h; rfl
  | actHalt w' => cases h; rfl

theorem issues_qdEdgeA {a : Agent} {w : Wheel} {l : Bit} (h : a.issues (.qdEdgeA w l) = true) :
    a = .edge w .chanA := by
  cases a with
  | edge w' ch =>
    cases ch with
    | chanA => rw [eq_of_beq h]
    | chanB => cases h
  | _ => cases h

theorem issues_qdEdgeB {a : Agent} {w : Wheel} {l : Bit} (h : a.issues (.qdEdgeB w l) = true) :
    a = .edge w .chanB := by
  cases a with
  | edge w' ch =>
    cases ch with
    | chanA => cases h
    | chanB => rw [eq_of_beq h]
  | _ => cases h

/-- What R172 adds to R14's lists is KIN.GET alone. -/
theorem issues_of_mayIssue {a : Agent} {i : Instr} (hi : i ≠ .kinGet) (h : a.mayIssue i = true) :
    a.issues i = true := by
  simpa [Agent.mayIssue, hi] using h

/-- Settles O50: of what a turn can do, only an edge writes a counter, and only an edge interrupt may issue an edge. -/
theorem onlyEdgeInterruptsCount : Obligations.OnlyEdgeInterruptsCount := by
  unfold Obligations.OnlyEdgeInterruptsCount
  intro s t a events w hs hown h hne
  by_contra hedge
  obtain ⟨-, ⟨hnil, -⟩ | ⟨events', hreset, -⟩ | ⟨a', events', hs', -, hturn⟩⟩ := step_next h
  · rw [hs] at hnil; cases hnil
  · rw [hs] at hreset; cases hreset
  · obtain ⟨rfl, rfl⟩ : a = a' ∧ events = events' := by rw [hs] at hs'; cases hs'; exact ⟨rfl, rfl⟩
    obtain ⟨i, rest, hd, hexec⟩ | ⟨op, rest, -, rfl⟩ | ⟨-, rfl⟩ := hturn
    · have hmay := hown i rest hd
      obtain ⟨-, -, hok | ⟨c, -, rfl⟩⟩ := exec_next hexec
      · refine hne (congrArg Qd.ticks (pseudocode_keeps_qd (s := s.taken events a rest) hok ?_ ?_))
        · rintro l rfl
          exact hedge ⟨_, issues_qdEdgeA (issues_of_mayIssue (by simp) hmay)⟩
        · rintro l rfl
          exact hedge ⟨_, issues_qdEdgeB (issues_of_mayIssue (by simp) hmay)⟩
      · exact hne rfl
    · exact hne rfl
    · exact hne rfl

end Sys2Proof.Machine

namespace Sys2Proof

/-! ## Reading back a record (R70 to R79) -/

theorem sext8_i8Byte {d : Int} (h : Instr.inI8 d = true) : sext8 (i8Byte d) = d := by
  simp only [Instr.inI8, Bool.and_eq_true, decide_eq_true_eq] at h
  have hbyte : (i8Byte d).toNat = (d % 256).toNat := by
    rw [i8Byte, BitVec.toNat_ofNat]
    omega
  rw [sext8, hbyte]
  split <;> omega

/-- The row of the opcode map an operation's record belongs to (R74). -/
def Instr.row : Instr → OpcodeRow
  | .qdEdgeA _ _ => ⟨.qdEdgeA, 0b00000000#8, 0b11101110#8, .none⟩
  | .qdEdgeB _ _ => ⟨.qdEdgeB, 0b00000010#8, 0b11101110#8, .none⟩
  | .veTick _ => ⟨.veTick, 0b00100000#8, 0b11101111#8, .none⟩
  | .pidSet _ _ => ⟨.pidSet, 0b01000000#8, 0b11101111#8, .num⟩
  | .pidTick _ => ⟨.pidTick, 0b01000001#8, 0b11101111#8, .none⟩
  | .kinSet _ _ => ⟨.kinSet, 0b01100000#8, 0b11111111#8, .num2⟩
  | .kinGet => ⟨.kinGet, 0b01100001#8, 0b11111111#8, .none⟩
  | .stTick => ⟨.stTick, 0b10000000#8, 0b11111111#8, .none⟩
  | .stSetDir _ => ⟨.stSetDir, 0b10000001#8, 0b11111111#8, .i8⟩
  | .actFwd _ _ => ⟨.actFwd, 0b10100000#8, 0b11101111#8, .num⟩
  | .actBwd _ _ => ⟨.actBwd, 0b10100001#8, 0b11101111#8, .num⟩
  | .actStop _ => ⟨.actStop, 0b10100010#8, 0b11101111#8, .none⟩
  | .actHalt _ => ⟨.actHalt, 0b10100011#8, 0b11101111#8, .none⟩

theorem decodeOp_codeByte (i : Instr) : decodeOp i.codeByte = some i.row := by
  cases i with
  | qdEdgeA w a => cases w <;> cases a <;> decide
  | qdEdgeB w b => cases w <;> cases b <;> decide
  | veTick w => cases w <;> decide
  | pidSet w t => change decodeOp (0x40#8 ||| Instr.codeByte.wheelField w) = some _; cases w <;> rfl
  | pidTick w => cases w <;> decide
  | kinSet v om => change decodeOp 0x60#8 = some _; rfl
  | kinGet => decide
  | stTick => decide
  | stSetDir d => change decodeOp 0x81#8 = some _; rfl
  | actFwd w duty => change decodeOp (0xA0#8 ||| Instr.codeByte.wheelField w) = some _; cases w <;> rfl
  | actBwd w duty => change decodeOp (0xA1#8 ||| Instr.codeByte.wheelField w) = some _; cases w <;> rfl
  | actStop w => cases w <;> decide
  | actHalt w => cases w <;> decide

theorem length_payloadBytes (i : Instr) : i.payloadBytes.length = i.row.payload.length := by
  cases i with
  | pidSet w t => exact length_patternBytes t
  | kinSet v om => rw [Instr.payloadBytes, List.length_append, length_patternBytes, length_patternBytes]; rfl
  | actFwd w duty => exact length_patternBytes duty
  | actBwd w duty => exact length_patternBytes duty
  | _ => rfl

/-- The wheel selector is read back from any code byte that carries it (R70). -/
theorem ofBit_wheelField (w : Wheel) (base : Byte) (hbase : base[4] = false) :
    Wheel.ofBit ((base ||| Instr.codeByte.wheelField w).getLsbD 4) = w := by
  cases w <;> simp [Instr.codeByte.wheelField, Wheel.toBit, Wheel.ofBit, hbase]

/-- A row's fields give back the operation: every operand fills its field. -/
theorem operation_row {i : Instr} (hi : i.wellFormed = true) : i.row.operation i.codeByte i.payloadBytes = i := by
  cases i with
  | qdEdgeA w a => cases w <;> cases a <;> rfl
  | qdEdgeB w b => cases w <;> cases b <;> rfl
  | veTick w => cases w <;> rfl
  | pidSet w t => exact congrArg₂ Instr.pidSet (ofBit_wheelField w 0x40#8 rfl) (patternOf_patternBytes t)
  | pidTick w => cases w <;> rfl
  | kinSet v om =>
    have htake : (patternBytes v ++ patternBytes om).take 8 = patternBytes v := List.take_left' (length_patternBytes v)
    have hdrop : (patternBytes v ++ patternBytes om).drop 8 = patternBytes om := List.drop_left' (length_patternBytes v)
    simp only [Instr.row, OpcodeRow.operation, Instr.payloadBytes, htake, hdrop, patternOf_patternBytes]
  | kinGet => rfl
  | stTick => rfl
  | stSetDir d => exact congrArg Instr.stSetDir (sext8_i8Byte hi)
  | actFwd w duty => exact congrArg₂ Instr.actFwd (ofBit_wheelField w 0xA0#8 rfl) (patternOf_patternBytes duty)
  | actBwd w duty => exact congrArg₂ Instr.actBwd (ofBit_wheelField w 0xA1#8 rfl) (patternOf_patternBytes duty)
  | actStop w => cases w <;> rfl
  | actHalt w => cases w <;> rfl

/-- The record of a well-formed operation decodes to that operation, whatever follows it. -/
theorem decode_encode_append {i : Instr} (hi : i.wellFormed = true) (rest : List Byte) :
    decode (encode i ++ rest) = .record i rest := by
  have hlen := length_payloadBytes i
  have hwhole : ¬ (i.payloadBytes ++ rest).length < i.row.payload.length := by rw [List.length_append]; omega
  rw [encode, List.cons_append, decode, decodeOp_codeByte]
  simp only [if_neg hwhole]
  rw [← hlen, List.take_left, List.drop_left, operation_row hi]

theorem decode_encode {i : Instr} (hi : i.wellFormed = true) : decode (encode i) = .record i [] := by
  rw [← decode_encode_append hi [], List.append_nil]

/-! ## Arithmetic on zero (R10, R122) -/

/-- A positive finite number is a positive significand without a sign. -/
theorem Number.exists_of_pos {x : Number} (hfin : x.isFinite = true) (hpos : Number.zero.lt x = true) :
    ∃ m e, m ≠ 0 ∧ x = .fin false m e := by
  obtain ⟨a, m, e, rfl⟩ := Number.exists_of_isFinite hfin
  rw [Number.lt_iff rfl hfin, Number.toRat_zero, Number.toRat] at hpos
  refine ⟨m, e, ?_, ?_⟩
  · rintro rfl
    simp at hpos
  · cases a with
    | false => rfl
    | true =>
      have hle : (0 : ℚ) ≤ m * 2 ^ e := by positivity
      simp only [if_true] at hpos
      linarith

theorem Number.zero_mul_of_pos (f : NumFormat) {x : Number} (hfin : x.isFinite = true)
    (hpos : Number.zero.lt x = true) : Number.mul f .zero x = .zero := by
  obtain ⟨m, e, -, rfl⟩ := Number.exists_of_pos hfin hpos
  simp [Number.mul, Number.zero, Number.roundScaled, Number.round_zero]

theorem Number.mul_zero_of_pos (f : NumFormat) {x : Number} (hfin : x.isFinite = true)
    (hpos : Number.zero.lt x = true) : Number.mul f x .zero = .zero := by
  obtain ⟨m, e, -, rfl⟩ := Number.exists_of_pos hfin hpos
  simp [Number.mul, Number.zero, Number.roundScaled, Number.round_zero]

theorem Number.zero_div_of_pos (f : NumFormat) {x : Number} (hfin : x.isFinite = true)
    (hpos : Number.zero.lt x = true) : Number.div f .zero x = .zero := by
  obtain ⟨m, e, hm, rfl⟩ := Number.exists_of_pos hfin hpos
  simp [Number.div, Number.zero, hm, Number.round_zero]

@[simp] theorem Number.ofInt_zero (f : NumFormat) : Number.ofInt f 0 = .zero := Number.round_zero f false 1

@[simp] theorem Number.zero_add_zero (f : NumFormat) : Number.add f .zero .zero = .zero := rfl

@[simp] theorem Number.zero_sub_zero (f : NumFormat) : Number.sub f .zero .zero = .zero := rfl

theorem Number.twoPi_pos (f : NumFormat) : (Number.twoPi f).isFinite = true ∧ Number.zero.lt (.twoPi f) = true := by
  cases f <;> decide +kernel

end Sys2Proof

namespace Sys2Proof.Machine

/-! ## The states an issued sequence gives (R55) -/

/-- A ready block performs every operation: it ends in a next state, also where it raises. -/
theorem exec_of_ready {s : State} (h : s.Ready) (i : Instr) : ∃ t, exec i s = .next t := by
  cases hp : pseudocode s i with
  | ok t => exact ⟨t, exec_ok h.valid h.clear hp⟩
  | error c => exact ⟨_, exec_error h.valid h.clear hp⟩

/-- The state after an operation; the same state where the operation has no step. -/
def State.after (s : State) (i : Instr) : State :=
  match exec i s with
  | .next t => t
  | .fault _ => s
  | .refused _ => s

theorem State.after_eq {s t : State} {i : Instr} (h : exec i s = .next t) : s.after i = t := by
  rw [State.after, h]

theorem exec_after {s : State} (h : s.Ready) (i : Instr) : exec i s = .next (s.after i) := by
  obtain ⟨t, ht⟩ := exec_of_ready h i
  rw [State.after_eq ht, ht]

/-- Nothing is pending: no turn is scheduled and no agent has bytes to issue. -/
structure State.Idle (s : State) : Prop where
  valid : s.cfg.valid = true
  schedule : s.schedule = []
  streams : s.streams = .empty

theorem State.Idle.after {s : State} (h : s.Idle) (i : Instr) : (s.after i).Idle := by
  unfold State.after
  split
  · rename_i t ht
    obtain ⟨hcfg, hstreams, hschedule⟩ := exec_keeps ht
    exact ⟨hcfg ▸ h.valid, hschedule.trans h.schedule, hstreams.trans h.streams⟩
  · exact h
  · exact h

/-- The states a sequence of issued operations gives, from `s`. -/
def statesFrom (s : State) (issued : ℕ → Agent × Instr) : ℕ → State
  | 0 => s
  | k + 1 => (statesFrom s issued k).after (issued k).2

/-- What arrives before each step: the record of the operation issued. -/
def issuedInputs (issued : ℕ → Agent × Instr) (k : ℕ) : List Input :=
  [.issue (issued k).1 (encode (issued k).2)]

theorem idle_statesFrom {s : State} (h : s.Idle) (issued : ℕ → Agent × Instr) (k : ℕ) :
    (statesFrom s issued k).Idle := by
  induction k with
  | zero => exact h
  | succ k ih => exact ih.after _

theorem isRun_statesFrom {s : State} (h : s.Idle) {issued : ℕ → Agent × Instr}
    (hwf : ∀ k, (issued k).2.wellFormed = true) {n : ℕ}
    (hclear : ∀ k < n, (statesFrom s issued k).fault.cause = .none) :
    IsRun (issuedInputs issued) (statesFrom s issued) n := by
  intro k hk
  have hidle := idle_statesFrom h issued k
  rw [issuedInputs, advance_issue hidle.valid (hclear k hk) hidle.schedule (by rw [hidle.streams, Streams.get_empty])
    (decode_encode (hwf k))]
  exact exec_after ⟨hidle.valid, hclear k hk⟩ _

/-- An issued record is at the front of its agent's stream, and that agent's turn is next. -/
theorem State.Idle.receiveAll_issue {s : State} (h : s.Idle) (a : Agent) (bytes : List Byte) :
    (s.receiveAll [.issue a bytes]).schedule = [.turn a] ∧ (s.receiveAll [.issue a bytes]).streams.get a = bytes := by
  simp [State.receiveAll, h.schedule, h.streams]

theorem State.Idle.nextOperation_issue {s : State} (h : s.Idle) (a : Agent) {i : Instr} (hi : i.wellFormed = true) :
    (s.receiveAll [.issue a (encode i)]).nextOperation = some (a, i) := by
  obtain ⟨hschedule, hstream⟩ := h.receiveAll_issue a (encode i)
  simp only [State.nextOperation, hschedule, hstream, decode_encode hi]

theorem State.Idle.ownershipKept_issue {s : State} (h : s.Idle) {a : Agent} {i : Instr} (hi : i.wellFormed = true)
    (ha : a.issues i = true) : (s.receiveAll [.issue a (encode i)]).ownershipKept = true := by
  obtain ⟨hschedule, hstream⟩ := h.receiveAll_issue a (encode i)
  simp only [State.ownershipKept, hschedule, hstream, decode_encode hi, ha]

/-! ## The periodic agents on a block at rest (R245, R269) -/

/-- The periodic agents with their operations. -/
def periodicTurns : List (Agent × Instr) :=
  [(.estimation .left, .veTick .left), (.estimation .right, .veTick .right),
   (.regulation .left, .pidTick .left), (.regulation .right, .pidTick .right),
   (.stepper, .stTick), (.telemetry, .kinGet)]

theorem mem_periodicTurns {a : Agent} {i : Instr} : (a, i) ∈ periodicTurns ↔ a.periodicOperation = some i := by
  rcases a with ⟨w, ch⟩ | (_ | _) | (_ | _) | _ | _ | _ <;>
    simp [periodicTurns, Agent.periodicOperation, eq_comm]

/-- The periodic agents one after the other, over and over. -/
def periodicTurn (k : ℕ) : Agent × Instr := periodicTurns[k % 6]'(Nat.mod_lt k (by decide))

theorem periodicTurn_operation (k : ℕ) : (periodicTurn k).1.periodicOperation = some (periodicTurn k).2 :=
  mem_periodicTurns.mp (List.getElem_mem _)

/-- Every periodic agent's turn comes again after any number of turns. -/
theorem exists_periodicTurn {a : Agent} {i : Instr} (h : a.periodicOperation = some i) (n : ℕ) :
    ∃ k, n ≤ k ∧ periodicTurn k = (a, i) := by
  obtain ⟨j, hj, hget⟩ := List.getElem_of_mem (mem_periodicTurns.mpr h)
  have hj6 : j < 6 := hj
  have hmod : (6 * n + j) % 6 = j := by omega
  refine ⟨6 * n + j, by omega, ?_⟩
  simp only [periodicTurn, hmod, hget]

/-- The block at rest: ready, no tick counted since the last estimation, no velocity measured and none asked for. -/
structure State.AtRest (c : Config) (s : State) : Prop where
  cfg : s.cfg = c
  clear : s.fault.cause = .none
  ticks : ∀ w, (s.qd.get w).ticks = 0
  prev : ∀ w, (s.ve.get w).prev = 0
  lin : ∀ w, (s.ve.get w).lin = .zero
  target : ∀ w, (s.pid.get w).target = .zero

theorem atRest_boot (c : Config) : (State.boot c .empty []).AtRest c := by
  refine ⟨rfl, rfl, fun w => ?_, fun w => ?_, fun w => ?_, fun w => ?_⟩ <;> cases w <;> rfl

/-- A write to other fields keeps the block at rest. -/
theorem State.AtRest.of_eq {c : Config} {s t : State} (h : s.AtRest c) (hcfg : t.cfg = s.cfg)
    (hfault : t.fault = s.fault) (hqd : t.qd = s.qd) (hve : t.ve = s.ve) (hpid : t.pid = s.pid) : t.AtRest c :=
  ⟨hcfg ▸ h.cfg, hfault ▸ h.clear, hqd ▸ h.ticks, hve ▸ h.prev, hve ▸ h.lin, hpid ▸ h.target⟩

theorem measuredLinear_zero (c : Config) : measuredLinear c .zero .zero = .zero := by
  rw [measuredLinear, Number.zero_add_zero]
  exact Number.mul_zero_of_pos _ rfl (by decide)

section
variable {c : Config} (hv : c.valid = true) (hpos : Number.zero.lt (ticksPerRevolution c) = true)
  (hfin : (ticksPerRevolution c).isFinite = true)
include hv

theorem positive_of_valid : c.positive c.period = true ∧ c.positive c.wheelRadius = true ∧
    c.positive c.wheelSep = true := by
  simp only [Config.valid, Bool.and_eq_true] at hv
  tauto

theorem linearVelocity_zero : linearVelocity c .zero = .zero := by
  obtain ⟨-, hradius, -⟩ := positive_of_valid hv
  obtain ⟨hf, hp⟩ := Config.isFinite_and_lt_of_positive hradius
  exact Number.zero_mul_of_pos _ hf hp

theorem measuredAngular_zero : measuredAngular c .zero .zero = .zero := by
  obtain ⟨-, -, hsep⟩ := positive_of_valid hv
  obtain ⟨hf, hp⟩ := Config.isFinite_and_lt_of_positive hsep
  rw [measuredAngular, Number.zero_sub_zero, Number.zero_div_of_pos _ hf hp]

include hpos hfin

theorem angularVelocity_zero : angularVelocity c 0 = .zero := by
  obtain ⟨hperiod, -, -⟩ := positive_of_valid hv
  obtain ⟨hf, hp⟩ := Config.isFinite_and_lt_of_positive hperiod
  obtain ⟨htf, htp⟩ := Number.twoPi_pos c.num
  rw [angularVelocity, Number.ofInt_zero, Number.zero_div_of_pos _ hfin hpos, Number.zero_mul_of_pos _ htf htp,
    Number.zero_div_of_pos _ hf hp]

/-- A periodic operation on a block at rest raises nothing and leaves it at rest. -/
theorem State.AtRest.pseudocode_periodic {s : State} (h : s.AtRest c) {a : Agent} {i : Instr}
    (hi : a.periodicOperation = some i) : ∃ t, pseudocode s i = .ok t ∧ t.AtRest c := by
  cases a with
  | edge w ch => cases hi
  | estimation w =>
    cases hi
    have hdelta : tickDelta s w = 0 := by rw [tickDelta, h.ticks, h.prev, sub_zero]
    have hang : angularVelocity s.cfg (tickDelta s w) = .zero := by
      rw [hdelta, h.cfg, angularVelocity_zero hv hpos hfin]
    have hlin : linearVelocity s.cfg .zero = .zero := by rw [h.cfg, linearVelocity_zero hv]
    have hcheck : estimateAllFinite s.cfg (tickDelta s w) = true := by
      rw [estimateAllFinite, hang, hlin, h.cfg, hfin]
      rfl
    refine ⟨s.setVe w { prev := (s.qd.get w).ticks, ang := .zero, lin := .zero }, ?_, h.cfg, h.clear, h.ticks, ?_, ?_,
      h.target⟩
    · simp only [pseudocode, estimate, hcheck, if_true, hang, hlin]
    · exact PerWheel.forall_get_set (fun y : Ve => y.prev = 0) h.prev (h.ticks w) w
    · exact PerWheel.forall_get_set (fun y : Ve => y.lin = .zero) h.lin rfl w
  | regulation w =>
    cases hi
    have hstopped : s.stopped w = true := by rw [State.stopped, h.target]; rfl
    exact ⟨actStop w s, if_pos hstopped, h.of_eq rfl rfl rfl rfl rfl⟩
  | stepper =>
    cases hi
    exact ⟨_, rfl, h.of_eq rfl rfl rfl rfl rfl⟩
  | command => cases hi
  | telemetry =>
    cases hi
    refine ⟨(s.setKin ⟨.zero, .zero, .zero, .zero⟩).giveResult .zero .zero, ?_, h.of_eq rfl rfl rfl rfl rfl⟩
    simp only [pseudocode, getVelocities, h.lin, h.cfg, measuredLinear_zero, measuredAngular_zero hv]
    rfl

theorem atRest_statesFrom_periodicTurn (k : ℕ) :
    (statesFrom (State.boot c .empty []) periodicTurn k).AtRest c := by
  induction k with
  | zero => exact atRest_boot c
  | succ k ih =>
    obtain ⟨t, ht, hrest⟩ := ih.pseudocode_periodic hv hpos hfin (periodicTurn_operation k)
    rw [statesFrom, State.after_eq (exec_ok (by rw [ih.cfg]; exact hv) ih.clear ht)]
    exact hrest

/-- The periodic agents in turn, from reset: a fair infinite run in which nothing raises (R269). -/
theorem exists_fair_infinite_run :
    ∃ (inputs : ℕ → List Input) (states : ℕ → State), states 0 = State.boot c .empty [] ∧
      IsInfiniteRun inputs states ∧ IsFair inputs states ∧ KeepsOwnership inputs states ∧
      ∀ k, (states k).fault.cause = .none := by
  have hidle : (State.boot c .empty []).Idle := ⟨hv, rfl, rfl⟩
  have hissues : ∀ k, (periodicTurn k).1.issues (periodicTurn k).2 = true ∧ (periodicTurn k).2.wellFormed = true :=
    fun k => periodicOperation_issues (periodicTurn_operation k)
  have hclear : ∀ k, (statesFrom (State.boot c .empty []) periodicTurn k).fault.cause = .none :=
    fun k => (atRest_statesFrom_periodicTurn hv hpos hfin k).clear
  refine ⟨issuedInputs periodicTurn, statesFrom (State.boot c .empty []) periodicTurn, rfl, ?_, ?_, ?_, hclear⟩
  · exact fun n => isRun_statesFrom hidle (fun k => (hissues k).2) (fun k _ => hclear k)
  · intro a i hi n
    obtain ⟨k, hk, hturn⟩ := exists_periodicTurn hi n
    refine ⟨k, hk, ?_⟩
    rw [issuedInputs, hturn]
    exact (idle_statesFrom hidle periodicTurn k).nextOperation_issue a (periodicOperation_issues hi).2
  · exact fun k => (idle_statesFrom hidle periodicTurn k).ownershipKept_issue (hissues k).2 (hissues k).1

end

/-- Settles O52: an issued sequence determines its states, a block at rest stays so under the periodic agents, and an
arriving reset is put before all turns. -/
theorem runsAreFiniteOrInfinite : Obligations.RunsAreFiniteOrInfinite := by
  unfold Obligations.RunsAreFiniteOrInfinite
  refine ⟨fun s issued hready hschedule hstreams hwf => ?_, fun c hv hpos hfin => exists_fair_infinite_run hv hpos hfin,
    fun s hv => advance_reset hv⟩
  have hidle : s.Idle := ⟨hready.valid, hschedule, hstreams⟩
  exact ⟨statesFrom s issued, rfl, fun k hclear => exec_after ⟨(idle_statesFrom hidle issued k).valid, hclear⟩ _,
    fun n hclear => isRun_statesFrom hidle hwf hclear⟩

end Sys2Proof.Machine

namespace Sys2Proof.Machine

/-! ## The writes of an operation -/

/-- One write of a unit, with what the pseudocode checks before it: every operation that raises nothing makes some of
these writes, one after the other, and no other (R13 point 4). -/
inductive UnitWrite (s : State) : State → Prop where
  | count (w : Wheel) (x : Qd) (hrange : s.cfg.outOfTickRange x.ticks = false) : UnitWrite s (s.setQd w x)
  | estimate (w : Wheel) (x : Ve) (hprev : x.prev = (s.qd.get w).ticks) : UnitWrite s (s.setVe w x)
  | target (w : Wheel) (x : Number) (hfin : x.isFinite = true) :
    UnitWrite s (s.setPid w { s.pid.get w with target := x, integral := .zero, cycles := 0 })
  | regulate (w : Wheel) (hrun : s.stopped w = false) (hfin : pidAllFinite s w = true) :
    UnitWrite s (s.setPid w { s.pid.get w with
      prevErr := pidError s w, integral := pidIntegral s w, duty := saturate (pidRawDuty s w),
      cycles := (s.pid.get w).cycles + 1 })
  | drive (w : Wheel) (x : Act) (hduty : dutyInRange x.pwm = true ∨ x.pwm = (s.act.get w).pwm) :
    UnitWrite s (s.setAct w x)
  | measure (x : Kin) (v om : Number) : UnitWrite s ((s.setKin x).giveResult v om)
  | stepperTick : UnitWrite s (s.setSt (stepperTick s.cfg s.st))
  | setDirection (d : Dir) : UnitWrite s (s.setSt (setDirection s.cfg d s.st))

theorem unitWrite_of_actForward {w : Wheel} {duty : Number} {s t : State} (h : actForward w duty s = .ok t) :
    UnitWrite s t := by
  obtain ⟨hduty, rfl⟩ := actForward_ok h
  exact .drive w _ (.inl hduty)

theorem unitWrite_of_actBackward {w : Wheel} {duty : Number} {s t : State} (h : actBackward w duty s = .ok t) :
    UnitWrite s t := by
  obtain ⟨hduty, rfl⟩ := actBackward_ok h
  exact .drive w _ (.inl hduty)

theorem unitWrite_actStop (w : Wheel) (s : State) : UnitWrite s (actStop w s) := .drive w _ (.inl rfl)

theorem unitWrite_of_driveActuator {w : Wheel} {u : Number} {s t : State} (h : driveActuator w u s = .ok t) :
    UnitWrite s t := by
  obtain ⟨-, hfwd⟩ | ⟨-, -, hbwd⟩ | ⟨-, -, rfl⟩ := driveActuator_ok h
  · exact unitWrite_of_actForward hfwd
  · exact unitWrite_of_actBackward hbwd
  · exact unitWrite_actStop w s

theorem unitWrites_of_setTarget {w : Wheel} {x : Number} {s t : State} (h : setTarget w x s = .ok t) :
    Relation.ReflTransGen UnitWrite s t := by
  obtain ⟨hfin, ⟨-, rfl⟩ | ⟨-, rfl⟩⟩ := setTarget_ok h
  · exact .single (.target w x hfin)
  · exact .refl

/-- An operation that raises nothing makes unit writes only. -/
theorem unitWrites_of_pseudocode {i : Instr} {s t : State} (h : pseudocode s i = .ok t) :
    Relation.ReflTransGen UnitWrite s t := by
  cases i with
  | qdEdgeA w a => obtain ⟨hrange, rfl⟩ := edgeA_ok h; exact .single (.count w _ hrange)
  | qdEdgeB w b => obtain ⟨hrange, rfl⟩ := edgeB_ok h; exact .single (.count w _ hrange)
  | veTick w => obtain ⟨-, -, -, rfl⟩ := estimate_ok h; exact .single (.estimate w _ rfl)
  | pidSet w p => exact unitWrites_of_setTarget h
  | pidTick w =>
    obtain ⟨-, rfl⟩ | ⟨hrun, hreg⟩ := pidCycle_ok h
    · exact .single (unitWrite_actStop w s)
    · obtain ⟨hfin, hdrive⟩ := regulate_ok hreg
      exact .tail (.single (.regulate w hrun hfin)) (unitWrite_of_driveActuator hdrive)
  | kinSet v om =>
    obtain ⟨-, -, -, -, u, hleft, hright⟩ := setVelocities_ok h
    exact (unitWrites_of_setTarget hleft).trans (unitWrites_of_setTarget hright)
  | kinGet => obtain ⟨-, -, rfl⟩ := getVelocities_ok h; exact .single (.measure _ _ _)
  | stTick => cases h; exact .single .stepperTick
  | stSetDir d => obtain ⟨dir, -, rfl⟩ := setStepper_ok h; exact .single (.setDirection dir)
  | actFwd w p => exact .single (unitWrite_of_actForward h)
  | actBwd w p => exact .single (unitWrite_of_actBackward h)
  | actStop w => cases h; exact .single (unitWrite_actStop w s)
  | actHalt w => cases h; exact .single (.drive w _ (.inr rfl))

/-- The induction step of an invariant of the units: what a reset and every unit write keep, every step keeps. -/
theorem step_keeps_of_unitWrite {P : State → Prop} (hqueues : ∀ s st sc, P s → P (s.withQueues st sc))
    (hraise : ∀ s c record, P s → P (s.raise c record)) (hreset : ∀ s : State, P s.resetEvent)
    (hwrite : ∀ s t, P s → UnitWrite s t → P t) {s t : State} (hs : P s) (h : step s = .next t) : P t := by
  refine step_keeps_of_pseudocode hqueues hraise (fun s _ => hreset s) (fun i s t hs hok => ?_) hs h
  have hwrites := unitWrites_of_pseudocode hok
  clear hok
  induction hwrites with
  | refl => exact hs
  | tail _ hw ih => exact hwrite _ _ ih hw

/-! ## The tick counters stay in range (R22, R25) -/

theorem outOfTickRange_eq_false_iff (c : Config) (n : Int) :
    c.outOfTickRange n = false ↔ c.tickMin ≤ n ∧ n ≤ c.tickMax := by
  simp [Config.outOfTickRange]

theorem zero_inTickRange (c : Config) : c.tickMin ≤ 0 ∧ 0 ≤ c.tickMax := by
  have hpos : 0 < 2 ^ (c.tickBits - 1) := Nat.two_pow_pos _
  unfold Config.tickMin Config.tickMax
  omega

theorem ticksInRange_resetEvent (s : State) : s.resetEvent.TicksInRange := by
  constructor <;> intro w <;> simpa [Qd.reset, Ve.reset] using zero_inTickRange s.cfg

theorem State.TicksInRange.of_unitWrite {s t : State} (h : s.TicksInRange) (hw : UnitWrite s t) : t.TicksInRange := by
  cases hw with
  | count w x hrange =>
    refine ⟨?_, h.prev⟩
    exact PerWheel.forall_get_set (fun q : Qd => s.cfg.tickMin ≤ q.ticks ∧ q.ticks ≤ s.cfg.tickMax) h.ticks
      ((outOfTickRange_eq_false_iff _ _).mp hrange) w
  | estimate w x hprev =>
    refine ⟨h.ticks, ?_⟩
    exact PerWheel.forall_get_set (fun v : Ve => s.cfg.tickMin ≤ v.prev ∧ v.prev ≤ s.cfg.tickMax) h.prev
      (hprev ▸ h.ticks w) w
  | _ => exact ⟨h.ticks, h.prev⟩

/-- Settles O53: a count is checked before it is written, and a snapshot copies one that was. -/
theorem ticksStayInRange : Obligations.TicksStayInRange := by
  unfold Obligations.TicksStayInRange
  intro s t hs h
  exact step_keeps_of_unitWrite (P := State.TicksInRange) (fun _ _ _ h => ⟨h.ticks, h.prev⟩)
    (fun _ _ _ h => ⟨h.ticks, h.prev⟩) ticksInRange_resetEvent (fun _ _ h hw => h.of_unitWrite hw) hs h

/-! ## The bounds of the PID state (R31, R146) -/

/-- The bounds of one wheel's PID state. -/
structure Pid.InBounds (c : Config) (x : Pid) : Prop where
  dutyLow : Number.negOne.le x.duty = true
  dutyHigh : x.duty.le .one = true
  cycles : x.cycles ≤ c.regVelFreq + 1
  target : x.target.isFinite = true
  prevErr : x.prevErr.isFinite = true
  integral : x.integral.isFinite = true
  duty : x.duty.isFinite = true

theorem pidBounds_iff (s : State) : s.PidBounds ↔ ∀ w, (s.pid.get w).InBounds s.cfg :=
  ⟨fun h w => ⟨h.dutyLow w, h.dutyHigh w, h.cycles w, h.target w, h.prevErr w, h.integral w, h.duty w⟩,
    fun h => ⟨fun w => (h w).dutyLow, fun w => (h w).dutyHigh, fun w => (h w).cycles, fun w => (h w).target,
      fun w => (h w).prevErr, fun w => (h w).integral, fun w => (h w).duty⟩⟩

theorem State.PidBounds.of_eq {s t : State} (h : s.PidBounds) (hpid : t.pid = s.pid) (hcfg : t.cfg = s.cfg) :
    t.PidBounds := by
  rw [pidBounds_iff] at h ⊢
  rwa [hpid, hcfg]

theorem State.PidBounds.setPid {s : State} (h : s.PidBounds) (w : Wheel) {x : Pid} (hx : x.InBounds s.cfg) :
    (s.setPid w x).PidBounds :=
  (pidBounds_iff _).mpr (PerWheel.forall_get_set (Pid.InBounds s.cfg) ((pidBounds_iff s).mp h) hx w)

theorem pidBounds_resetEvent (s : State) : s.resetEvent.PidBounds := by
  rw [pidBounds_iff]
  intro w
  rw [State.resetEvent_pid, PerWheel.get_mk_same]
  exact ⟨rfl, rfl, Nat.zero_le _, rfl, rfl, rfl, rfl⟩

/-- A saturated value meets the bounds of the duty (R145). -/
theorem saturate_inBounds {x : Number} (hx : x.isFinite = true) :
    Number.negOne.le (saturate x) = true ∧ (saturate x).le .one = true := by
  obtain ⟨hfin, hlow, hhigh⟩ := saturate_spec hx
  rw [Number.le_iff rfl hfin, Number.le_iff hfin rfl, Number.toRat_negOne, Number.toRat_one]
  exact ⟨hlow, hhigh⟩

theorem cycles_le_of_not_stopped {s : State} {w : Wheel} (h : s.stopped w = false) :
    (s.pid.get w).cycles ≤ s.cfg.regVelFreq := by
  simp only [State.stopped, Bool.or_eq_false_iff, decide_eq_false_iff_not, not_lt] at h
  exact h.2

theorem State.PidBounds.of_unitWrite {s t : State} (h : s.PidBounds) (hw : UnitWrite s t) : t.PidBounds := by
  cases hw with
  | target w x hfin =>
    exact h.setPid w ⟨h.dutyLow w, h.dutyHigh w, Nat.zero_le _, hfin, h.prevErr w, rfl, h.duty w⟩
  | regulate w hrunning hfin =>
    simp only [pidAllFinite, Bool.and_eq_true] at hfin
    obtain ⟨⟨⟨⟨herr, hint⟩, -⟩, -⟩, hraw⟩ := hfin
    obtain ⟨hlow, hhigh⟩ := saturate_inBounds hraw
    exact h.setPid w ⟨hlow, hhigh, Nat.succ_le_succ (cycles_le_of_not_stopped hrunning), h.target w, herr, hint,
      (saturate_spec hraw).1⟩
  | _ => exact h.of_eq rfl rfl

theorem pidBounds_step {s t : State} (hs : s.PidBounds) (h : step s = .next t) : t.PidBounds :=
  step_keeps_of_unitWrite (P := State.PidBounds) (fun _ _ _ h => h.of_eq rfl rfl) (fun _ _ _ h => h.of_eq rfl rfl)
    pidBounds_resetEvent (fun _ _ h hw => h.of_unitWrite hw) hs h

/-- Settles O54: a cycle saturates the duty and counts only while the loop runs, and a target is finite when written. -/
theorem pidBoundsAreKept : Obligations.PidBoundsAreKept := by
  unfold Obligations.PidBoundsAreKept
  exact fun _ _ hs h => pidBounds_step hs h

/-! ## The Actuators' duties stay in range (R34) -/

theorem pwmInRange_iff (s : State) : s.PwmInRange ↔ ∀ w, dutyInRange (s.act.get w).pwm = true := by
  simp only [State.PwmInRange, dutyInRange, Bool.and_eq_true]

theorem pwmInRange_resetEvent (s : State) : s.resetEvent.PwmInRange := by
  intro w
  rw [State.resetEvent_act, PerWheel.get_mk_same]
  exact ⟨rfl, rfl⟩

theorem State.PwmInRange.of_unitWrite {s t : State} (h : s.PwmInRange) (hw : UnitWrite s t) : t.PwmInRange := by
  cases hw with
  | drive w x hduty =>
    rw [pwmInRange_iff] at h ⊢
    refine PerWheel.forall_get_set (fun y : Act => dutyInRange y.pwm = true) h ?_ w
    obtain hduty | hkept := hduty
    · exact hduty
    · exact hkept ▸ h w
  | _ => exact h

/-- Settles O55: a duty is checked before it is written. -/
theorem pwmStaysInRange : Obligations.PwmStaysInRange := by
  unfold Obligations.PwmStaysInRange
  intro s t hs h
  exact step_keeps_of_unitWrite (P := State.PwmInRange) (fun _ _ _ h => h) (fun _ _ _ h => h) pwmInRange_resetEvent
    (fun _ _ h hw => h.of_unitWrite hw) hs h

/-! ## The stepper stays consistent (R36, R37, R39, R194) -/

theorem State.StepperConsistent.of_eq {s t : State} (h : s.StepperConsistent) (hst : t.st = s.st)
    (hcfg : t.cfg = s.cfg) : t.StepperConsistent := by
  constructor <;> simp only [hst, hcfg]
  exacts [h.enabled, h.enLine, h.low, h.high, h.parity]

theorem stepperConsistent_resetEvent (s : State) : s.resetEvent.StepperConsistent := by
  refine ⟨rfl, rfl, ?_, ?_, rfl⟩ <;> simp only [State.resetEvent_st, State.resetEvent_cfg, St.reset] <;> omega

/-- A half-step that stays within the bound toggles output and parity together (R39). -/
theorem State.StepperConsistent.halfStep {s : State} (h : s.StepperConsistent) {d : Int} (hodd : d % 2 = 1)
    (hlow : -(s.cfg.limit : Int) - 1 ≤ s.st.pos + d) (hhigh : s.st.pos + d ≤ (s.cfg.limit : Int) + 1) :
    (s.setSt (halfStep s.st d)).StepperConsistent := by
  refine ⟨h.enabled, h.enLine, hlow, hhigh, ?_⟩
  change (!s.st.stepOut) = decide ((s.st.pos + d) % 2 = 1)
  rw [h.parity, ← decide_not, decide_eq_decide]
  omega

theorem State.StepperConsistent.stepperTick {s : State} (h : s.StepperConsistent) :
    (s.setSt (stepperTick s.cfg s.st)).StepperConsistent := by
  have hlow := h.low
  have hhigh := h.high
  unfold Machine.stepperTick
  split
  · exact h.halfStep rfl (by omega) (by omega)
  · split
    · exact h.halfStep rfl (by omega) (by omega)
    · exact h.of_eq rfl rfl

theorem State.StepperConsistent.setDirection {s : State} (h : s.StepperConsistent) (d : Dir) :
    (s.setSt (setDirection s.cfg d s.st)).StepperConsistent := by
  cases d <;> exact ⟨rfl, rfl, h.low, h.high, h.parity⟩

theorem State.StepperConsistent.of_unitWrite {s t : State} (h : s.StepperConsistent) (hw : UnitWrite s t) :
    t.StepperConsistent := by
  cases hw with
  | stepperTick => exact h.stepperTick
  | setDirection d => exact h.setDirection d
  | _ => exact h.of_eq rfl rfl

/-- Settles O56: a half-step is one unit from within `LIMIT` and toggles the output; a direction sets both enables. -/
theorem stepperStaysConsistent : Obligations.StepperStaysConsistent := by
  unfold Obligations.StepperStaysConsistent
  intro s t hs h
  exact step_keeps_of_unitWrite (P := State.StepperConsistent) (fun _ _ _ h => h.of_eq rfl rfl)
    (fun _ _ _ h => h.of_eq rfl rfl) stepperConsistent_resetEvent (fun _ _ h hw => h.of_unitWrite hw) hs h

/-! ## The fault register's information (R40, R230) -/

theorem causeOf_ne_none {i : Instr} {c : Cause} (h : causeOf i = some c) : c ≠ .none := by
  cases i <;> cases h <;> simp

/-- A raise records a nonempty record under a cause that is one. -/
theorem faultInfoConsistent_raise {s : State} {c : Cause} {record : List Byte} (hc : c ≠ .none) (hr : record ≠ []) :
    (s.raise c record).FaultInfoConsistent :=
  iff_of_false hc hr

theorem State.FaultInfoConsistent.of_exec {i : Instr} {s t : State} (hs : s.FaultInfoConsistent)
    (h : exec i s = .next t) : t.FaultInfoConsistent := by
  obtain ⟨-, -, hok | ⟨c, herr, rfl⟩⟩ := exec_next h
  · obtain ⟨-, hfault, -⟩ := pseudocode_keeps hok
    rwa [State.FaultInfoConsistent, hfault]
  · exact faultInfoConsistent_raise (causeOf_ne_none (pseudocode_error herr)) (List.cons_ne_nil _ _)

/-- Settles O58: only a raise and a reset write the register; a raise fills both its fields, a reset clears both. -/
theorem faultInfoStaysConsistent : Obligations.FaultInfoStaysConsistent := by
  unfold Obligations.FaultInfoStaysConsistent
  intro s t hs h
  obtain ⟨-, ⟨-, rfl⟩ | ⟨events, -, rfl⟩ | ⟨a, events, -, -, hturn⟩⟩ := step_next h
  · exact hs
  · exact iff_of_true rfl rfl
  · obtain ⟨i, rest, -, hexec⟩ | ⟨op, rest, -, rfl⟩ | ⟨-, rfl⟩ := hturn
    · exact State.FaultInfoConsistent.of_exec (s := s.taken events a rest) hs hexec
    · exact faultInfoConsistent_raise (by simp) (List.cons_ne_nil _ _)
    · exact hs

end Sys2Proof.Machine

namespace Sys2Proof.Machine

/-! ## What no step writes, and what no operation reads (R35, R41, R42) -/

/-- Settles O17: of what a step can do, the operations keep the configuration, and so does a reset (R260). -/
theorem configurationIsNeverWritten : Obligations.ConfigurationIsNeverWritten := by
  unfold Obligations.ConfigurationIsNeverWritten
  refine ⟨fun s t h => ?_, fun c => by simp [Config.tickMin, Config.tickMax]⟩
  obtain ⟨-, ⟨-, rfl⟩ | ⟨events, -, rfl⟩ | ⟨a, events, -, -, hturn⟩⟩ := step_next h
  · rfl
  · rfl
  · obtain ⟨i, rest, -, hexec⟩ | ⟨op, rest, -, rfl⟩ | ⟨-, rfl⟩ := hturn
    · exact (exec_keeps hexec).1
    · rfl
    · rfl

/-- The state with other values in the kinematics cache and in the list of values returned. -/
def State.withResults (s : State) (k : Kin) (r : List (Number × Number)) : State := { s with kin := k, returned := r }

theorem setTarget_withResults (w : Wheel) (x : Number) (s : State) (k : Kin) (r : List (Number × Number)) :
    setTarget w x (s.withResults k r) = (setTarget w x s).map (·.withResults k r) := by
  simp only [setTarget, map_check]
  rfl

/-- No operation reads the cache or the values returned: with others, it does the same outside of them. -/
theorem pseudocode_withResults (i : Instr) (s : State) (k k' : Kin) (r r' : List (Number × Number)) :
    (pseudocode (s.withResults k r) i).map (·.withResults k' r') = (pseudocode s i).map (·.withResults k' r') := by
  cases i with
  | qdEdgeA w a => simp only [pseudocode, edgeA, map_check]; rfl
  | qdEdgeB w b => simp only [pseudocode, edgeB, map_check]; rfl
  | veTick w => simp only [pseudocode, estimate, map_check]; rfl
  | pidSet w p => simp only [pseudocode, setTarget, map_check]; rfl
  | pidTick w =>
    simp only [pseudocode, pidCycle, regulate, driveActuator, actForward, actBackward, map_check]
    rfl
  | kinSet v om =>
    have hc : (s.withResults k r).cfg = s.cfg := rfl
    have hn : ∀ p, (s.withResults k r).numOperand p = s.numOperand p := fun _ => rfl
    simp only [pseudocode, setVelocities, hc, hn, setTarget_withResults, map_check]
    cases setTarget .left (leftTarget s.cfg (s.numOperand v) (s.numOperand om)) s with
    | ok t =>
      simp only [Except.map, setTarget_withResults]
      cases setTarget .right (rightTarget s.cfg (s.numOperand v) (s.numOperand om)) t <;> rfl
    | error c => rfl
  | kinGet => simp only [pseudocode, getVelocities, map_check]; rfl
  | stTick => rfl
  | stSetDir d => simp only [pseudocode, setStepper]; split <;> rfl
  | actFwd w p => simp only [pseudocode, actForward, map_check]; rfl
  | actBwd w p => simp only [pseudocode, actBackward, map_check]; rfl
  | actStop w => rfl
  | actHalt w => rfl

theorem map_eq_ok {f : State → State} {x : Except Cause State} {t : State} (h : x.map f = .ok t) :
    ∃ u, x = .ok u ∧ f u = t := by
  cases x with
  | ok u => cases h; exact ⟨u, rfl, rfl⟩
  | error c => cases h

theorem map_eq_error {f : State → State} {x : Except Cause State} {c : Cause} (h : x.map f = .error c) :
    x = .error c := by
  cases x with
  | ok u => cases h
  | error d => cases h; rfl

/-- Settles O40: no pseudocode reads the cache or the values returned. -/
theorem kinCacheIsReadByNothing : Obligations.KinCacheIsReadByNothing := by
  unfold Obligations.KinCacheIsReadByNothing
  intro i s t k r h
  have hsame := pseudocode_withResults i s k t.kin r t.returned
  obtain ⟨hv, hf, hok | ⟨c, herr, rfl⟩⟩ := exec_next h
  · rw [hok] at hsame
    obtain ⟨u, hu, htu⟩ := map_eq_ok hsame
    exact ⟨u, exec_ok (s := s.withResults k r) hv hf hu, htu⟩
  · rw [herr] at hsame
    exact ⟨_, exec_error (s := s.withResults k r) hv hf (map_eq_error hsame), rfl⟩

/-- The state `u` with what an operation of wheel `w` may read taken from `s`: the wheel's banks, the configuration and
the fault register. -/
def State.wheelOnto (w : Wheel) (u s : State) : State :=
  { u with
    qd := u.qd.set w (s.qd.get w), ve := u.ve.set w (s.ve.get w), pid := u.pid.set w (s.pid.get w)
    act := u.act.set w (s.act.get w), cfg := s.cfg, fault := s.fault }

theorem wheelOnto_of_agree {w : Wheel} {u s : State} (hqd : u.qd.get w = s.qd.get w) (hve : u.ve.get w = s.ve.get w)
    (hpid : u.pid.get w = s.pid.get w) (hact : u.act.get w = s.act.get w) (hcfg : u.cfg = s.cfg)
    (hfault : u.fault = s.fault) : u.wheelOnto w s = u := by
  simp only [State.wheelOnto, ← hqd, ← hve, ← hpid, ← hact, ← hcfg, ← hfault, PerWheel.set_get_self]

/-- An operation of a wheel reads and writes nothing but what `State.wheelOnto` copies (R42). -/
theorem pseudocode_wheelOnto {i : Instr} {w : Wheel} (hi : i.wheel = some w) (u s : State) :
    pseudocode (u.wheelOnto w s) i = (pseudocode s i).map (u.wheelOnto w) := by
  cases i with
  | qdEdgeA w a => cases hi; cases w <;> simp only [pseudocode, edgeA, map_check] <;> rfl
  | qdEdgeB w b => cases hi; cases w <;> simp only [pseudocode, edgeB, map_check] <;> rfl
  | veTick w => cases hi; cases w <;> simp only [pseudocode, estimate, map_check] <;> rfl
  | pidSet w p => cases hi; cases w <;> simp only [pseudocode, setTarget, map_check] <;> rfl
  | pidTick w =>
    cases hi
    cases w <;>
      simp only [pseudocode, pidCycle, regulate, driveActuator, actForward, actBackward, map_check] <;> rfl
  | kinSet v om => cases hi
  | kinGet => cases hi
  | stTick => cases hi
  | stSetDir d => cases hi
  | actFwd w p => cases hi; cases w <;> simp only [pseudocode, actForward, map_check] <;> rfl
  | actBwd w p => cases hi; cases w <;> simp only [pseudocode, actBackward, map_check] <;> rfl
  | actStop w => cases hi; cases w <;> rfl
  | actHalt w => cases hi; cases w <;> rfl

/-- Settles O49: an operation commutes with the exchange of everything but its own wheel's bank. Exchanged for itself,
the rest stays; exchanged for another state's, the bank becomes the same. -/
theorem wheelsAreIndependent : Obligations.WheelsAreIndependent := by
  unfold Obligations.WheelsAreIndependent
  refine ⟨fun i w w' s t hi hne h => ?_, fun i w s s' t hi hqd hve hpid hact hcfg hfault h => ?_⟩
  · have hcomm := pseudocode_wheelOnto hi s s
    rw [wheelOnto_of_agree rfl rfl rfl rfl rfl rfl] at hcomm
    obtain ⟨-, -, hok | ⟨c, -, rfl⟩⟩ := exec_next h
    · rw [hok] at hcomm
      have ht : t = s.wheelOnto w t := Except.ok.inj hcomm
      rw [ht]
      exact ⟨PerWheel.get_set_other _ hne _, PerWheel.get_set_other _ hne _, PerWheel.get_set_other _ hne _,
        PerWheel.get_set_other _ hne _⟩
    · exact ⟨rfl, rfl, rfl, rfl⟩
  · have hcomm := pseudocode_wheelOnto hi s' s
    rw [wheelOnto_of_agree hqd hve hpid hact hcfg hfault] at hcomm
    obtain ⟨hv, hf, hok | ⟨c, herr, rfl⟩⟩ := exec_next h
    · rw [hok] at hcomm
      refine ⟨_, exec_ok (hcfg ▸ hv) (hfault ▸ hf) hcomm, ?_⟩
      exact ⟨PerWheel.get_set_self _ _ _, PerWheel.get_set_self _ _ _, PerWheel.get_set_self _ _ _,
        PerWheel.get_set_self _ _ _, rfl⟩
    · rw [herr] at hcomm
      exact ⟨_, exec_error (hcfg ▸ hv) (hfault ▸ hf) hcomm, hqd, hve, hpid, hact, rfl⟩

/-! ## From reset -/

/-- What holds before a number of steps, and is kept by every step, holds after them. -/
theorem run_invariant {M : Host.Core} {P : M.State → Prop} (hstep : ∀ s t, P s → M.step s = .next t → P t)
    (k : Nat) {s t : M.State} (hs : P s) (h : M.run k s = .next t) : P t := by
  induction k generalizing s with
  | zero => cases h; exact hs
  | succ k ih =>
    unfold Host.Core.run at h
    split at h
    · rename_i u hu
      exact ih (hstep s u hs hu) h
    · cases h
    · cases h

/-- Booting leaves the block as a reset does. -/
theorem resetEvent_boot (c : Config) (streams : Streams) (schedule : List Event) :
    (State.boot c streams schedule).resetEvent = State.boot c streams schedule := rfl

/-- Settles O60, by the step lemma of O54 along the steps and along the run. -/
theorem pidBoundsHoldFromReset : Obligations.PidBoundsHoldFromReset := by
  unfold Obligations.PidBoundsHoldFromReset
  intro c streams schedule
  have hboot : (State.boot c streams schedule).PidBounds := pidBounds_resetEvent (State.boot c streams schedule)
  refine ⟨fun k t h => ?_, fun inputs states n h0 hrun => ?_⟩
  · exact run_invariant (M := core) (fun _ _ => pidBounds_step) k hboot h
  · have hreceive : ∀ (s : State) (x : Input), s.PidBounds → (s.receive x).PidBounds := fun s x h =>
      h.of_eq (State.receive_pid s x) (State.receive_cfg s x)
    exact hrun.invariant hreceive (fun _ _ => pidBounds_step) (h0 ▸ hboot) n le_rfl

/-- Settles O59: a booted block is as a reset leaves it, and a reset meets each invariant. -/
theorem resetMeetsInvariants : Obligations.ResetMeetsInvariants := by
  unfold Obligations.ResetMeetsInvariants
  intro c streams schedule hv
  rw [← resetEvent_boot]
  refine ⟨⟨hv, rfl⟩, ticksInRange_resetEvent _, pidBounds_resetEvent _, pwmInRange_resetEvent _,
    stepperConsistent_resetEvent _, numsInFormat_resetEvent _, iff_of_true rfl rfl, fun w => ?_⟩
  cases w <;> rfl

end Sys2Proof.Machine

namespace Sys2Proof

/-! ## The opcode map (R74 to R76) -/

theorem decodeOp_some {op : Byte} {r : OpcodeRow} (h : decodeOp op = some r) :
    r ∈ opcodeTable ∧ op &&& r.mask = r.pattern :=
  ⟨List.mem_of_find?_eq_some h, beq_iff_eq.mp (List.find?_some (p := (OpcodeRow.accepts · op)) h)⟩

theorem decodeOp_eq_none_iff (op : Byte) : decodeOp op = none ↔ ∀ r ∈ opcodeTable, op &&& r.mask ≠ r.pattern := by
  simp only [decodeOp, List.find?_eq_none, OpcodeRow.accepts, beq_iff_eq, ne_eq]

/-- Any two rows differ in a bit that both their masks keep. -/
theorem eq_of_patterns_agree : ∀ r ∈ opcodeTable, ∀ r' ∈ opcodeTable,
    r.pattern &&& r'.mask = r'.pattern &&& r.mask → r = r' := by decide

/-- At most one row matches any byte (R75). -/
theorem opcodeRow_unique {op : Byte} {r r' : OpcodeRow} (hr : r ∈ opcodeTable) (hr' : r' ∈ opcodeTable)
    (h : op &&& r.mask = r.pattern) (h' : op &&& r'.mask = r'.pattern) : r = r' := by
  refine eq_of_patterns_agree r hr r' hr' ?_
  rw [← h, ← h', BitVec.and_assoc, BitVec.and_assoc, BitVec.and_comm r.mask]

theorem decodeOp_eq_some_iff (op : Byte) (r : OpcodeRow) :
    decodeOp op = some r ↔ r ∈ opcodeTable ∧ op &&& r.mask = r.pattern := by
  refine ⟨decodeOp_some, fun ⟨hr, hop⟩ => ?_⟩
  cases hd : decodeOp op with
  | none => exact absurd hop ((decodeOp_eq_none_iff op).mp hd r hr)
  | some r' =>
    obtain ⟨hr', hop'⟩ := decodeOp_some hd
    rw [opcodeRow_unique hr hr' hop hop']

theorem recordLength_of_illegal {op : Byte} (h : decodeOp op = none) : recordLength op = 1 := by
  simp only [recordLength, h]

theorem recordLength_of_row {op : Byte} {r : OpcodeRow} (h : decodeOp op = some r) :
    recordLength op = 1 + r.payload.length := by
  simp only [recordLength, h]

/-! ## Writing back a record (R70 to R79) -/

theorem wheelField_ofBit (op : Byte) : Instr.codeByte.wheelField (Wheel.ofBit (op.getLsbD 4)) = op &&& 0x10#8 := by
  have hbit : op &&& 0x10#8 = if op.getLsbD 4 then 0x10#8 else 0x00#8 := BitVec.and_twoPow op 4
  rw [hbit]
  cases op.getLsbD 4 <;> rfl

theorem levelField_getLsbD (op : Byte) : Instr.codeByte.levelField (op.getLsbD 0) = op &&& 0x01#8 :=
  (BitVec.and_twoPow op 0).symm

/-- A byte is its bits in a mask and its bits outside it. -/
theorem or_and_of_mask {op mask pattern field : Byte} (h : op &&& mask = pattern) (hfield : mask ||| field = 0xFF#8) :
    pattern ||| (op &&& field) = op := by
  rw [← h, ← BitVec.and_or_distrib_left, hfield]
  exact BitVec.and_allOnes

/-- What a row's mask leaves out of the code byte are the fields its operation carries (R70, R74). -/
theorem codeByte_operation {op : Byte} {r : OpcodeRow} (hr : r ∈ opcodeTable) (h : op &&& r.mask = r.pattern)
    (payload : List Byte) : (r.operation op payload).codeByte = op := by
  have hwheel : ∀ {pattern : Byte}, op &&& 0b11101111#8 = pattern →
      pattern ||| Instr.codeByte.wheelField (Wheel.ofBit (op.getLsbD 4)) = op := fun h => by
    rw [wheelField_ofBit, or_and_of_mask h rfl]
  have hedge : ∀ {pattern : Byte}, op &&& 0b11101110#8 = pattern →
      pattern ||| Instr.codeByte.wheelField (Wheel.ofBit (op.getLsbD 4)) |||
        Instr.codeByte.levelField (op.getLsbD 0) = op := fun h => by
    rw [wheelField_ofBit, levelField_getLsbD, BitVec.or_assoc, ← BitVec.and_or_distrib_left, or_and_of_mask h rfl]
  have hfixed : ∀ {pattern : Byte}, op &&& 0b11111111#8 = pattern → pattern = op := fun h =>
    h.symm.trans BitVec.and_allOnes
  simp only [opcodeTable, List.mem_cons, List.not_mem_nil, or_false] at hr
  obtain rfl | rfl | rfl | rfl | rfl | rfl | rfl | rfl | rfl | rfl | rfl | rfl | rfl := hr
  -- the rows in R74's order: QD, then VE and PID, then KIN and ST, then ACT
  case _ | _ => exact hedge h
  case _ | _ | _ => exact hwheel h
  case _ | _ | _ | _ => exact hfixed h
  case _ | _ | _ | _ => exact hwheel h

theorem inI8_sext8 (b : Byte) : Instr.inI8 (sext8 b) = true := by
  have hb : b.toNat < 256 := b.isLt
  rw [Instr.inI8, Bool.and_eq_true, decide_eq_true_eq, decide_eq_true_eq, sext8]
  split <;> omega

theorem i8Byte_sext8 (b : Byte) : i8Byte (sext8 b) = b := by
  have hb : b.toNat < 256 := b.isLt
  have hmod : (sext8 b % 256).toNat = b.toNat := by
    rw [sext8]
    split <;> omega
  rw [i8Byte, hmod, BitVec.ofNat_toNat, BitVec.setWidth_eq]

theorem wellFormed_operation (r : OpcodeRow) (op : Byte) (payload : List Byte) :
    (r.operation op payload).wellFormed = true := by
  obtain ⟨mnemonic, pattern, mask, cls⟩ := r
  cases mnemonic with
  | stSetDir => exact inI8_sext8 _
  | _ => rfl

/-- A payload of its row's length is the one its operation is written with (R72, R73). -/
theorem payloadBytes_operation {r : OpcodeRow} (hr : r ∈ opcodeTable) (op : Byte) {payload : List Byte}
    (hlen : payload.length = r.payload.length) : (r.operation op payload).payloadBytes = payload := by
  have hnone : payload.length = 0 → [] = payload := fun h => (List.length_eq_zero_iff.mp h).symm
  have hnum2 : payload.length = 16 →
      patternBytes (patternOf (payload.take 8)) ++ patternBytes (patternOf (payload.drop 8)) = payload := fun h => by
    rw [patternBytes_patternOf (by rw [List.length_take, h]; rfl), patternBytes_patternOf (by rw [List.length_drop, h]),
      List.take_append_drop]
  have hi8 : payload.length = 1 → [i8Byte (sext8 (payload.headD 0#8))] = payload := fun h => by
    obtain ⟨b, rfl⟩ := List.length_eq_one_iff.mp h
    rw [List.headD_cons, i8Byte_sext8]
  simp only [opcodeTable, List.mem_cons, List.not_mem_nil, or_false] at hr
  obtain rfl | rfl | rfl | rfl | rfl | rfl | rfl | rfl | rfl | rfl | rfl | rfl | rfl := hr
  -- the rows in R74's order: up to VE.TICK, the two of PID, of KIN and of ST, then ACT's with a duty and without
  case _ | _ | _ => exact hnone hlen
  case _ => exact patternBytes_patternOf hlen
  case _ => exact hnone hlen
  case _ => exact hnum2 hlen
  case _ | _ => exact hnone hlen
  case _ => exact hi8 hlen
  case _ | _ => exact patternBytes_patternOf hlen
  case _ | _ => exact hnone hlen

/-- Everything a stream that decodes to an operation can be: a code byte with a row, that row's payload, and the rest. -/
theorem decode_record {bytes rest : List Byte} {i : Instr} (h : decode bytes = .record i rest) :
    ∃ op payload r, decodeOp op = some r ∧ payload.length = r.payload.length ∧ bytes = op :: payload ++ rest ∧
      i = r.operation op payload := by
  cases bytes with
  | nil => cases h
  | cons op bytes =>
    cases hr : decodeOp op with
    | none =>
      simp only [decode, hr] at h
      cases h
    | some r =>
      simp only [decode, hr] at h
      split at h
      · cases h
      · next hlen =>
        cases h
        refine ⟨op, bytes.take r.payload.length, r, hr, List.length_take_of_le (Nat.not_lt.mp hlen), ?_, rfl⟩
        rw [List.cons_append, List.take_append_drop]

/-- Settles O1. -/
theorem decodeOfEncode : Obligations.DecodeOfEncode := fun _ rest hi => decode_encode_append hi rest

/-- Settles O2: the code byte and the payload that an operation was read from are those it is written with. -/
theorem encodeOfDecode : Obligations.EncodeOfDecode := by
  unfold Obligations.EncodeOfDecode
  intro bytes rest i h
  obtain ⟨op, payload, r, hr, hlen, rfl, rfl⟩ := decode_record h
  obtain ⟨hmem, hop⟩ := decodeOp_some hr
  refine ⟨wellFormed_operation r op payload, ?_⟩
  rw [encode, codeByte_operation hmem hop, payloadBytes_operation hmem op hlen]

/-- Settles O3: the codes by going through the 256 bytes, the lengths by the row. -/
theorem reservedCodesAndRecordLengths : Obligations.ReservedCodesAndRecordLengths := by
  unfold Obligations.ReservedCodesAndRecordLengths
  refine ⟨by decide +kernel, by decide +kernel, fun _ => recordLength_of_illegal, fun op r h => ?_⟩
  rw [recordLength_of_row h]
  cases r.payload <;> rfl

/-- Settles O4: two rows that accept one byte have patterns that agree in the bits both masks keep. -/
theorem atMostOneRowAcceptsACode : Obligations.AtMostOneRowAcceptsACode :=
  fun op => ⟨decodeOp_eq_some_iff op, decodeOp_eq_none_iff op⟩

/-- Settles O5: the bytes written out are the encoder's records; the last byte has no row. -/
theorem specRecordsDecode : Obligations.SpecRecordsDecode := by
  unfold Obligations.SpecRecordsDecode
  have hrev : encode (.stSetDir (-1)) = [0x81#8, 0xff#8] := by decide
  have hrevDecode : decode ([0x81#8, 0xff#8] ++ [0x80#8]) = .record (.stSetDir (-1)) [0x80#8] :=
    hrev ▸ decode_encode_append rfl [0x80#8]
  exact ⟨decode_encode (i := .qdEdgeA .right true) rfl, decode_encode (i := .qdEdgeB .left false) rfl,
    decode_encode_append (i := .veTick .right) rfl [0x20#8],
    decode_encode (i := .pidSet .right 0x3fc999999999999a#64) rfl,
    hrevDecode, decode_encode (i := .actHalt .left) rfl, rfl⟩

/-! ## The value of a pattern (R73) -/

/-- A scaled significand that fits in a format's digits and exponents is a member, in its one form. -/
theorem Number.inFormat_ofScaled {f : NumFormat} (a : Bool) {m : Nat} {e : ℤ} (hm : m < 2 ^ f.precision)
    (hlow : f.minQuantum ≤ e) (hhigh : e + f.precision ≤ f.maxExp + 1) : (Number.ofScaled a m e).inFormat f = true := by
  by_cases h0 : m = 0
  · rw [h0, Number.ofScaled_zero]
    rfl
  · obtain ⟨m', j, hform, rfl, hodd⟩ := Number.ofScaled_spec a m e h0
    have hm' : m' ≠ 0 := left_ne_zero_of_mul h0
    have hle : m' ≤ m' * 2 ^ j := Nat.le_mul_of_pos_right m' (by positivity)
    have hdigits : m'.log2 + j < f.precision := by
      refine (Nat.pow_lt_pow_iff_right (a := 2) (by norm_num)).mp (lt_of_le_of_lt ?_ hm)
      rw [pow_add]
      exact Nat.mul_le_mul_right _ (Nat.log2_self_le hm')
    rw [hform]
    simp only [Number.inFormat, Bool.or_eq_true, Bool.and_eq_true, decide_eq_true_eq]
    exact .inr ⟨⟨⟨hodd, by omega⟩, by omega⟩, by omega⟩

section
variable {p : Pattern}

theorem Number.ofPattern_special (hex : p.toNat / 2 ^ 52 % 2 ^ 11 = 2047) :
    Number.ofPattern p = if p.toNat % 2 ^ 52 = 0 then .inf (p.getLsbD 63) else .nan := if_pos hex

theorem Number.ofPattern_subnormal (hex : p.toNat / 2 ^ 52 % 2 ^ 11 = 0) :
    Number.ofPattern p = .ofScaled (p.getLsbD 63) (p.toNat % 2 ^ 52) (-1074) :=
  (if_neg (by omega)).trans (if_pos hex)

theorem Number.ofPattern_normal (hpos : 0 < p.toNat / 2 ^ 52 % 2 ^ 11) (hlt : p.toNat / 2 ^ 52 % 2 ^ 11 < 2047) :
    Number.ofPattern p = .ofScaled (p.getLsbD 63) (2 ^ 52 + p.toNat % 2 ^ 52)
      (((p.toNat / 2 ^ 52 % 2 ^ 11 : ℕ) : ℤ) - 1075) :=
  (if_neg (by omega)).trans (if_neg (by omega))

end

theorem Number.inFormat_ofPattern (p : Pattern) : (Number.ofPattern p).inFormat .binary64 = true := by
  have hfrac : p.toNat % 2 ^ 52 < 2 ^ 52 := Nat.mod_lt _ (by norm_num)
  have hprec : NumFormat.binary64.precision = 53 := rfl
  have hmax : NumFormat.binary64.maxExp = 1023 := rfl
  have hmin : NumFormat.binary64.minQuantum = -1074 := rfl
  obtain hex | hex | ⟨hpos, hlt⟩ : p.toNat / 2 ^ 52 % 2 ^ 11 = 2047 ∨ p.toNat / 2 ^ 52 % 2 ^ 11 = 0 ∨
      0 < p.toNat / 2 ^ 52 % 2 ^ 11 ∧ p.toNat / 2 ^ 52 % 2 ^ 11 < 2047 := by omega
  · rw [Number.ofPattern_special hex]
    split <;> rfl
  · rw [Number.ofPattern_subnormal hex]
    exact Number.inFormat_ofScaled _ (by rw [hprec]; omega) (by omega) (by omega)
  · rw [Number.ofPattern_normal hpos hlt]
    exact Number.inFormat_ofScaled _ (by rw [hprec]; omega) (by omega) (by omega)

/-- A significand with its leading digit, in units of its last digit and as a fraction. -/
theorem significand_mul_zpow (frac : ℕ) (ex : ℤ) :
    ((2 ^ 52 + frac : ℕ) : ℚ) * 2 ^ (ex - 1075) = (1 + frac / 2 ^ 52) * 2 ^ (ex - 1023) := by
  have hexp : (2 : ℚ) ^ (ex - 1023) = 2 ^ (ex - 1075) * 2 ^ 52 := by
    rw [← zpow_natCast, ← zpow_add₀ (by norm_num)]
    congr 1
    push_cast
    ring
  rw [hexp]
  push_cast
  ring

/-- Settles O6: each kind of pattern is read as one scaled significand, and that is a number of binary64, which reading
it in binary64 does not change. -/
theorem patternIsBinary64 : Obligations.PatternIsBinary64 := by
  unfold Obligations.PatternIsBinary64
  intro p
  refine ⟨fun hex hfrac => ?_, fun hex hfrac => ?_, fun hex => ?_, fun hex hfrac => ?_, fun hpos hlt => ?_,
    fun s hnum => ?_⟩
  · rw [Number.ofPattern_special hex, if_pos hfrac]
  · rw [Number.ofPattern_special hex, if_neg hfrac]
  · rw [Number.ofPattern_subnormal hex]
    exact ⟨Number.isFinite_ofScaled _ _ _, Number.toRat_ofScaled _ _ _⟩
  · rw [Number.ofPattern_subnormal hex, hfrac, Number.ofScaled_zero]
  · rw [Number.ofPattern_normal hpos hlt]
    refine ⟨Number.isFinite_ofScaled _ _ _, ?_⟩
    rw [Number.toRat_ofScaled, mul_assoc, significand_mul_zpow, mul_assoc]
  · rw [Machine.State.numOperand, hnum, Number.convert_self (Number.inFormat_ofPattern p)]

end Sys2Proof

namespace Sys2Proof.Machine

/-! ## One agent's turns (R79) -/

/-- An agent's turn performs the record at the front of its stream and takes the turn and the record; with a fault held
neither has a step. -/
theorem step_encode {s : State} {a : Agent} {events : List Event} {i : Instr} {rest : List Byte}
    (hv : s.cfg.valid = true) (hs : s.schedule = .turn a :: events) (hi : i.wellFormed = true)
    (hr : s.streams.get a = encode i ++ rest) :
    step s = mapNext (·.withQueues (s.streams.set a rest) events) (exec i s) := by
  by_cases hf : s.fault.cause = .none
  · rw [step_turn hv hf hs, hr, decode_encode_append hi, ← exec_withQueues]
    rfl
  · rw [step_faulted_turn hv hf hs, exec_faulted hv hf]
    rfl

theorem performAll_withQueues (ops : List Instr) (s : State) (st : Streams) (sc : List Event) :
    performAll ops (s.withQueues st sc) = mapNext (·.withQueues st sc) (performAll ops s) := by
  induction ops generalizing s with
  | nil => rfl
  | cons i is ih =>
    simp only [performAll, exec_withQueues]
    cases exec i s with
    | next t => exact ih t
    | fault r => rfl
    | refused r => rfl

theorem mapNext_mapNext (f g : State → State) (o : Host.Outcome State Fault Refusal) :
    mapNext f (mapNext g o) = mapNext (fun s => f (g s)) o := by cases o <;> rfl

/-- A stream's turns perform its records, a fault in the middle included: from then on neither the turns nor the
operations have a step. -/
theorem run_recordStream {a : Agent} {ops : List Instr} {s : State} {rest : List Byte} {events : List Event}
    (hops : ∀ i ∈ ops, i.wellFormed = true) (hr : s.streams.get a = recordStream ops ++ rest)
    (hs : s.schedule = List.replicate ops.length (.turn a) ++ events) (hv : s.cfg.valid = true) :
    core.run ops.length s = mapNext (·.withQueues (s.streams.set a rest) events) (performAll ops s) := by
  induction ops generalizing s with
  | nil =>
    have hrest : s.streams.get a = rest := hr
    have hevents : s.schedule = events := hs
    rw [← hrest, Streams.set_get_self, ← hevents]
    rfl
  | cons i is ih =>
    obtain ⟨hi, his⟩ := List.forall_mem_cons.mp hops
    have hfront : s.streams.get a = encode i ++ (recordStream is ++ rest) := by
      rw [hr, recordStream, List.map_cons, List.flatten_cons, List.append_assoc, recordStream]
    have hturns : s.schedule = .turn a :: (List.replicate is.length (.turn a) ++ events) := hs
    have hstep : core.step s = _ := step_encode hv hturns hi hfront
    simp only [List.length_cons, Host.Core.run, performAll, hstep]
    cases hexec : exec i s with
    | next t =>
      obtain ⟨hcfg, -, -⟩ := exec_keeps hexec
      refine (ih (s := t.withQueues (s.streams.set a (recordStream is ++ rest))
        (List.replicate is.length (.turn a) ++ events)) his (Streams.get_set_self _ _ _) rfl (hcfg ▸ hv)).trans ?_
      rw [performAll_withQueues, mapNext_mapNext]
      exact congrArg (fun st => mapNext (·.withQueues st events) (performAll is t)) (Streams.set_set s.streams a _ rest)
    | fault r => rfl
    | refused r => rfl

/-- Settles O51, by induction on the records. -/
theorem streamRunsItsRecords : Obligations.StreamRunsItsRecords :=
  fun _ _ _ _ _ hops hr hs hready => run_recordStream hops hr hs hready.valid

/-! ## Turns without an operation (R77, R79) -/

/-- Settles O11. -/
theorem stepWithNothingIssued : Obligations.StepWithNothingIssued := by
  unfold Obligations.StepWithNothingIssued
  refine ⟨fun s => step_nothing_scheduled, fun s a events hready hs hd => ?_, rfl⟩
  rw [step_turn hready.valid hready.clear hs, hd]

/-- Settles O12: a byte without a row is what the front of the stream decodes to. -/
theorem reservedCodeRaisesIllegalOp : Obligations.ReservedCodeRaisesIllegalOp := by
  unfold Obligations.ReservedCodeRaisesIllegalOp
  intro s a events op bytes hready hs hstream hop
  have hd : decode (op :: bytes) = .illegal op bytes := by simp only [decode, hop]
  rw [step_turn hready.valid hready.clear hs, hstream, hd]
  rfl

end Sys2Proof.Machine

namespace Sys2Proof.Machine

/-! ## The quadrature decoder's edges (40_quadrature_decoder.md) -/

theorem qdelta_chanA (a b : Bit) : qdelta .chanA a b = if a ≠ b then 1 else -1 := by cases a <;> cases b <;> rfl

theorem qdelta_chanB (b a : Bit) : qdelta .chanB b a = if b = a then 1 else -1 := by cases b <;> cases a <;> rfl

theorem qdelta_eq_one_or_neg_one (c : Chan) (l other : Bit) : qdelta c l other = 1 ∨ qdelta c l other = -1 := by
  cases c <;> cases l <;> cases other <;> decide

/-- Settles O18: the eight entries are the definition's, and its closed form is each channel's law. -/
theorem transitionTable : Obligations.TransitionTable :=
  ⟨rfl, rfl, rfl, rfl, rfl, rfl, rfl, rfl, qdelta_chanA, qdelta_chanB⟩

/-- The operation of an edge: its channel and the new level read from it. -/
def edgeOp (w : Wheel) : Chan × Bit → Instr
  | (.chanA, a) => .qdEdgeA w a
  | (.chanB, b) => .qdEdgeB w b

/-- What an edge that raises nothing writes to its wheel's decoder (R102, R103). -/
def Qd.afterEdge (q : Qd) : Chan × Bit → Qd
  | (.chanA, a) => { q with ticks := countA q a, lastA := a }
  | (.chanB, b) => { q with ticks := countB q b, lastB := b }

theorem exists_edgeOp {i : Instr} {w : Wheel} {l : Bit} (h : i = .qdEdgeA w l ∨ i = .qdEdgeB w l) :
    ∃ e, i = edgeOp w e :=
  h.elim (fun h => ⟨(.chanA, l), h⟩) (fun h => ⟨(.chanB, l), h⟩)

theorem Qd.afterEdge_ticks (q : Qd) (e : Chan × Bit) :
    (q.afterEdge e).ticks = q.ticks + 1 ∨ (q.afterEdge e).ticks = q.ticks - 1 := by
  obtain ⟨c, l⟩ := e
  cases c with
  | chanA => exact (qdelta_eq_one_or_neg_one .chanA l q.lastB).imp (congrArg (q.ticks + ·)) (congrArg (q.ticks + ·))
  | chanB => exact (qdelta_eq_one_or_neg_one .chanB l q.lastA).imp (congrArg (q.ticks + ·)) (congrArg (q.ticks + ·))

/-- An edge of channel A leaves the level of B. -/
theorem Qd.afterEdge_lastB (q : Qd) {w : Wheel} {l : Bit} {e : Chan × Bit} (h : edgeOp w e = .qdEdgeA w l) :
    (q.afterEdge e).lastB = q.lastB := by
  obtain ⟨_ | _, _⟩ := e
  · rfl
  · cases h

/-- An edge of channel B leaves the level of A. -/
theorem Qd.afterEdge_lastA (q : Qd) {w : Wheel} {l : Bit} {e : Chan × Bit} (h : edgeOp w e = .qdEdgeB w l) :
    (q.afterEdge e).lastA = q.lastA := by
  obtain ⟨_ | _, _⟩ := e
  · cases h
  · rfl

theorem pseudocode_edgeOp (s : State) (w : Wheel) (e : Chan × Bit) :
    pseudocode s (edgeOp w e) =
      if s.cfg.outOfTickRange ((s.qd.get w).afterEdge e).ticks then .error .tickRange
      else .ok (s.setQd w ((s.qd.get w).afterEdge e)) := by
  obtain ⟨_ | _, _⟩ := e <;> rfl

/-- Everything an edge can do when it answers a next state: it counts and keeps its level, or raises `TICK_RANGE`. -/
theorem exec_edgeOp_next {s t : State} {w : Wheel} {e : Chan × Bit} (h : exec (edgeOp w e) s = .next t) :
    t = s.setQd w ((s.qd.get w).afterEdge e) ∨ t = s.raise .tickRange (encode (edgeOp w e)) := by
  obtain ⟨-, -, hok | ⟨c, herr, rfl⟩⟩ := exec_next h
  · rw [pseudocode_edgeOp] at hok
    split at hok
    · cases hok
    · cases hok
      exact .inl rfl
  · rw [pseudocode_edgeOp] at herr
    split at herr
    · cases herr
      exact .inr rfl
    · cases herr

section
variable {s : State} {w : Wheel} {q q' : Qd} {e : Chan × Bit} (h : s.Ready) (hq : s.qd.get w = q)
  (hq' : q.afterEdge e = q')
include h hq hq'

theorem exec_edgeOp_of_inRange (hlow : s.cfg.tickMin ≤ q'.ticks) (hhigh : q'.ticks ≤ s.cfg.tickMax) :
    exec (edgeOp w e) s = .next (s.setQd w q') := by
  refine exec_ok h.valid h.clear ?_
  have hrange := (outOfTickRange_eq_false_iff s.cfg _).mpr ⟨hlow, hhigh⟩
  rw [pseudocode_edgeOp, hq, hq', hrange]
  rfl

theorem exec_edgeOp_of_outOfRange (hout : q'.ticks < s.cfg.tickMin ∨ s.cfg.tickMax < q'.ticks) :
    exec (edgeOp w e) s = .next (s.raise .tickRange (encode (edgeOp w e))) := by
  refine exec_error h.valid h.clear ?_
  have hrange : s.cfg.outOfTickRange q'.ticks = true := by simpa [Config.outOfTickRange] using hout
  rw [pseudocode_edgeOp, hq, hq', hrange]
  rfl

/-- An edge of either channel, as R102 and R103 have it: its record, what it writes, and when it raises. -/
theorem edgeOp_counts_or_raises {op : Byte} (hop : encode (edgeOp w e) = [op]) :
    encode (edgeOp w e) = [op] ∧
    (s.cfg.tickMin ≤ q'.ticks ∧ q'.ticks ≤ s.cfg.tickMax → exec (edgeOp w e) s = .next (s.setQd w q')) ∧
    (q'.ticks < s.cfg.tickMin ∨ s.cfg.tickMax < q'.ticks →
      exec (edgeOp w e) s = .next (s.raise .tickRange [op])) :=
  ⟨hop, fun ⟨hlow, hhigh⟩ => exec_edgeOp_of_inRange h hq hq' hlow hhigh,
    fun hout => hop ▸ exec_edgeOp_of_outOfRange h hq hq' hout⟩

end

/-- Settles O19. -/
theorem edgeACountsOrRaises : Obligations.EdgeACountsOrRaises := by
  unfold Obligations.EdgeACountsOrRaises
  intro w a s h n op
  refine edgeOp_counts_or_raises (e := (.chanA, a))
    (q' := { ticks := n, lastA := a, lastB := (s.qd.get w).lastB }) h rfl ?_ ?_
  · rw [Qd.afterEdge, countA, qdelta_chanA]
  · cases w <;> cases a <;> rfl

/-- Settles O20. -/
theorem edgeBCountsOrRaises : Obligations.EdgeBCountsOrRaises := by
  unfold Obligations.EdgeBCountsOrRaises
  intro w b s h n op
  refine edgeOp_counts_or_raises (e := (.chanB, b))
    (q' := { ticks := n, lastA := (s.qd.get w).lastA, lastB := b }) h rfl ?_ ?_
  · rw [Qd.afterEdge, countB, qdelta_chanB]
  · cases w <;> cases b <;> rfl

/-- Settles O21: every entry of the transition table is 1 or -1. -/
theorem everyEdgeCountsOne : Obligations.EveryEdgeCountsOne := by
  unfold Obligations.EveryEdgeCountsOne
  intro i w l s t hi hexec hclear
  obtain ⟨e, rfl⟩ := exists_edgeOp hi
  obtain rfl | rfl := exec_edgeOp_next hexec
  · rw [State.setQd_qd, PerWheel.get_set_self]
    exact Qd.afterEdge_ticks _ e
  · cases hclear

/-- Settles O23. -/
theorem frameOfEdges : Obligations.FrameOfEdges := by
  unfold Obligations.FrameOfEdges
  intro i w l s t hi hexec
  obtain ⟨e, rfl⟩ := exists_edgeOp hi
  obtain rfl | rfl := exec_edgeOp_next hexec
  · refine ⟨rfl, rfl, rfl, rfl, rfl, rfl, rfl, rfl, rfl, fun w' hw => PerWheel.get_set_other _ hw _, ?_, ?_, .inl rfl⟩
    · rw [State.setQd_qd, PerWheel.get_set_self]
      exact Qd.afterEdge_lastB _
    · rw [State.setQd_qd, PerWheel.get_set_self]
      exact Qd.afterEdge_lastA _
  · exact ⟨rfl, rfl, rfl, rfl, rfl, rfl, rfl, rfl, rfl, fun _ _ => rfl, fun _ => rfl, fun _ => rfl, .inr ⟨rfl, rfl⟩⟩

/-! ## Sequences of edges (R81, R105, R106) -/

theorem PerWheel.set_set {α : Type} (p : PerWheel α) (w : Wheel) (x y : α) : (p.set w x).set w y = p.set w y := by
  cases w <;> rfl

theorem State.setQd_setQd (s : State) (w : Wheel) (x y : Qd) : (s.setQd w x).setQd w y = s.setQd w y :=
  congrArg (fun p => { s with qd := p }) (PerWheel.set_set s.qd w x y)

theorem State.setQd_get_self (s : State) (w : Wheel) : s.setQd w (s.qd.get w) = s :=
  congrArg (fun p => { s with qd := p }) (PerWheel.set_get_self s.qd w)

theorem State.Ready.setQd {s : State} (h : s.Ready) (w : Wheel) (x : Qd) : (s.setQd w x).Ready := ⟨h.valid, h.clear⟩

/-- Whether the count stays in the tick counter's range at every one of some edges. -/
def Qd.HasRoom (c : Config) : Qd → List (Chan × Bit) → Prop
  | _, [] => True
  | q, e :: es =>
    (c.tickMin ≤ (q.afterEdge e).ticks ∧ (q.afterEdge e).ticks ≤ c.tickMax) ∧ (q.afterEdge e).HasRoom c es

/-- With room for the count, edges in a row write what they write one after the other. -/
theorem performAll_edgeOps {w : Wheel} {q : Qd} {s : State} (h : s.Ready) (hq : s.qd.get w = q)
    (edges : List (Chan × Bit)) (hroom : q.HasRoom s.cfg edges) :
    performAll (edges.map (edgeOp w)) s = .next (s.setQd w (edges.foldl Qd.afterEdge q)) := by
  induction edges generalizing q s with
  | nil =>
    rw [List.foldl_nil, ← hq, State.setQd_get_self]
    rfl
  | cons e es ih =>
    obtain ⟨⟨hlow, hhigh⟩, hrest⟩ := hroom
    have hself : (s.setQd w (q.afterEdge e)).qd.get w = q.afterEdge e := PerWheel.get_set_self _ _ _
    rw [List.map_cons, performAll, exec_edgeOp_of_inRange h hq rfl hlow hhigh]
    exact (ih (h.setQd w _) hself hrest).trans (congrArg _ (State.setQd_setQd s w _ _))

theorem Qd.eq_of_levels {q : Qd} {a b : Bit} (ha : q.lastA = a) (hb : q.lastB = b) : q = ⟨q.ticks, a, b⟩ := by
  subst ha hb
  rfl

/-- Settles O22: the edges of R105 and R106 computed on a decoder's levels, one or several in a row. -/
theorem fullCycleCountsFour : Obligations.FullCycleCountsFour := by
  unfold Obligations.FullCycleCountsFour
  intro w s h
  refine ⟨fun i a b a' b' hi ha hb hlow hhigh => ?_, fun i a b a' b' hi ha hb hlow hhigh => ?_, fun ha hb => ?_⟩
  · have hq : s.qd.get w = ⟨(s.qd.get w).ticks, a, b⟩ := Qd.eq_of_levels ha hb
    have hlow' : s.cfg.tickMin ≤ (s.qd.get w).ticks + 1 := by omega
    simp only [List.mem_cons, Prod.mk.injEq, List.not_mem_nil, or_false] at hi
    obtain ⟨rfl, rfl, rfl, rfl, rfl⟩ | ⟨rfl, rfl, rfl, rfl, rfl⟩ | ⟨rfl, rfl, rfl, rfl, rfl⟩ |
      ⟨rfl, rfl, rfl, rfl, rfl⟩ := hi
    · exact exec_edgeOp_of_inRange (e := (.chanA, true)) h hq rfl hlow' hhigh
    · exact exec_edgeOp_of_inRange (e := (.chanB, true)) h hq rfl hlow' hhigh
    · exact exec_edgeOp_of_inRange (e := (.chanA, false)) h hq rfl hlow' hhigh
    · exact exec_edgeOp_of_inRange (e := (.chanB, false)) h hq rfl hlow' hhigh
  · have hq : s.qd.get w = ⟨(s.qd.get w).ticks, a, b⟩ := Qd.eq_of_levels ha hb
    have hhigh' : (s.qd.get w).ticks - 1 ≤ s.cfg.tickMax := by omega
    simp only [List.mem_cons, Prod.mk.injEq, List.not_mem_nil, or_false] at hi
    obtain ⟨rfl, rfl, rfl, rfl, rfl⟩ | ⟨rfl, rfl, rfl, rfl, rfl⟩ | ⟨rfl, rfl, rfl, rfl, rfl⟩ |
      ⟨rfl, rfl, rfl, rfl, rfl⟩ := hi
    · exact exec_edgeOp_of_inRange (e := (.chanB, true)) h hq rfl hlow hhigh'
    · exact exec_edgeOp_of_inRange (e := (.chanA, true)) h hq rfl hlow hhigh'
    · exact exec_edgeOp_of_inRange (e := (.chanB, false)) h hq rfl hlow hhigh'
    · exact exec_edgeOp_of_inRange (e := (.chanA, false)) h hq rfl hlow hhigh'
  · have hrun {q' : Qd} (edges : List (Chan × Bit))
        (hroom : (⟨(s.qd.get w).ticks, false, false⟩ : Qd).HasRoom s.cfg edges)
        (hq' : edges.foldl Qd.afterEdge ⟨(s.qd.get w).ticks, false, false⟩ = q') :
        performAll (edges.map (edgeOp w)) s = .next (s.setQd w q') :=
      hq' ▸ performAll_edgeOps h (Qd.eq_of_levels ha hb) edges hroom
    refine ⟨fun hlow hhigh => hrun [(.chanA, true), (.chanB, true), (.chanA, false), (.chanB, false)] ?_ ?_,
      fun hlow hhigh => hrun [(.chanB, true), (.chanA, true), (.chanB, false), (.chanA, false)] ?_ ?_,
      fun hlow hhigh => ⟨hrun [(.chanA, true), (.chanB, true)] ?_ ?_, hrun [(.chanB, true), (.chanA, true)] ?_ ?_⟩⟩
    -- each count on the way and the last one, from the table
    all_goals
      simp only [Qd.HasRoom, List.foldl, Qd.afterEdge, countA, countB, qdelta, Qd.mk.injEq, and_true]
      omega

end Sys2Proof.Machine

namespace Sys2Proof

/-! ## Units and quotients (R10, R123) -/

/-- A factor of 1 rounds the other factor, and changes nothing else. -/
theorem Number.one_mul (f : NumFormat) (x : Number) : Number.mul f .one x = Number.convert f x := by
  cases x <;> simp [Number.mul, Number.one, Number.convert]

/-- A finite number that is not zero, divided by itself, is exactly 1. -/
theorem Number.div_self (f : NumFormat) {x : Number} (hfin : x.isFinite = true) (h0 : x.toRat ≠ 0) :
    Number.div f x x = .one := by
  obtain ⟨a, m, e, rfl⟩ := Number.exists_of_isFinite hfin
  have hm : m ≠ 0 := by rintro rfl; simp [Number.toRat] at h0
  simp only [Number.div, if_neg hm, sub_self, Int.toNat_zero, pow_zero, mul_one, Bool.xor_self]
  exact Number.round_self false hm hm rfl (Number.inFormat_one f) (by simp [hm, signRat])

/-- A quotient by a zero is an infinity or a NaN. -/
theorem Number.toRat_ne_zero_of_div (f : NumFormat) {x y : Number} (hy : y.isFinite = true)
    (h : (Number.div f x y).isFinite = true) : y.toRat ≠ 0 := by
  obtain ⟨b, n, g, rfl⟩ := Number.exists_of_isFinite hy
  obtain ⟨a, m, e, rfl⟩ := Number.exists_of_isFinite (Number.isFinite_of_div f h)
  have hn : n ≠ 0 := by
    rintro rfl
    by_cases hm : m = 0 <;> simp [Number.div, Number.isFinite, hm] at h
  cases b <;> simp [Number.toRat, hn, two_zpow_ne]

/-- Only a finite number equals a finite number. -/
theorem Number.isFinite_of_eq {x y : Number} (hy : y.isFinite = true) (h : x.eq y = true) : x.isFinite = true := by
  obtain ⟨b, n, g, rfl⟩ := Number.exists_of_isFinite hy
  cases x with
  | fin a m e => rfl
  | inf a => cases h
  | nan => cases h

@[simp] theorem Number.inFormat_twoPi (f : NumFormat) : (Number.twoPi f).inFormat f = true :=
  Number.inFormat_round f false (by positivity)

end Sys2Proof

namespace Sys2Proof.Machine

/-! ## Rounding keeps the order to the format's own numbers (R10, R124) -/

section
variable {f : NumFormat} {x : ℚ} {r v : Number}

theorem CorrectlyRounded.ge_of_inFormat (h : CorrectlyRounded f x r) (hr : r.isFinite = true)
    (hv : v.isFinite = true) (hvf : v.inFormat f = true) (hle : v.toRat ≤ x) : v.toRat ≤ r.toRat := by
  have hnear := h.nearest hr v hv hvf
  rw [abs_of_nonpos (sub_nonpos.mpr hle)] at hnear
  linarith [neg_abs_le (r.toRat - x)]

theorem CorrectlyRounded.le_of_inFormat (h : CorrectlyRounded f x r) (hr : r.isFinite = true)
    (hv : v.isFinite = true) (hvf : v.inFormat f = true) (hle : x ≤ v.toRat) : r.toRat ≤ v.toRat := by
  have hnear := h.nearest hr v hv hvf
  rw [abs_of_nonneg (sub_nonneg.mpr hle)] at hnear
  linarith [le_abs_self (r.toRat - x)]

theorem CorrectlyRounded.nonneg (h : CorrectlyRounded f x r) (hr : r.isFinite = true) (hx : 0 ≤ x) :
    0 ≤ r.toRat := by
  simpa using h.ge_of_inFormat hr Number.isFinite_zero (Number.inFormat_zero f) (by simpa using hx)

end

section
variable {f : NumFormat} {x y : Number}

theorem toRat_mul_nonneg (h : (Number.mul f x y).isFinite = true) (hx : 0 ≤ x.toRat) (hy : 0 ≤ y.toRat) :
    0 ≤ (Number.mul f x y).toRat :=
  have ⟨hxf, hyf⟩ := Number.isFinite_of_mul f h
  (correctlyRounded_mul f hxf hyf).nonneg h (mul_nonneg hx hy)

theorem toRat_div_nonneg (h : (Number.div f x y).isFinite = true) (hyf : y.isFinite = true) (hx : 0 ≤ x.toRat)
    (hy : 0 ≤ y.toRat) : 0 ≤ (Number.div f x y).toRat :=
  (correctlyRounded_div f (Number.isFinite_of_div f h) hyf (Number.toRat_ne_zero_of_div f hyf h)).nonneg h
    (div_nonneg hx hy)

/-- A nonzero integer does not round to zero: its size is at least 1, which every format has. -/
theorem toRat_ofInt_ne_zero {i : ℤ} (hi : i ≠ 0) (h : (Number.ofInt f i).isFinite = true) :
    (Number.ofInt f i).toRat ≠ 0 := by
  have hround := correctlyRounded_ofInt f i
  rcases lt_or_gt_of_ne hi with hneg | hpos
  · have hle : (i : ℚ) ≤ Number.negOne.toRat := by rw [Number.toRat_negOne]; exact_mod_cast Int.le_sub_one_of_lt hneg
    have hbelow := hround.le_of_inFormat h Number.isFinite_negOne (Number.inFormat_negOne f) hle
    rw [Number.toRat_negOne] at hbelow
    linarith
  · have hle : Number.one.toRat ≤ (i : ℚ) := by rw [Number.toRat_one]; exact_mod_cast hpos
    have habove := hround.ge_of_inFormat h Number.isFinite_one (Number.inFormat_one f) hle
    rw [Number.toRat_one] at habove
    linarith

end

/-! ## The velocity estimator's tick (41_velocity_estimator.md) -/

theorem estimateAllFinite_iff (c : Config) (delta : Int) :
    estimateAllFinite c delta = true ↔
      (ticksPerRevolution c).isFinite = true ∧ (angularVelocity c delta).isFinite = true ∧
        (linearVelocity c (angularVelocity c delta)).isFinite = true := by
  rw [estimateAllFinite, Bool.and_eq_true, Bool.and_eq_true, and_assoc]

/-- What a VE.TICK that raises nothing writes to its wheel's estimator (R121). -/
def State.estimated (s : State) (w : Wheel) : Ve :=
  { prev := (s.qd.get w).ticks, ang := angularVelocity s.cfg (tickDelta s w),
    lin := linearVelocity s.cfg (angularVelocity s.cfg (tickDelta s w)) }

theorem exec_veTick_of_finite {s : State} (h : s.Ready) {w : Wheel}
    (hfin : estimateAllFinite s.cfg (tickDelta s w) = true) :
    exec (.veTick w) s = .next (s.setVe w (s.estimated w)) :=
  exec_ok h.valid h.clear (if_pos hfin)

theorem exec_veTick_of_not_finite {s : State} (h : s.Ready) {w : Wheel}
    (hfin : ¬ estimateAllFinite s.cfg (tickDelta s w) = true) :
    exec (.veTick w) s = .next (s.raise .nonFinite (encode (.veTick w))) :=
  exec_error h.valid h.clear (if_neg hfin)

/-- Everything a VE.TICK can do when it answers a next state: keep a finite estimate, or raise `NON_FINITE`. -/
theorem exec_veTick_next {s t : State} {w : Wheel} (h : exec (.veTick w) s = .next t) :
    (estimateAllFinite s.cfg (tickDelta s w) = true ∧ t = s.setVe w (s.estimated w)) ∨
      t = s.raise .nonFinite (encode (.veTick w)) := by
  obtain ⟨-, -, hok | ⟨c, herr, rfl⟩⟩ := exec_next h
  · obtain ⟨hrev, hang, hlin, rfl⟩ := estimate_ok hok
    exact .inl ⟨(estimateAllFinite_iff _ _).mpr ⟨hrev, hang, hlin⟩, rfl⟩
  · obtain ⟨-, rfl⟩ := estimate_error herr
    exact .inr rfl

/-- Settles O24: a value that is not finite makes every later one not finite but for an infinite `CPR × GEAR_RATIO`,
which the check names. -/
theorem estimatorTick : Obligations.EstimatorTick := by
  unfold Obligations.EstimatorTick
  intro w s h n delta x revolution quotient ang lin op
  have hop : encode (.veTick w) = [op] := by cases w <;> rfl
  refine ⟨hop, fun hfin => exec_veTick_of_finite h ((estimateAllFinite_iff _ _).mpr hfin), fun hbad => ?_⟩
  refine hop ▸ exec_veTick_of_not_finite h fun hfin => ?_
  obtain ⟨hx, hquotient, hproduct⟩ := estimateAllFinite_intermediates hfin
  obtain ⟨hrevolution, hang, hlin⟩ := (estimateAllFinite_iff _ _).mp hfin
  rcases hbad with hb | hb | hb | hb | hb | hb <;> exact Bool.eq_false_iff.mp hb (by assumption)

/-- Settles O29. -/
theorem frameOfEstimator : Obligations.FrameOfEstimator := by
  unfold Obligations.FrameOfEstimator
  intro w s t h
  obtain ⟨-, rfl⟩ | rfl := exec_veTick_next h
  · exact ⟨rfl, rfl, rfl, rfl, rfl, rfl, rfl, rfl, rfl, fun w' hw => PerWheel.get_set_other _ hw _, .inl rfl⟩
  · exact ⟨rfl, rfl, rfl, rfl, rfl, rfl, rfl, rfl, rfl, fun _ _ => rfl, .inr ⟨rfl, rfl⟩⟩

/-! ## The delta's range (R125) -/

theorem tickMax_sub_tickMin {c : Config} (h : 1 ≤ c.tickBits) : c.tickMax - c.tickMin = 2 ^ c.tickBits - 1 := by
  have hdouble : (2 : ℤ) ^ c.tickBits = 2 * 2 ^ (c.tickBits - 1) := (mul_pow_sub_one (by omega) 2).symm
  rw [Config.tickMax, Config.tickMin, hdouble]
  push_cast
  ring

/-- Settles O28: the counter and its snapshot lie in one interval of that length. -/
theorem tickDeltaIsBounded : Obligations.TickDeltaIsBounded := by
  unfold Obligations.TickDeltaIsBounded
  intro w s hrange hbits
  obtain ⟨hticksLow, hticksHigh⟩ := hrange.ticks w
  obtain ⟨hprevLow, hprevHigh⟩ := hrange.prev w
  rw [← tickMax_sub_tickMin hbits]
  exact abs_sub_le_of_le_of_le hticksLow hticksHigh hprevLow hprevHigh

/-! ## A delta of 0 and a delta of one revolution (R122, R123) -/

/-- Settles O25: with the delta 0 every operator of the formula answers `+0.0`. -/
theorem estimatorZeroDelta : Obligations.EstimatorZeroDelta := by
  unfold Obligations.EstimatorZeroDelta
  intro w s h hticks hpos hfin
  have hdelta : tickDelta s w = 0 := sub_eq_zero.mpr hticks
  have hang : angularVelocity s.cfg (tickDelta s w) = .zero := hdelta ▸ angularVelocity_zero h.valid hpos hfin
  have hlin := linearVelocity_zero h.valid
  have hcheck : estimateAllFinite s.cfg (tickDelta s w) = true := by
    rw [estimateAllFinite_iff, hang, hlin]
    exact ⟨hfin, rfl, rfl⟩
  rw [exec_veTick_of_finite h hcheck, State.estimated, hang, hlin]
  rfl

/-- One revolution divided by itself is 1, and 1 times `TWO_PI` is `TWO_PI`. -/
theorem angularVelocity_revolution {c : Config} {delta : Int} (hdelta : delta ≠ 0)
    (hfin : (ticksPerRevolution c).isFinite = true)
    (heq : (Number.ofInt c.num delta).eq (ticksPerRevolution c) = true) :
    angularVelocity c delta = .div c.num (.twoPi c.num) c.period := by
  have hx : (Number.ofInt c.num delta).isFinite = true := Number.isFinite_of_eq hfin heq
  have h0 := toRat_ofInt_ne_zero hdelta hx
  have hvalue := (Number.eq_iff hx hfin).mp heq
  have hsame : Number.ofInt c.num delta = ticksPerRevolution c :=
    Number.eq_of_toRat_eq hx hfin (Number.inFormat_ofInt _ _) (Number.inFormat_mul _ _ _) hvalue (hvalue ▸ h0)
  rw [angularVelocity, ← hsame, Number.div_self _ hx h0, Number.one_mul, Number.convert_self (Number.inFormat_twoPi _)]

/-- Settles O26. -/
theorem estimatorOneRevolution : Obligations.EstimatorOneRevolution := by
  unfold Obligations.EstimatorOneRevolution
  intro w s h n delta revolution ang hdelta hrevolution heq hang hlin
  have hvelocity : angularVelocity s.cfg (tickDelta s w) = ang := angularVelocity_revolution hdelta hrevolution heq
  have hcheck : estimateAllFinite s.cfg (tickDelta s w) = true := by
    rw [estimateAllFinite_iff, hvelocity]
    exact ⟨hrevolution, hang, hlin⟩
  rw [exec_veTick_of_finite h hcheck, State.estimated, hvelocity]
  rfl

/-! ## The estimator is odd (R124) -/

section
variable {c : Config} {delta : Int} (hcheck : estimateAllFinite c delta = true)
include hcheck

theorem angularVelocity_neg (hdelta : delta ≠ 0) : angularVelocity c (-delta) = (angularVelocity c delta).neg := by
  obtain ⟨hx, hquotient, hproduct⟩ := estimateAllFinite_intermediates hcheck
  rw [angularVelocity, Number.ofInt_neg _ _ hdelta, Number.div_neg _ _ _ hx,
    Number.mul_neg _ _ _ hquotient (Number.twoPi_pos _).1, Number.div_neg _ _ _ hproduct, angularVelocity]

theorem linearVelocity_neg :
    linearVelocity c (angularVelocity c delta).neg = (linearVelocity c (angularVelocity c delta)).neg := by
  obtain ⟨-, -, hlin⟩ := (estimateAllFinite_iff _ _).mp hcheck
  obtain ⟨hang, hradius⟩ := Number.isFinite_of_mul _ hlin
  exact Number.mul_neg _ _ _ hang hradius

theorem estimateAllFinite_neg (hdelta : delta ≠ 0) : estimateAllFinite c (-delta) = true := by
  have hfin := (estimateAllFinite_iff _ _).mp hcheck
  rw [estimateAllFinite_iff, angularVelocity_neg hcheck hdelta, linearVelocity_neg hcheck]
  simpa using hfin

/-- Nonnegative operands all along the formula: the rounding of each result stays at or above zero. -/
theorem velocities_nonneg (hv : c.valid = true) (hdelta : 0 ≤ delta) :
    0 ≤ (angularVelocity c delta).toRat ∧ 0 ≤ (linearVelocity c (angularVelocity c delta)).toRat := by
  obtain ⟨hx, hquotient, hproduct⟩ := estimateAllFinite_intermediates hcheck
  obtain ⟨hrevolution, hang, hlin⟩ := (estimateAllFinite_iff _ _).mp hcheck
  obtain ⟨hpositive, -⟩ := constraints_of_valid hv
  obtain ⟨-, hcpr⟩ := hpositive c.cpr (by simp)
  obtain ⟨-, hgear⟩ := hpositive c.gearRatio (by simp)
  obtain ⟨hperiodFinite, hperiod⟩ := hpositive c.period (by simp)
  obtain ⟨-, hradius⟩ := hpositive c.wheelRadius (by simp)
  obtain ⟨htwoPiFinite, htwoPi⟩ := Number.twoPi_pos c.num
  rw [Number.lt_iff rfl htwoPiFinite, Number.toRat_zero] at htwoPi
  have hx0 := (correctlyRounded_ofInt c.num delta).nonneg hx (by exact_mod_cast hdelta)
  have hrevolution0 := toRat_mul_nonneg hrevolution hcpr.le hgear.le
  have hquotient0 := toRat_div_nonneg hquotient hrevolution hx0 hrevolution0
  have hproduct0 := toRat_mul_nonneg hproduct hquotient0 htwoPi.le
  have hang0 := toRat_div_nonneg hang hperiodFinite hproduct0 hperiod.le
  exact ⟨hang0, toRat_mul_nonneg hlin hang0 hradius.le⟩

end

/-- Settles O27: rounding commutes with negation in every operator of the formula, so the check passes for both deltas
or for neither. -/
theorem estimatorIsOdd : Obligations.EstimatorIsOdd := by
  unfold Obligations.EstimatorIsOdd
  intro w s s' t hready hcfg hopposite hdelta hexec hclear
  obtain ⟨hcheck, rfl⟩ | rfl := exec_veTick_next hexec
  · have hneg : tickDelta s' w = -tickDelta s w := hopposite
    have hcheck' : estimateAllFinite s'.cfg (tickDelta s' w) = true := by
      rw [hcfg, hneg]
      exact estimateAllFinite_neg hcheck hdelta
    refine ⟨⟨_, exec_veTick_of_finite hready hcheck', hready.clear, ?_⟩, fun hpos => ?_⟩
    · simp only [State.setVe_ve, PerWheel.get_set_self, State.estimated, hcfg, hneg,
        angularVelocity_neg hcheck hdelta, linearVelocity_neg hcheck, and_self]
    · obtain ⟨-, hang, hlin⟩ := (estimateAllFinite_iff _ _).mp hcheck
      rw [State.setVe_ve, PerWheel.get_set_self]
      have hsign := velocities_nonneg hcheck (hcfg ▸ hready.valid) hpos.le
      rwa [State.estimated, Number.le_iff rfl hang, Number.le_iff rfl hlin, Number.toRat_zero]
  · cases hclear

end Sys2Proof.Machine

namespace Sys2Proof.Machine

/-! ## What PID.SET and PID.TICK write (42_pid_velocity_regulator.md) -/

/-- A regulator given a finite target (R141): a different one clears integral and cycles, an equal one changes
nothing. -/
def Pid.retarget (x : Pid) (t : Number) : Pid :=
  if t.eq x.target then x else { x with target := t, integral := .zero, cycles := 0 }

theorem Pid.retarget_of_eq {x : Pid} {t : Number} (h : t.eq x.target = true) : x.retarget t = x := if_pos h

theorem Pid.retarget_of_ne {x : Pid} {t : Number} (h : t.eq x.target = false) :
    x.retarget t = { x with target := t, integral := .zero, cycles := 0 } := if_neg (Bool.eq_false_iff.mp h)

@[simp] theorem Pid.retarget_duty (x : Pid) (t : Number) : (x.retarget t).duty = x.duty := by
  unfold retarget
  split <;> rfl

@[simp] theorem Pid.retarget_prevErr (x : Pid) (t : Number) : (x.retarget t).prevErr = x.prevErr := by
  unfold retarget
  split <;> rfl

theorem State.setPid_get_self (s : State) (w : Wheel) : s.setPid w (s.pid.get w) = s :=
  congrArg (fun p => { s with pid := p }) (PerWheel.set_get_self s.pid w)

theorem setTarget_ok_eq {w : Wheel} {x : Number} {s t : State} (h : setTarget w x s = .ok t) :
    t = s.setPid w ((s.pid.get w).retarget x) := by
  obtain ⟨-, ⟨hne, rfl⟩ | ⟨heq, rfl⟩⟩ := setTarget_ok h
  · rw [Pid.retarget_of_ne hne]
  · rw [Pid.retarget_of_eq heq, State.setPid_get_self]

theorem setTarget_of_finite {w : Wheel} {x : Number} (s : State) (hx : x.isFinite = true) :
    setTarget w x s = .ok (s.setPid w ((s.pid.get w).retarget x)) := by
  cases hset : setTarget w x s with
  | ok t => rw [setTarget_ok_eq hset]
  | error c => exact absurd hx (Bool.eq_false_iff.mp (setTarget_error hset).1)

theorem setTarget_of_not_finite {w : Wheel} {x : Number} (s : State) (hx : x.isFinite = false) :
    setTarget w x s = .error .nonFinite := by
  cases hset : setTarget w x s with
  | ok t => exact absurd (setTarget_ok hset).1 (Bool.eq_false_iff.mp hx)
  | error c => rw [(setTarget_error hset).2]

/-- What a REGULATING cycle that raises nothing writes to its wheel's regulator (R145). -/
def State.cyclePid (s : State) (w : Wheel) : Pid :=
  { s.pid.get w with
    prevErr := pidError s w, integral := pidIntegral s w, duty := saturate (pidRawDuty s w),
    cycles := (s.pid.get w).cycles + 1 }

@[simp] theorem State.cyclePid_target (s : State) (w : Wheel) : (s.cyclePid w).target = (s.pid.get w).target := rfl

@[simp] theorem State.cyclePid_cycles (s : State) (w : Wheel) : (s.cyclePid w).cycles = (s.pid.get w).cycles + 1 := rfl

/-- An Actuator after the drive of R145 with a value in `[-1, 1]`. -/
def Act.drive (x : Act) (u : Number) : Act :=
  if Number.zero.lt u then { dirF := true, dirB := false, pwm := u }
  else if u.lt .zero then { dirF := false, dirB := true, pwm := u.neg }
  else { x with pwm := .zero }

theorem driveActuator_ok_eq {w : Wheel} {u : Number} {s t : State} (h : driveActuator w u s = .ok t) :
    t = s.setAct w ((s.act.get w).drive u) := by
  unfold Act.drive
  obtain ⟨hpos, hfwd⟩ | ⟨hpos, hneg, hbwd⟩ | ⟨hpos, hneg, rfl⟩ := driveActuator_ok h
  · rw [hpos]
    exact (actForward_ok hfwd).2
  · rw [hpos, hneg]
    exact (actBackward_ok hbwd).2
  · rw [hpos, hneg]
    rfl

theorem regulate_ok_eq {w : Wheel} {s t : State} (h : regulate w s = .ok t) :
    t = (s.setPid w (s.cyclePid w)).setAct w ((s.act.get w).drive (saturate (pidRawDuty s w))) :=
  driveActuator_ok_eq (regulate_ok h).2

theorem stopped_iff (s : State) (w : Wheel) :
    s.stopped w = true ↔ (s.pid.get w).target.eq .zero = true ∨ s.cfg.regVelFreq < (s.pid.get w).cycles := by
  rw [State.stopped, Bool.or_eq_true, decide_eq_true_iff]

theorem stopped_eq_false_iff (s : State) (w : Wheel) :
    s.stopped w = false ↔ (s.pid.get w).target.eq .zero = false ∧ (s.pid.get w).cycles ≤ s.cfg.regVelFreq := by
  rw [← Bool.not_eq_true, stopped_iff, not_or, not_lt, Bool.not_eq_true]

theorem pidCycle_of_running {s : State} {w : Wheel} (h : s.stopped w = false) : pidCycle w s = regulate w s :=
  if_neg (Bool.eq_false_iff.mp h)

theorem exec_pidTick_of_stopped {s : State} (h : s.Ready) {w : Wheel} (hstop : s.stopped w = true) :
    exec (.pidTick w) s = .next (actStop w s) :=
  exec_ok h.valid h.clear (if_pos hstop)

section
variable {s : State} (h : s.Ready) {w : Wheel} (hrun : s.stopped w = false)
include h hrun

/-- A saturated duty meets the Actuator's contract, so the drive never raises (R231). -/
theorem exec_pidTick_of_finite (hfin : pidAllFinite s w = true) :
    exec (.pidTick w) s = .next
      ((s.setPid w (s.cyclePid w)).setAct w ((s.act.get w).drive (saturate (pidRawDuty s w)))) := by
  refine exec_ok h.valid h.clear ((pidCycle_of_running hrun).trans ?_)
  cases hreg : regulate w s with
  | ok t => rw [regulate_ok_eq hreg]
  | error c => exact absurd hfin (Bool.eq_false_iff.mp (regulate_error hreg).1)

theorem exec_pidTick_of_not_finite (hfin : ¬ pidAllFinite s w = true) :
    exec (.pidTick w) s = .next (s.raise .nonFinite (encode (.pidTick w))) :=
  exec_error h.valid h.clear ((pidCycle_of_running hrun).trans (if_neg hfin))

end

/-- Everything a PID.SET can do when it answers a next state. -/
theorem exec_pidSet_next {s t : State} {w : Wheel} {p : Pattern} (h : exec (.pidSet w p) s = .next t) :
    t = s.setPid w ((s.pid.get w).retarget (s.numOperand p)) ∨ t = s.raise .nonFinite (encode (.pidSet w p)) := by
  obtain ⟨-, -, hok | ⟨c, herr, rfl⟩⟩ := exec_next h
  · exact .inl (setTarget_ok_eq hok)
  · obtain ⟨-, rfl⟩ := setTarget_error herr
    exact .inr rfl

/-- Everything a PID.TICK can do when it answers a next state: stop, regulate, or raise `NON_FINITE`. -/
theorem exec_pidTick_next {s t : State} {w : Wheel} (h : exec (.pidTick w) s = .next t) :
    t = actStop w s ∨
      t = (s.setPid w (s.cyclePid w)).setAct w ((s.act.get w).drive (saturate (pidRawDuty s w))) ∨
      t = s.raise .nonFinite (encode (.pidTick w)) := by
  obtain ⟨-, -, hok | ⟨c, herr, rfl⟩⟩ := exec_next h
  · obtain ⟨-, rfl⟩ | ⟨-, hreg⟩ := pidCycle_ok hok
    · exact .inl rfl
    · exact .inr (.inl (regulate_ok_eq hreg))
  · obtain ⟨-, -, rfl⟩ := pidCycle_error herr
    exact .inr (.inr rfl)

/-- Settles O32: the check names every intermediate, and what passes it saturates into the drive's range. -/
theorem regulatingTick : Obligations.RegulatingTick := by
  unfold Obligations.RegulatingTick
  intro w s h htarget hcycles n p m e I der inc raw u op
  have hop : encode (.pidTick w) = [op] := by cases w <;> rfl
  have hrun : s.stopped w = false := (stopped_eq_false_iff s w).mpr ⟨htarget, hcycles⟩
  have hcheck : pidAllFinite s w = true ↔ e.isFinite = true ∧ I.isFinite = true ∧ der.isFinite = true ∧
      inc.isFinite = true ∧ raw.isFinite = true := by
    simp only [pidAllFinite, Bool.and_eq_true, and_assoc]
    rfl
  exact ⟨fun hfin => exec_pidTick_of_finite h hrun (hcheck.mpr hfin),
    fun hbad => hop ▸ exec_pidTick_of_not_finite h hrun (mt hcheck.mp hbad)⟩

/-- Settles O36. -/
theorem frameOfRegulator : Obligations.FrameOfRegulator := by
  unfold Obligations.FrameOfRegulator
  intro i w s t hi h
  obtain ⟨p, rfl⟩ | rfl := hi
  · obtain rfl | rfl := exec_pidSet_next h
    · exact ⟨rfl, rfl, rfl, rfl, rfl, rfl, rfl, rfl, fun w' hw => ⟨PerWheel.get_set_other _ hw _, rfl⟩,
        fun _ => ⟨rfl, by simp, by simp⟩, nofun, .inl rfl⟩
    · exact ⟨rfl, rfl, rfl, rfl, rfl, rfl, rfl, rfl, fun _ _ => ⟨rfl, rfl⟩, fun _ => ⟨rfl, rfl, rfl⟩, nofun,
        .inr ⟨rfl, rfl, rfl⟩⟩
  · obtain rfl | rfl | rfl := exec_pidTick_next h
    · exact ⟨rfl, rfl, rfl, rfl, rfl, rfl, rfl, rfl, fun w' hw => ⟨rfl, PerWheel.get_set_other _ hw _⟩, nofun,
        fun _ => rfl, .inl rfl⟩
    · exact ⟨rfl, rfl, rfl, rfl, rfl, rfl, rfl, rfl,
        fun w' hw => ⟨PerWheel.get_set_other _ hw _, PerWheel.get_set_other _ hw _⟩, nofun,
        fun _ => by simp, .inl rfl⟩
    · exact ⟨rfl, rfl, rfl, rfl, rfl, rfl, rfl, rfl, fun _ _ => ⟨rfl, rfl⟩, nofun, fun _ => rfl,
        .inr ⟨rfl, rfl, rfl⟩⟩

/-- Settles O30. -/
theorem pidSetWritesTarget : Obligations.PidSetWritesTarget := by
  unfold Obligations.PidSetWritesTarget
  intro w p s h t op
  have hop : encode (.pidSet w p) = op :: patternBytes p := by cases w <;> rfl
  have hset (hfin : t.isFinite = true) : exec (.pidSet w p) s = .next (s.setPid w ((s.pid.get w).retarget t)) :=
    exec_ok h.valid h.clear (setTarget_of_finite s hfin)
  refine ⟨hop, fun hfin hne => ?_, fun hfin heq => ?_, fun hfin => ?_⟩
  · rw [hset hfin, Pid.retarget_of_ne hne]
    rfl
  · rw [hset hfin, Pid.retarget_of_eq heq, State.setPid_get_self]
  · exact hop ▸ exec_error h.valid h.clear (setTarget_of_not_finite s hfin)

/-- Settles O31. -/
theorem stoppedTickOnlyStops : Obligations.StoppedTickOnlyStops := by
  unfold Obligations.StoppedTickOnlyStops
  exact fun w s h hstop => exec_pidTick_of_stopped h ((stopped_iff s w).mpr hstop)

/-! ## What any operation does to a regulator -/

/-- Everything an operation that raises nothing can do to a wheel's regulator: give it a target (R141, R171), count a
REGULATING cycle (R145), or leave it. -/
theorem pid_of_pseudocode {i : Instr} {s t : State} (h : pseudocode s i = .ok t) (w : Wheel) :
    (∃ x, s.givenTarget w i = some x ∧ t.pid.get w = (s.pid.get w).retarget x) ∨
    (i = .pidTick w ∧ s.stopped w = false ∧ t.pid.get w = s.cyclePid w) ∨
    ((i = .pidTick w → s.stopped w = true) ∧ t.pid.get w = s.pid.get w) := by
  cases i with
  | pidSet w' p =>
    rw [setTarget_ok_eq h]
    by_cases hw : w = w'
    · subst hw
      exact .inl ⟨_, if_pos rfl, PerWheel.get_set_self _ _ _⟩
    · exact .inr (.inr ⟨nofun, PerWheel.get_set_other _ hw _⟩)
  | kinSet v om =>
    obtain ⟨-, -, -, -, u, hleft, hright⟩ := setVelocities_ok h
    rw [setTarget_ok_eq hright, setTarget_ok_eq hleft]
    cases w <;> exact .inl ⟨_, rfl, rfl⟩
  | pidTick w' =>
    by_cases hw : w = w'
    · subst hw
      obtain ⟨hstop, rfl⟩ | ⟨hrun, hreg⟩ := pidCycle_ok h
      · exact .inr (.inr ⟨fun _ => hstop, rfl⟩)
      · rw [regulate_ok_eq hreg]
        exact .inr (.inl ⟨rfl, hrun, PerWheel.get_set_self _ _ _⟩)
    · refine .inr (.inr ⟨fun heq => absurd (Instr.pidTick.inj heq).symm hw, ?_⟩)
      obtain ⟨-, rfl⟩ | ⟨-, hreg⟩ := pidCycle_ok h
      · rfl
      · rw [regulate_ok_eq hreg]
        exact PerWheel.get_set_other _ hw _
  | qdEdgeA _ _ => obtain ⟨-, rfl⟩ := edgeA_ok h; exact .inr (.inr ⟨nofun, rfl⟩)
  | qdEdgeB _ _ => obtain ⟨-, rfl⟩ := edgeB_ok h; exact .inr (.inr ⟨nofun, rfl⟩)
  | veTick _ => obtain ⟨-, -, -, rfl⟩ := estimate_ok h; exact .inr (.inr ⟨nofun, rfl⟩)
  | kinGet => obtain ⟨-, -, rfl⟩ := getVelocities_ok h; exact .inr (.inr ⟨nofun, rfl⟩)
  | stTick => cases h; exact .inr (.inr ⟨nofun, rfl⟩)
  | stSetDir _ => obtain ⟨_, -, rfl⟩ := setStepper_ok h; exact .inr (.inr ⟨nofun, rfl⟩)
  | actFwd _ _ => obtain ⟨-, rfl⟩ := actForward_ok h; exact .inr (.inr ⟨nofun, rfl⟩)
  | actBwd _ _ => obtain ⟨-, rfl⟩ := actBackward_ok h; exact .inr (.inr ⟨nofun, rfl⟩)
  | actStop _ => cases h; exact .inr (.inr ⟨nofun, rfl⟩)
  | actHalt _ => cases h; exact .inr (.inr ⟨nofun, rfl⟩)

/-- An operation that gives a wheel its current target leaves the wheel's regulator (R148). -/
theorem pid_of_refresh {i : Instr} {w : Wheel} {x : Number} {s t : State} (h : exec i s = .next t)
    (hgiven : s.givenTarget w i = some x) (heq : x.eq (s.pid.get w).target = true) :
    t.pid.get w = s.pid.get w := by
  obtain ⟨-, -, hok | ⟨c, -, rfl⟩⟩ := exec_next h
  · obtain ⟨y, hy, hpid⟩ | ⟨rfl, -, -⟩ | ⟨-, hpid⟩ := pid_of_pseudocode hok w
    · cases hgiven.symm.trans hy
      rw [hpid, Pid.retarget_of_eq heq]
    · cases hgiven
    · exact hpid
  · rfl

/-- Settles O34. -/
theorem refreshDoesNotExtend : Obligations.RefreshDoesNotExtend := by
  unfold Obligations.RefreshDoesNotExtend
  exact fun v om s t h => ⟨pid_of_refresh (w := .left) h rfl, pid_of_refresh (w := .right) h rfl⟩

/-- Settles O35. -/
theorem dutyAndErrorCarryOver : Obligations.DutyAndErrorCarryOver := by
  unfold Obligations.DutyAndErrorCarryOver
  intro i w s t h hstopped
  obtain ⟨-, -, hok | ⟨c, -, rfl⟩⟩ := exec_next h
  · obtain ⟨x, -, hpid⟩ | ⟨htick, hrun, -⟩ | ⟨-, hpid⟩ := pid_of_pseudocode hok w
    · rw [hpid, Pid.retarget_duty, Pid.retarget_prevErr]
      exact ⟨rfl, rfl⟩
    · exact absurd (hstopped htick) (Bool.eq_false_iff.mp hrun)
    · rw [hpid]
      exact ⟨rfl, rfl⟩
  · exact ⟨rfl, rfl⟩

/-! ## A command expires (R147, R148) -/

theorem givenTarget_of_cfg_eq {s t : State} (h : t.cfg = s.cfg) (w : Wheel) (i : Instr) :
    t.givenTarget w i = s.givenTarget w i := by
  cases i <;> simp only [State.givenTarget, State.numOperand, h]

/-- A faulted block performs no operation, so operations that end without a fault begin without one (R236). -/
theorem clear_of_performAll {ops : List Instr} {s t : State} (h : performAll ops s = .next t)
    (hclear : t.fault.cause = .none) : s.fault.cause = .none := by
  cases ops with
  | nil => cases h; exact hclear
  | cons i is =>
    rw [performAll] at h
    split at h
    · obtain ⟨-, hf, -⟩ := exec_next ‹_›
      exact hf
    · cases h
    · cases h

/-- Where an operation ends without a fault, it raised nothing. -/
theorem pseudocode_of_clear {i : Instr} {s t : State} (h : exec i s = .next t) (hclear : t.fault.cause = .none) :
    pseudocode s i = .ok t := by
  obtain ⟨-, -, hok | ⟨c, herr, rfl⟩⟩ := exec_next h
  · exact hok
  · exact absurd hclear (causeOf_ne_none (pseudocode_error herr))

/-- The regulator of a wheel has target `x`, and has counted `n` of the wheel's PID.TICKs up to
`REG_VEL_FREQ + 1`. -/
structure State.Counted (s : State) (w : Wheel) (x : Number) (n : Nat) : Prop where
  target : (s.pid.get w).target = x
  cycles : (s.pid.get w).cycles = min n (s.cfg.regVelFreq + 1)

section
variable {s t : State} {w : Wheel} {x : Number} {n : Nat} (hx : x.eq .zero = false)
include hx

theorem State.Counted.stopped_iff (hs : s.Counted w x n) : s.stopped w = true ↔ s.cfg.regVelFreq + 1 ≤ n := by
  rw [Machine.stopped_iff, hs.target, hs.cycles, hx]
  simp only [Bool.false_eq_true, false_or]
  omega

/-- One operation counts a PID.TICK of the wheel, and an equal target changes nothing. -/
theorem State.Counted.of_pseudocode {i : Instr} (hs : s.Counted w x n)
    (hgiven : ∀ y, s.givenTarget w i = some y → y.eq x = true) (h : pseudocode s i = .ok t) :
    t.Counted w x (n + [i].count (.pidTick w)) := by
  obtain ⟨hcfg, -⟩ := pseudocode_keeps h
  obtain ⟨y, hy, hpid⟩ | ⟨rfl, hrun, hpid⟩ | ⟨hstopped, hpid⟩ := pid_of_pseudocode h w
  · have hnotTick : i ≠ .pidTick w := by rintro rfl; cases hy
    rw [Pid.retarget_of_eq (hs.target ▸ hgiven y hy)] at hpid
    refine ⟨hpid ▸ hs.target, ?_⟩
    rw [hpid, hcfg, List.count_singleton, beq_false_of_ne hnotTick, hs.cycles]
    rfl
  · have hlt : ¬ s.cfg.regVelFreq + 1 ≤ n := mt (hs.stopped_iff hx).mpr (Bool.eq_false_iff.mp hrun)
    refine ⟨hpid ▸ hs.target, ?_⟩
    rw [hpid, hcfg, List.count_singleton_self, State.cyclePid_cycles, hs.cycles]
    omega
  · refine ⟨hpid ▸ hs.target, ?_⟩
    rw [hpid, hcfg, List.count_singleton, hs.cycles]
    split
    · have hfull := (hs.stopped_iff hx).mp (hstopped (eq_of_beq ‹_›))
      omega
    · rfl

/-- Operations of which none raises or changes the target count the wheel's PID.TICKs among them. -/
theorem State.Counted.of_performAll {ops : List Instr} (hs : s.Counted w x n)
    (hgiven : ∀ i ∈ ops, ∀ y, s.givenTarget w i = some y → y.eq x = true) (h : performAll ops s = .next t)
    (hclear : t.fault.cause = .none) : t.cfg = s.cfg ∧ t.Counted w x (n + ops.count (.pidTick w)) := by
  induction ops generalizing s n with
  | nil => cases h; exact ⟨rfl, hs⟩
  | cons i is ih =>
    rw [performAll] at h
    split at h
    · rename_i u hexec
      have hok := pseudocode_of_clear hexec (clear_of_performAll h hclear)
      obtain ⟨hcfg, -⟩ := exec_keeps hexec
      have hu := hs.of_pseudocode hx (hgiven i List.mem_cons_self) hok
      obtain ⟨hcfg', ht⟩ := ih hu
        (fun j hj y hy => hgiven j (List.mem_cons_of_mem i hj) y (givenTarget_of_cfg_eq hcfg w j ▸ hy)) h
      have hcount : (i :: is).count (.pidTick w) = [i].count (.pidTick w) + is.count (.pidTick w) :=
        List.count_append (l₁ := [i])
      rw [hcount, ← Nat.add_assoc]
      exact ⟨hcfg'.trans hcfg, ht⟩
    · cases h
    · cases h

end

/-- Settles O33: a PID.SET that changes the target starts the count at 0. -/
theorem commandExpires : Obligations.CommandExpires := by
  unfold Obligations.CommandExpires
  intro w p s0 s t ops hset hsetClear hne hx hgiven hrun hclear
  obtain rfl | rfl := exec_pidSet_next hset
  · rw [Pid.retarget_of_ne hne] at hrun
    have hstart : (s0.setPid w { s0.pid.get w with target := s0.numOperand p, integral := .zero, cycles := 0 }).Counted
        w (s0.numOperand p) 0 := by
      constructor <;> simp
    obtain ⟨hcfg, ht⟩ := hstart.of_performAll hx
      (fun i hi y hy => hgiven i hi y (givenTarget_of_cfg_eq (State.setPid_cfg s0 w _) w i ▸ hy)) hrun hclear
    rw [Nat.zero_add] at ht
    have hcfg0 : t.cfg = s0.cfg := hcfg
    exact ⟨hcfg0 ▸ ht.cycles, hcfg0 ▸ ht.stopped_iff hx⟩
  · cases hsetClear

end Sys2Proof.Machine

namespace Sys2Proof

/-! ## Equality by value (R10) -/

theorem Number.eq_symm (x y : Number) : x.eq y = y.eq x := by
  cases x <;> cases y <;> simp only [Number.eq, eq_comm, Bool.beq_comm]

end Sys2Proof

namespace Sys2Proof.Machine

/-! ## Results that need no rounding (R10, R174) -/

/-- A value that does not overflow has an exponent of the format. -/
theorem log2_add_le_of_abs_lt {f : NumFormat} {a : Bool} {m : ℕ} {e : ℤ} (hm : m ≠ 0)
    (h : |(Number.fin a m e).toRat| < overflowBound f) : (m.log2 : ℤ) + e ≤ f.maxExp := by
  by_contra! hgt
  have hpow : (2 : ℚ) ^ (f.maxExp + 1) ≤ m * 2 ^ e :=
    calc (2 : ℚ) ^ (f.maxExp + 1) = 2 ^ ((f.maxExp + 1 : ℕ) : ℤ) := (zpow_natCast _ _).symm
      _ ≤ 2 ^ ((m.log2 : ℤ) + e) := zpow_le_zpow_right₀ (by norm_num) (by omega)
      _ = ((2 ^ m.log2 : ℕ) : ℚ) * 2 ^ e := by rw [zpow_add₀ (by norm_num), zpow_natCast]; push_cast; rfl
      _ ≤ m * 2 ^ e := by
        gcongr
        exact_mod_cast Nat.log2_self_le hm
  have hbound : overflowBound f ≤ 2 ^ (f.maxExp + 1) := sub_le_self _ (by positivity)
  rw [toRat_fin_eq_signRat, abs_mul, abs_signRat, one_mul, abs_of_nonneg (by positivity)] at h
  linarith

/-- A number of a format has its double in the format, unless the double overflows. -/
theorem exists_double {f : NumFormat} {v : Number} (hv : v.isFinite = true) (hvf : v.inFormat f = true)
    (hsmall : |v.toRat + v.toRat| < overflowBound f) :
    ∃ d : Number, d.isFinite = true ∧ d.inFormat f = true ∧ d.toRat = v.toRat + v.toRat := by
  obtain ⟨a, m, e, rfl⟩ := Number.exists_of_isFinite hv
  by_cases hm : m = 0
  · exact ⟨_, hv, hvf, by simp [hm, Number.toRat]⟩
  have hdouble : (Number.fin a m (e + 1)).toRat = (Number.fin a m e).toRat + (Number.fin a m e).toRat := by
    rw [Number.toRat, Number.toRat, zpow_add_one₀ (by norm_num)]
    ring
  have hhigh := log2_add_le_of_abs_lt hm (hdouble ▸ hsmall)
  refine ⟨.fin a m (e + 1), rfl, ?_, hdouble⟩
  simp only [Number.inFormat, hm, Bool.and_eq_true, Bool.or_eq_true, decide_eq_true_eq, false_and, false_or] at hvf ⊢
  obtain ⟨⟨⟨hodd, hprec⟩, hlow⟩, -⟩ := hvf
  exact ⟨⟨⟨hodd, hprec⟩, by omega⟩, hhigh⟩

section
variable {f : NumFormat} {x : ℚ} {r v : Number}

/-- An exact result that is one of the format's numbers is what it rounds to. -/
theorem CorrectlyRounded.toRat_eq (h : CorrectlyRounded f x r) (hr : r.isFinite = true) (hv : v.isFinite = true)
    (hvf : v.inFormat f = true) (hx : v.toRat = x) : r.toRat = x :=
  le_antisymm (hx ▸ h.le_of_inFormat hr hv hvf hx.ge) (hx ▸ h.ge_of_inFormat hr hv hvf hx.le)

theorem CorrectlyRounded.isFinite_and_zero (h : CorrectlyRounded f 0 r) : r.isFinite = true ∧ r.toRat = 0 :=
  have hr : r.isFinite = true := h.finite (by rw [abs_zero]; exact overflowBound_pos f)
  ⟨hr, h.toRat_eq hr Number.isFinite_zero (Number.inFormat_zero f) Number.toRat_zero⟩

/-- Doubling rounds only where it overflows. -/
theorem CorrectlyRounded.toRat_eq_double (hv : v.isFinite = true) (hvf : v.inFormat f = true)
    (h : CorrectlyRounded f (v.toRat + v.toRat) r) (hr : r.isFinite = true) : r.toRat = v.toRat + v.toRat := by
  have hsmall : |v.toRat + v.toRat| < overflowBound f := by
    by_contra! hover
    rw [h.infinite hover] at hr
    cases hr
  obtain ⟨d, hd, hdf, hdouble⟩ := exists_double hv hvf hsmall
  exact h.toRat_eq hr hd hdf hdouble

end

/-! ## What KIN.SET and KIN.GET write (43_differential_drive_kinematics.md) -/

/-- PID.SET's writes for both wheels (R171). -/
def State.retargetBoth (s : State) (left right : Number) : State :=
  (s.setPid .left ((s.pid.get .left).retarget left)).setPid .right ((s.pid.get .right).retarget right)

@[simp] theorem State.retargetBoth_pid_left (s : State) (left right : Number) :
    (s.retargetBoth left right).pid.get .left = (s.pid.get .left).retarget left := rfl

@[simp] theorem State.retargetBoth_pid_right (s : State) (left right : Number) :
    (s.retargetBoth left right).pid.get .right = (s.pid.get .right).retarget right := rfl

/-- A regulator given a finite target has a target of that value, its own where the two were equal (R141). -/
theorem Pid.retarget_target_value (x : Pid) {t : Number} (ht : t.isFinite = true) :
    (x.retarget t).target.isFinite = true ∧ (x.retarget t).target.toRat = t.toRat := by
  cases h : t.eq x.target with
  | true =>
    have hfin := Number.isFinite_of_eq ht (Number.eq_symm _ _ ▸ h)
    rw [Pid.retarget_of_eq h]
    exact ⟨hfin, ((Number.eq_iff ht hfin).mp h).symm⟩
  | false =>
    rw [Pid.retarget_of_ne h]
    exact ⟨ht, rfl⟩

section
variable {v om : Number} {s t : State}

theorem setVelocities_ok_eq (h : setVelocities v om s = .ok t) :
    t = s.retargetBoth (leftTarget s.cfg v om) (rightTarget s.cfg v om) := by
  obtain ⟨-, -, -, -, u, hleft, hright⟩ := setVelocities_ok h
  rw [setTarget_ok_eq hright, setTarget_ok_eq hleft]
  rfl

/-- The checks of R171. -/
def VelocitiesFinite (c : Config) (v om : Number) : Prop :=
  v.isFinite = true ∧ om.isFinite = true ∧ (leftTarget c v om).isFinite = true ∧ (rightTarget c v om).isFinite = true

theorem setVelocities_of_finite (h : VelocitiesFinite s.cfg v om) :
    setVelocities v om s = .ok (s.retargetBoth (leftTarget s.cfg v om) (rightTarget s.cfg v om)) := by
  obtain ⟨hv, hom, hleft, hright⟩ := h
  simp only [setVelocities, hv, hom, hleft, hright, setTarget_of_finite, Bool.and_self, if_true]
  rfl

theorem setVelocities_of_not_finite (h : ¬ VelocitiesFinite s.cfg v om) :
    setVelocities v om s = .error .nonFinite := by
  cases hset : setVelocities v om s with
  | ok t =>
    obtain ⟨hv, hom, hleft, hright, -⟩ := setVelocities_ok hset
    exact absurd ⟨hv, hom, hleft, hright⟩ h
  | error c => rw [setVelocities_error hset]

end

/-- Everything a KIN.SET can do when it answers a next state. -/
theorem exec_kinSet_next {v om : Pattern} {s t : State} (h : exec (.kinSet v om) s = .next t) :
    t = s.retargetBoth (leftTarget s.cfg (s.numOperand v) (s.numOperand om))
        (rightTarget s.cfg (s.numOperand v) (s.numOperand om)) ∨
      t = s.raise .nonFinite (encode (.kinSet v om)) := by
  obtain ⟨-, -, hok | ⟨c, herr, rfl⟩⟩ := exec_next h
  · exact .inl (setVelocities_ok_eq hok)
  · rw [setVelocities_error herr]
    exact .inr rfl

/-- The cache a KIN.GET that raises nothing writes (R172). -/
def State.measuredKin (s : State) : Kin :=
  { lm := (s.ve.get .left).lin, rm := (s.ve.get .right).lin,
    v := measuredLinear s.cfg (s.ve.get .left).lin (s.ve.get .right).lin,
    om := measuredAngular s.cfg (s.ve.get .left).lin (s.ve.get .right).lin }

/-- The state after a KIN.GET that raises nothing (R172). -/
def State.giveMeasured (s : State) : State := (s.setKin s.measuredKin).giveResult s.measuredKin.v s.measuredKin.om

theorem getVelocities_of_finite {s : State} (hv : s.measuredKin.v.isFinite = true)
    (hom : s.measuredKin.om.isFinite = true) : getVelocities s = .ok s.giveMeasured :=
  if_pos (Bool.and_eq_true_iff.mpr ⟨hv, hom⟩)

theorem getVelocities_of_not_finite {s : State}
    (h : s.measuredKin.v.isFinite = false ∨ s.measuredKin.om.isFinite = false) :
    getVelocities s = .error .nonFinite :=
  if_neg (Bool.eq_false_iff.mp (Bool.and_eq_false_iff.mpr h))

/-- Everything a KIN.GET can do when it answers a next state. -/
theorem exec_kinGet_next {s t : State} (h : exec .kinGet s = .next t) :
    t = s.giveMeasured ∨ t = s.raise .nonFinite (encode .kinGet) := by
  obtain ⟨-, -, hok | ⟨c, herr, rfl⟩⟩ := exec_next h
  · obtain ⟨-, -, rfl⟩ := getVelocities_ok hok
    exact .inl rfl
  · rw [getVelocities_error herr]
    exact .inr rfl

/-- Settles O37. -/
theorem kinSetSetsBothTargets : Obligations.KinSetSetsBothTargets := by
  unfold Obligations.KinSetSetsBothTargets
  intro pv pom s h n v om left right retarget
  have hretarget (x : Pid) (t : Number) : retarget x t = x.retarget t := by
    simp only [retarget, Number.eq_symm x.target t]
    rfl
  refine ⟨rfl, fun hfin => ?_, fun hbad => exec_error h.valid h.clear (setVelocities_of_not_finite hbad)⟩
  rw [hretarget, hretarget]
  exact exec_ok h.valid h.clear (setVelocities_of_finite hfin)

/-- Settles O38. -/
theorem kinGetReturnsMeasured : Obligations.KinGetReturnsMeasured := by
  unfold Obligations.KinGetReturnsMeasured
  intro s h n lm rm v om
  exact ⟨rfl, fun ⟨hv, hom⟩ => exec_ok h.valid h.clear (getVelocities_of_finite hv hom),
    fun hbad => exec_error h.valid h.clear (getVelocities_of_not_finite hbad)⟩

/-- Settles O41. -/
theorem frameOfKinematics : Obligations.FrameOfKinematics := by
  unfold Obligations.FrameOfKinematics
  refine ⟨fun v om s t h => ?_, fun s t h => ?_⟩
  · obtain rfl | rfl := exec_kinSet_next h
    · exact ⟨rfl, rfl, rfl, rfl, rfl, rfl, rfl, rfl, rfl, fun w => by cases w <;> simp, .inl rfl⟩
    · exact ⟨rfl, rfl, rfl, rfl, rfl, rfl, rfl, rfl, rfl, fun _ => ⟨rfl, rfl⟩, .inr ⟨rfl, rfl⟩⟩
  · obtain rfl | rfl := exec_kinGet_next h
    · exact ⟨rfl, rfl, rfl, rfl, rfl, rfl, rfl, rfl, .inl rfl⟩
    · exact ⟨rfl, rfl, rfl, rfl, rfl, rfl, rfl, rfl, .inr ⟨rfl, rfl, rfl⟩⟩

/-! ## The round trip without rotation (R174) -/

/-- The mean of two equal velocities is that velocity: neither the doubling nor the halving rounds. -/
theorem toRat_measuredLinear {c : Config} {lm rm v : Number} (hlm : lm.isFinite = true) (hrm : rm.isFinite = true)
    (hv : v.isFinite = true) (hvf : v.inFormat c.num = true) (hl : lm.toRat = v.toRat) (hr : rm.toRat = v.toRat)
    (hmean : (measuredLinear c lm rm).isFinite = true) :
    (measuredLinear c lm rm).toRat = v.toRat := by
  obtain ⟨hhalf, hsumFin⟩ := Number.isFinite_of_mul _ hmean
  have hsum := correctlyRounded_add c.num hlm hrm
  rw [hl, hr] at hsum
  have hround := correctlyRounded_mul c.num hhalf hsumFin
  have hexact : Number.half.toRat * (Number.add c.num lm rm).toRat = v.toRat := by
    rw [hsum.toRat_eq_double hv hvf hsumFin, Number.half, Number.toRat]
    norm_num
    ring
  rw [hexact] at hround
  exact hround.toRat_eq hmean hv hvf rfl

section
variable {c : Config} (hvalid : c.valid = true)
include hvalid

theorem isFinite_and_ne_zero_wheelSep : c.wheelSep.isFinite = true ∧ c.wheelSep.toRat ≠ 0 := by
  obtain ⟨-, -, hsep⟩ := positive_of_valid hvalid
  obtain ⟨hfin, hpos⟩ := isFinite_and_pos_of_positive hsep
  exact ⟨hfin, hpos.ne'⟩

theorem halfSpin_isFinite_and_zero {om : Number} (hom : om.isFinite = true) (h0 : om.toRat = 0) :
    (halfSpin c om).isFinite = true ∧ (halfSpin c om).toRat = 0 := by
  obtain ⟨hsep, -⟩ := isFinite_and_ne_zero_wheelSep hvalid
  have hhalf := correctlyRounded_mul c.num (x := .half) rfl hom
  rw [h0, mul_zero] at hhalf
  obtain ⟨hhalfFin, hhalf0⟩ := hhalf.isFinite_and_zero
  have hspin := correctlyRounded_mul c.num hhalfFin hsep
  rw [hhalf0, zero_mul] at hspin
  exact hspin.isFinite_and_zero

/-- Without rotation each wheel's target is the commanded velocity. -/
theorem toRat_targets {v om : Number} (hvf : v.inFormat c.num = true) (h : VelocitiesFinite c v om)
    (h0 : om.toRat = 0) : (leftTarget c v om).toRat = v.toRat ∧ (rightTarget c v om).toRat = v.toRat := by
  obtain ⟨hv, hom, hleft, hright⟩ := h
  obtain ⟨hspin, hspin0⟩ := halfSpin_isFinite_and_zero hvalid hom h0
  have hsub := correctlyRounded_sub c.num hv hspin
  have hadd := correctlyRounded_add c.num hv hspin
  rw [hspin0, sub_zero] at hsub
  rw [hspin0, add_zero] at hadd
  exact ⟨hsub.toRat_eq hleft hv hvf rfl, hadd.toRat_eq hright hv hvf rfl⟩

theorem measuredAngular_isFinite_and_zero {lm rm : Number} (hlm : lm.isFinite = true) (hrm : rm.isFinite = true)
    (heq : rm.toRat = lm.toRat) :
    (measuredAngular c lm rm).isFinite = true ∧ (measuredAngular c lm rm).toRat = 0 := by
  obtain ⟨hsep, hsep0⟩ := isFinite_and_ne_zero_wheelSep hvalid
  have hsub := correctlyRounded_sub c.num hrm hlm
  rw [heq, sub_self] at hsub
  obtain ⟨hsubFin, hsub0⟩ := hsub.isFinite_and_zero
  have hdiv := correctlyRounded_div c.num hsubFin hsep hsep0
  rw [hsub0, zero_div] at hdiv
  exact hdiv.isFinite_and_zero

end

/-- Without rotation a KIN.SET that raises nothing leaves both wheels a target equal to the commanded velocity. -/
theorem targets_of_setVelocities {v om : Number} {s t : State} (hvalid : s.cfg.valid = true)
    (hvf : v.inFormat s.cfg.num = true) (h : setVelocities v om s = .ok t) (hzero : om.eq .zero = true) (w : Wheel) :
    (t.pid.get w).target.eq v = true := by
  obtain ⟨hv, hom, hleft, hright, -⟩ := setVelocities_ok h
  have h0 : om.toRat = 0 := by rwa [Number.eq_iff hom rfl, Number.toRat_zero] at hzero
  obtain ⟨hl, hr⟩ := toRat_targets hvalid hvf ⟨hv, hom, hleft, hright⟩ h0
  have hretarget (x : Pid) {y : Number} (hy : y.isFinite = true) (hval : y.toRat = v.toRat) :
      (x.retarget y).target.eq v = true :=
    have ⟨hfin, heq⟩ := x.retarget_target_value hy
    (Number.eq_iff hfin hv).mpr (heq.trans hval)
  rw [setVelocities_ok_eq h]
  cases w with
  | left => exact hretarget _ hleft hl
  | right => exact hretarget _ hright hr

/-- Settles O39: a zero `om` leaves both targets at the commanded velocity, whose double is exact unless it overflows. -/
theorem kinematicsRoundTrip : Obligations.KinematicsRoundTrip := by
  unfold Obligations.KinematicsRoundTrip
  intro pv pom s t s' t' hset hsetClear hzero hcfg hlagFree hget hgetClear
  obtain ⟨hvalid, -, -⟩ := exec_next hset
  have hok := pseudocode_of_clear hset hsetClear
  have htargets := targets_of_setVelocities hvalid (inFormat_numOperand s pv) hok hzero
  obtain ⟨hv, -⟩ := setVelocities_ok hok
  have hlin (w : Wheel) : (s'.ve.get w).lin.isFinite = true ∧ (s'.ve.get w).lin.toRat = (s.numOperand pv).toRat := by
    have hfin := Number.isFinite_of_eq hv (htargets w)
    rw [hlagFree w]
    exact ⟨hfin, (Number.eq_iff hfin hv).mp (htargets w)⟩
  obtain ⟨hlm, hl⟩ := hlin .left
  obtain ⟨hrm, hr⟩ := hlin .right
  obtain ⟨hmean, -, rfl⟩ := getVelocities_ok (pseudocode_of_clear hget hgetClear)
  rw [hcfg] at hmean
  have hlinear := toRat_measuredLinear hlm hrm hv (inFormat_numOperand s pv) hl hr hmean
  obtain ⟨hangFin, hangular⟩ := measuredAngular_isFinite_and_zero hvalid hlm hrm (hr.trans hl.symm)
  rw [hcfg]
  exact ⟨htargets, _, _, rfl, (Number.eq_iff hmean hv).mpr hlinear,
    (Number.eq_iff hangFin Number.isFinite_zero).mpr (hangular.trans Number.toRat_zero.symm)⟩

end Sys2Proof.Machine

namespace Sys2Proof.Machine

/-! ## What a tick and a direction write (44_oscillating_stepper_sequencer.md) -/

section
variable {c : Config} {t : St}

@[simp] theorem halfStep_pos (t : St) (d : Int) : (halfStep t d).pos = t.pos + d := rfl

theorem stepperTick_of_rev (hdir : t.dir = .rev) :
    stepperTick c t = if -(c.limit : Int) ≤ t.pos then halfStep t (-1) else t := by
  simp [stepperTick, hdir]

theorem stepperTick_of_not_rev (hdir : t.dir ≠ .rev) :
    stepperTick c t = if t.pos ≤ (c.limit : Int) then halfStep t 1 else t := by
  simp [stepperTick, hdir]

/-- Everything a tick can do: a half-step either way, or nothing. -/
theorem stepperTick_cases (c : Config) (t : St) :
    stepperTick c t = halfStep t (-1) ∨ stepperTick c t = halfStep t 1 ∨ stepperTick c t = t := by
  by_cases hdir : t.dir = .rev
  · rw [stepperTick_of_rev hdir]
    split <;> simp
  · rw [stepperTick_of_not_rev hdir]
    split <;> simp

/-- A tick writes only the position and the output. -/
theorem stepperTick_keeps (c : Config) (t : St) :
    (stepperTick c t).dir = t.dir ∧ (stepperTick c t).enabled = t.enabled ∧
      (stepperTick c t).dirLine = t.dirLine ∧ (stepperTick c t).enLine = t.enLine := by
  obtain h | h | h := stepperTick_cases c t <;> rw [h] <;> exact ⟨rfl, rfl, rfl, rfl⟩

theorem stepperTick_dir (c : Config) (t : St) : (stepperTick c t).dir = t.dir :=
  have ⟨hdir, _⟩ := stepperTick_keeps c t
  hdir

/-- A tick in REV moves back unless the position is at `-LIMIT - 1` (R192). -/
theorem stepperTick_pos_of_rev (hdir : t.dir = .rev) (hlow : -(c.limit : Int) - 1 ≤ t.pos) :
    (stepperTick c t).pos = max (t.pos - 1) (-(c.limit : Int) - 1) := by
  rw [stepperTick_of_rev hdir]
  split
  · rw [halfStep_pos]
    omega
  · omega

/-- A tick not in REV moves on unless the position is at `LIMIT + 1` (R192, R193). -/
theorem stepperTick_pos_of_not_rev (hdir : t.dir ≠ .rev) (hhigh : t.pos ≤ (c.limit : Int) + 1) :
    (stepperTick c t).pos = min (t.pos + 1) ((c.limit : Int) + 1) := by
  rw [stepperTick_of_not_rev hdir]
  split
  · rw [halfStep_pos]
    omega
  · omega

end

/-- A direction writes everything but the position and the output (R195, R196). -/
theorem setDirection_keeps (c : Config) (d : Dir) (t : St) :
    (setDirection c d t).pos = t.pos ∧ (setDirection c d t).stepOut = t.stepOut := by
  cases d <;> exact ⟨rfl, rfl⟩

/-! ## What ST.TICK and ST.SETDIR do -/

theorem exec_stTick {s : State} (h : s.Ready) : exec .stTick s = .next (s.setSt (stepperTick s.cfg s.st)) :=
  exec_ok h.valid h.clear rfl

/-- Everything an ST.TICK can do when it answers a next state: it raises nothing. -/
theorem exec_stTick_next {s t : State} (h : exec .stTick s = .next t) : t = s.setSt (stepperTick s.cfg s.st) := by
  obtain ⟨-, -, hok | ⟨c, herr, -⟩⟩ := exec_next h
  · cases hok
    rfl
  · cases herr

/-- Everything an ST.SETDIR can do when it answers a next state: set a direction, or raise `CV_DIRECTION`. -/
theorem exec_stSetDir_next {d : Int} {s t : State} (h : exec (.stSetDir d) s = .next t) :
    (∃ dir, directionOperand d = some dir ∧ t = s.setSt (setDirection s.cfg dir s.st)) ∨
      t = s.raise .cvDirection (encode (.stSetDir d)) := by
  obtain ⟨-, -, hok | ⟨c, herr, rfl⟩⟩ := exec_next h
  · exact .inl (setStepper_ok hok)
  · obtain ⟨-, rfl⟩ := setStepper_error herr
    exact .inr rfl

theorem directionOperand_of_ne {d : Int} (h0 : d ≠ 0) (h1 : d ≠ 1) (hneg : d ≠ -1) : directionOperand d = none := by
  rw [directionOperand, if_neg h0, if_neg h1, if_neg hneg]

theorem exec_stSetDir_of_direction {d : Int} {dir : Dir} {s : State} (h : s.Ready)
    (hdir : directionOperand d = some dir) :
    exec (.stSetDir d) s = .next (s.setSt (setDirection s.cfg dir s.st)) :=
  exec_ok h.valid h.clear (by rw [pseudocode, setStepper, hdir])

theorem setStepper_of_no_direction {d : Int} (s : State) (h : directionOperand d = none) :
    setStepper d s = .error .cvDirection := by
  rw [setStepper, h]

/-- The payload byte is the direction's two's complement (R73). -/
theorem i8Byte_eq_ofInt (d : Int) : i8Byte d = BitVec.ofInt 8 d := by
  apply BitVec.eq_of_toNat_eq
  rw [i8Byte, BitVec.toNat_ofNat, BitVec.toNat_ofInt]
  omega

theorem encode_stSetDir (d : Int) : encode (.stSetDir d) = [0x81#8, BitVec.ofInt 8 d] := by
  rw [← i8Byte_eq_ofInt]
  rfl

/-! ## Ticks in a row (R192, R193) -/

theorem State.Ready.setSt {s : State} (h : s.Ready) (x : St) : (s.setSt x).Ready := ⟨h.valid, h.clear⟩

/-- Ticks in a row write what they write to the stepper one after the other. -/
theorem performAll_stTicks {s : State} (h : s.Ready) (k : Nat) :
    performAll (List.replicate k .stTick) s = .next (s.setSt ((stepperTick s.cfg)^[k] s.st)) := by
  induction k generalizing s with
  | zero => rfl
  | succ k ih =>
    rw [List.replicate_succ, performAll, exec_stTick h]
    exact ih (h.setSt _)

/-- The output of `u` differs from that of `t` exactly where their positions are an odd number of half-steps apart. -/
def St.ToggledWithPos (t u : St) : Prop := u.stepOut = t.stepOut ↔ (u.pos - t.pos) % 2 = 0

section
variable {c : Config} {t u : St}

theorem St.ToggledWithPos.refl (t : St) : t.ToggledWithPos t := iff_of_true rfl (by omega)

theorem St.ToggledWithPos.halfStep (h : t.ToggledWithPos u) {d : Int} (hodd : d % 2 = 1) :
    t.ToggledWithPos (halfStep u d) := by
  have hflip : (!u.stepOut) = t.stepOut ↔ ¬ u.stepOut = t.stepOut := Bool.not_eq_iff
  have hparity : (u.pos + d - t.pos) % 2 = 0 ↔ ¬ (u.pos - t.pos) % 2 = 0 := by omega
  exact hflip.trans ((not_congr h).trans hparity.symm)

theorem St.ToggledWithPos.stepperTick (h : t.ToggledWithPos u) : t.ToggledWithPos (stepperTick c u) := by
  obtain hback | hon | hstay := stepperTick_cases c u
  · exact hback ▸ h.halfStep rfl
  · exact hon ▸ h.halfStep rfl
  · exact hstay.symm ▸ h

theorem St.toggledWithPos_ticks (c : Config) (t : St) (k : Nat) :
    t.ToggledWithPos ((Machine.stepperTick c)^[k] t) :=
  Function.Iterate.rec t.ToggledWithPos (.refl t) (fun _ h => h.stepperTick) k

theorem ticks_dir (c : Config) (t : St) (k : Nat) : ((stepperTick c)^[k] t).dir = t.dir :=
  Function.Iterate.rec (fun u => u.dir = t.dir) rfl (fun u h => (stepperTick_dir c u).trans h) k

theorem ticks_pos_of_rev (hdir : t.dir = .rev) (hlow : -(c.limit : Int) - 1 ≤ t.pos) (k : Nat) :
    ((stepperTick c)^[k] t).pos = max (t.pos - k) (-(c.limit : Int) - 1) := by
  induction k with
  | zero =>
    rw [Function.iterate_zero_apply]
    omega
  | succ k ih =>
    rw [Function.iterate_succ_apply', stepperTick_pos_of_rev ((ticks_dir c t k).trans hdir) (by omega), ih]
    omega

theorem ticks_pos_of_not_rev (hdir : t.dir ≠ .rev) (hhigh : t.pos ≤ (c.limit : Int) + 1) (k : Nat) :
    ((stepperTick c)^[k] t).pos = min (t.pos + k) ((c.limit : Int) + 1) := by
  induction k with
  | zero =>
    rw [Function.iterate_zero_apply]
    omega
  | succ k ih =>
    rw [Function.iterate_succ_apply', stepperTick_pos_of_not_rev (ticks_dir c t k ▸ hdir) (by omega), ih]
    omega

end

/-- Settles O43, by induction on the ticks. -/
theorem stepperSweepsToBound : Obligations.StepperSweepsToBound := by
  unfold Obligations.StepperSweepsToBound
  intro k s h
  have hrun := performAll_stTicks h k
  have htoggled := St.toggledWithPos_ticks s.cfg s.st k
  exact ⟨fun hdir hhigh => ⟨_, hrun, ticks_pos_of_not_rev hdir hhigh k, htoggled⟩,
    fun hdir hlow => ⟨_, hrun, ticks_pos_of_rev hdir hlow k, htoggled⟩⟩

/-- Settles O45, by what each operation can do. -/
theorem frameOfStepper : Obligations.FrameOfStepper := by
  unfold Obligations.FrameOfStepper
  intro i s t hi h
  obtain rfl | ⟨d, rfl⟩ := hi
  · obtain rfl := exec_stTick_next h
    exact ⟨rfl, rfl, rfl, rfl, rfl, rfl, rfl, rfl, rfl, fun _ => ⟨rfl, stepperTick_keeps s.cfg s.st⟩, nofun, nofun,
      .inl rfl⟩
  · obtain ⟨dir, hdir, rfl⟩ | rfl := exec_stSetDir_next h
    · refine ⟨rfl, rfl, rfl, rfl, rfl, rfl, rfl, rfl, rfl, nofun, fun _ => setDirection_keeps s.cfg dir s.st, ?_,
        .inl rfl⟩
      intro hidle
      cases hidle
      cases hdir
      rfl
    · exact ⟨rfl, rfl, rfl, rfl, rfl, rfl, rfl, rfl, rfl, nofun, fun _ => ⟨rfl, rfl⟩, fun _ => rfl, .inr ⟨rfl, rfl⟩⟩

end Sys2Proof.Machine

namespace Sys2Proof
open Machine

/-! ## The two operations' contracts (outside `Machine`, where the model's definitions have the theorems' names) -/

/-- Settles O42: within its bound a tick is a half-step, beyond it the stepper's own state. -/
theorem stepperTick : Obligations.StepperTick := by
  unfold Obligations.StepperTick
  intro s h
  rw [exec_stTick h]
  refine ⟨rfl, fun hdir hlow => ?_, fun hdir hhigh => ?_, fun hdir hlow => ?_, fun hdir hhigh => ?_⟩
  · rw [stepperTick_of_rev hdir, if_pos hlow]
    rfl
  · rw [stepperTick_of_not_rev hdir, if_pos hhigh]
    rfl
  · rw [stepperTick_of_rev hdir, if_neg hlow.not_ge]
    rfl
  · rw [stepperTick_of_not_rev hdir, if_neg hhigh.not_ge]
    rfl

/-- Settles O44: 0, 1 and -1 have a direction, and every other operand raises. -/
theorem setDirection : Obligations.SetDirection := by
  unfold Obligations.SetDirection
  intro d s h _ _
  refine ⟨encode_stSetDir d, ?_, ?_, ?_, fun h0 h1 hneg => ?_⟩
  · rintro rfl
    exact exec_stSetDir_of_direction (dir := .idle) h rfl
  · rintro rfl
    exact exec_stSetDir_of_direction (dir := .fwd) h rfl
  · rintro rfl
    exact exec_stSetDir_of_direction (dir := .rev) h rfl
  · rw [← encode_stSetDir]
    exact exec_error h.valid h.clear (setStepper_of_no_direction s (directionOperand_of_ne h0 h1 hneg))

end Sys2Proof

namespace Sys2Proof.Machine

/-! ## The Actuator operations (45_actuator_interface.md) -/

/-- Everything an operation of a wheel's Actuator can do when it answers a next state: write the wheel's outputs, or
raise `CV_DUTY`. -/
theorem exec_actuator_next {i : Instr} {w : Wheel} {s t : State}
    (hi : (∃ p, i = .actFwd w p) ∨ (∃ p, i = .actBwd w p) ∨ i = .actStop w ∨ i = .actHalt w)
    (h : exec i s = .next t) : (∃ x, t = s.setAct w x) ∨ t = s.raise .cvDuty (encode i) := by
  obtain ⟨-, -, hok | ⟨c, herr, rfl⟩⟩ := exec_next h
  · left
    obtain ⟨p, rfl⟩ | ⟨p, rfl⟩ | rfl | rfl := hi
    · exact ⟨_, (actForward_ok hok).2⟩
    · exact ⟨_, (actBackward_ok hok).2⟩
    · cases hok
      exact ⟨_, rfl⟩
    · cases hok
      exact ⟨_, rfl⟩
  · right
    obtain ⟨p, rfl⟩ | ⟨p, rfl⟩ | rfl | rfl := hi
    · rw [(actForward_error herr).2]
    · rw [(actBackward_error herr).2]
    · cases herr
    · cases herr

/-- Settles O46: the check is a bound on the value, which a NaN fails. -/
theorem dutyContract : Obligations.DutyContract := by
  unfold Obligations.DutyContract
  intro w p s h duty fwd bwd
  have hfwd : encode (.actFwd w p) = fwd :: patternBytes p := by cases w <;> rfl
  have hbwd : encode (.actBwd w p) = bwd :: patternBytes p := by cases w <;> rfl
  refine ⟨hfwd, hbwd, fun hduty => ?_, fun hduty => ?_⟩ <;> rw [← dutyInRange_iff] at hduty
  · exact ⟨exec_ok h.valid h.clear (if_pos hduty), exec_ok h.valid h.clear (if_pos hduty)⟩
  · rw [← hfwd, ← hbwd]
    exact ⟨exec_error h.valid h.clear (if_neg hduty), exec_error h.valid h.clear (if_neg hduty)⟩

/-- Settles O48. -/
theorem frameOfActuators : Obligations.FrameOfActuators := by
  unfold Obligations.FrameOfActuators
  intro i w s t hi h
  obtain ⟨x, rfl⟩ | rfl := exec_actuator_next hi h
  · exact ⟨rfl, rfl, rfl, rfl, rfl, rfl, rfl, rfl, rfl, fun w' hw => PerWheel.get_set_other _ hw _, .inl rfl⟩
  · exact ⟨rfl, rfl, rfl, rfl, rfl, rfl, rfl, rfl, rfl, fun _ _ => rfl, .inr ⟨rfl, rfl⟩⟩

/-- Settles O47: neither operation checks anything, and each writes one part of the outputs over the old ones. -/
theorem stopAndHalt : Obligations.StopAndHalt := by
  unfold Obligations.StopAndHalt
  intro w s h
  have hstop : pseudocode s (.actStop w) = .ok (actStop w s) := rfl
  have hhalt : pseudocode s (.actHalt w) = .ok (actHalt w s) := rfl
  exact ⟨by cases w <;> rfl, by cases w <;> rfl, exec_ok h.valid h.clear hstop, exec_ok h.valid h.clear hhalt⟩

end Sys2Proof.Machine

namespace Sys2Proof.Machine

/-! ## A held fault (60_exceptions.md R236) -/

/-- With a fault held, a step that there is leaves the state as it is (nothing is scheduled) or is a reset's: a turn has
none. -/
theorem step_next_of_faulted {s t : State} (hf : s.fault.cause ≠ .none) (h : step s = .next t) :
    t = s ∨ ∃ events, s.schedule = .reset :: events := by
  obtain ⟨-, ⟨-, rfl⟩ | ⟨events, hs, -⟩ | ⟨a, events, -, hclear, -⟩⟩ := step_next h
  · exact .inl rfl
  · exact .inr ⟨events, hs⟩
  · exact absurd hclear hf

/-- Settles O14: an operation and a turn are stuck, and the one other step than a reset's changes nothing. -/
theorem faultIsStickyUntilReset : Obligations.FaultIsStickyUntilReset := by
  unfold Obligations.FaultIsStickyUntilReset
  intro s hv hf
  refine ⟨exec_faulted hv hf, fun _ _ => step_faulted_turn hv hf, fun t h => ?_⟩
  obtain rfl | hreset := step_next_of_faulted hf h
  · exact .inl ⟨rfl, rfl⟩
  · exact .inr hreset

end Sys2Proof.Machine

namespace Sys2Proof.Machine

/-! ## Reset (70_reset_and_hazards.md R260) -/

/-- Settles O13: a reset's step is `resetEvent`, whose two wheels hold one reset value each; with a fault held, the one
other step leaves the state, and so the fault, as it is. -/
theorem resetRestoresEveryField : Obligations.ResetRestoresEveryField := by
  unfold Obligations.ResetRestoresEveryField
  constructor
  · intro s events hv hs
    exact ⟨_, step_reset hv hs, fun w => ⟨PerWheel.get_mk_same _ w, PerWheel.get_mk_same _ w,
      PerWheel.get_mk_same _ w, PerWheel.get_mk_same _ w⟩, rfl, rfl, rfl, rfl⟩
  · intro s t h hf hclear
    obtain rfl | hreset := step_next_of_faulted hf h
    · exact absurd hclear hf
    · exact hreset

end Sys2Proof.Machine
